-- ==== Sys2Proof/Word.lean ====
section
/-! DEFINITION. The word types of the core and the type of a sparse memory (spec/00_scope.md R8, R11; 10_state.md R26). -/

namespace Sys2Proof

/-- One byte of a block or of block RAM (R8: bytes are 8 bits, bit 0 the least significant). -/
abbrev Byte := BitVec 8

/-- A signed 16-bit sample or history value, as its two's-complement pattern (R11, R105). -/
abbrev Sample := BitVec 16

/-- A 32-bit register or command word (R26, R90). -/
abbrev Word := BitVec 32

/-- A memory of `w`-bit cells: the WRITTEN cells only, each with its address, in strictly rising order of address.
An address that is not listed is an unwritten cell (10_state.md R41). `Mem 8` is a list of `Host.Cell`. -/
abbrev Mem (w : Nat) := List (Nat × BitVec w)

end Sys2Proof
end

