-- ==== Sys2Proof/Config.lean ====
section
/-! DEFINITION. What is fixed for a machine: the sizes (00_scope.md R6) and the OPEN adaptive codec (43_adaptive.md R212). -/

namespace Sys2Proof

/-- The OPEN sizes of 00_scope.md R6 (decision D24). Every state carries them (`State.params`), no step changes them, and a
statement about all states so holds for all sizes. -/
structure Params where
  /-- `NCH_MAX`, the number of per-channel state slots. -/
  nchMax : Nat
  /-- `BRAM_SIZE`, in bytes. -/
  bramSize : Nat
  /-- `SRAM_WORDS`, in 16-bit words. -/
  sramWords : Nat
deriving DecidableEq, Repr

/-- The legal ranges of R6. -/
def Params.legal (p : Params) : Bool :=
  decide (1 ≤ p.nchMax) && decide (p.nchMax ≤ 255) &&
  decide (16 ≤ p.bramSize) && decide (p.bramSize ≤ 2 ^ 32) &&
  decide (1 ≤ p.sramWords) && decide (p.sramWords ≤ 2 ^ 32)

/-- The sizes that 95_test_vectors.md takes unless it says otherwise. DESIGN CHOICE (log 1): the reset state has these. -/
def Params.ofVectors : Params := { nchMax := 4, bramSize := 256, sramWords := 256 }

/-- `BLOCK_BYTES`: "fixed block size = 16 bytes for both codings" (R6). -/
def blockBytes : Nat := 16

/-- `SPB_P`: samples of one PREDICTIVE block (R6). -/
def samplesPerPredictiveBlock : Nat := 30

/-- `AdState`, the type of the adaptive codec's per-channel state (R212), which the spec leaves OPEN. DESIGN CHOICE (log 2): a
number, into which the states of any finite adaptive codec can be coded. -/
structure AdState where
  code : Nat
deriving DecidableEq, Repr, Inhabited

/-- `SPB_A` less one. OPEN in 1..32 (R212, R215): no value of it can be proved. -/
opaque Config.spbALessOne : Fin 32

/-- `SPB_A`, the samples of one ADAPTIVE block, in 1..32 (R212). -/
def Config.spbA : Nat := Config.spbALessOne.val + 1

/-- `AdInit`, the fresh adaptive state (R212). OPEN. -/
opaque Config.adInit : AdState

/-- `AdDecode` (R212). OPEN: a function of its arguments and nothing else is known of it (R213); `none` is `Fail`. -/
opaque Config.adDecode : AdState → Vector Byte 16 → Option (Vector Sample Config.spbA × AdState)

/-- `AdEncode` (R212). OPEN: a function of its arguments and nothing else is known of it (R213); `none` is `Fail`. -/
opaque Config.adEncode : AdState → Vector Sample Config.spbA → Option (Vector Byte 16 × AdState)

/-- `PORT_BASE` (20_memory.md R72): where a platform puts the port. OPEN, and read by no rule. -/
opaque Config.portBase : Nat

end Sys2Proof
end

