-- ==== Sys2Proof/Machine/Arith.lean ====
section
/-! DEFINITION. The arithmetic primitives over the integers (00_scope.md R9). -/

namespace Sys2Proof.Machine

/-- `a >> k`, the arithmetic right shift: `floor(a / 2^k)`. -/
def asr (a : Int) (k : Nat) : Int := a / 2 ^ k

/-- `a << k`: `a * 2^k`, also for negative `a`. -/
def shl (a : Int) (k : Nat) : Int := a * 2 ^ k

/-- `wrap16(v)`: the modular reduction into [-32768, 32767]. -/
def wrap16 (v : Int) : Int := (v + 32768) % 65536 - 32768

/-- `clamp16(v)`: saturation into [-32768, 32767]. -/
def clamp16 (v : Int) : Int := min (max v (-32768)) 32767

/-- `sx4(n)`: a 4-bit code `n` sign-extended into [-8, 7]. -/
def sx4 (n : Int) : Int := (n + 8) % 16 - 8

/-- `a & 0xF = a mod 16`, in 0..15 also for negative `a`. -/
def low4 (a : Int) : Int := a % 16

/-- A sample in [-32768, 32767] as its 16-bit two's-complement pattern (R11, R105). -/
def toSample (v : Int) : Sample := BitVec.ofInt 16 v

end Sys2Proof.Machine
end

