-- ==== Sys2Proof/Syntax.lean ====
section
/-! DEFINITION. The six commands of spec/opcode_table.json as syntax (30_encoding.md R91, R121). -/

namespace Sys2Proof

/-- The CH operand of DEC and ENC: one channel 0..254, or ALL (R90, R93, R121). -/
inductive ChanSel
  | one (c : Nat)
  | all
deriving DecidableEq, Repr

/-- The COUNT operand of DEC and ENC: 1..65535 blocks, or REST, "all remaining" (R90, R121, R233). -/
inductive Count
  | rest
  | blocks (n : Nat)
deriving DecidableEq, Repr

/-- A command of the core (R91), one constructor per row of the opcode table. -/
inductive Instr
  | nop
  | chreset
  | deintl
  | intl
  | dec (sel : ChanSel) (cnt : Count)
  | enc (sel : ChanSel) (cnt : Count)
deriving DecidableEq, Repr

end Sys2Proof
end

