-- ==== Sys2Proof/WellFormed.lean ====
section
/-! DEFINITION. Which terms of the syntax a command word can spell (30_encoding.md R90, R121). -/

namespace Sys2Proof

/-- A single channel index is 0..254: 0xFF stands for ALL (R90, R93). -/
def ChanSel.wf : ChanSel → Bool
  | .one c => decide (c ≤ 254)
  | .all => true

/-- A block count is 1..65535: 0 stands for REST (R90, R121). -/
def Count.wf : Count → Bool
  | .rest => true
  | .blocks n => decide (1 ≤ n) && decide (n ≤ 65535)

/-- The operands of a command are in the ranges its word can hold. -/
def Instr.wf : Instr → Bool
  | .nop => true
  | .chreset => true
  | .deintl => true
  | .intl => true
  | .dec sel cnt => sel.wf && cnt.wf
  | .enc sel cnt => sel.wf && cnt.wf

end Sys2Proof
end

