-- ==== Sys2Proof/Decode.lean ====
section
/-! DEFINITION. The command word: decoder, encoder and the opcode table's rows (30_encoding.md R90 to R95). -/

namespace Sys2Proof

/-- Why a word is illegal (R92). All three end as ILLEGAL_CMD. -/
inductive DecodeError
  /-- OP is 0x6..0xF. -/
  | reservedOp
  /-- RSV is not 0. -/
  | reservedBits
  /-- CH or COUNT is not 0 on NOP, CHRESET, DEINTL or INTL. -/
  | operandBits
deriving DecidableEq, Repr

/-- Field OP, `w[3:0]` (R90, R94). -/
def opField (w : Word) : BitVec 4 := w.extractLsb' 0 4

/-- Field RSV, `w[7:4]` (R90). -/
def rsvField (w : Word) : BitVec 4 := w.extractLsb' 4 4

/-- Field CH, `w[15:8]` (R90, R94). -/
def chField (w : Word) : BitVec 8 := w.extractLsb' 8 8

/-- Field COUNT, `w[31:16]` (R90, R94). -/
def countField (w : Word) : BitVec 16 := w.extractLsb' 16 16

/-- The CH field as an operand: 0xFF is every channel, any other value is that channel (R93). -/
def chanOfField (ch : BitVec 8) : ChanSel := if ch = 0xFF#8 then .all else .one ch.toNat

/-- The COUNT field as an operand: 0 is "all remaining" (R90, R233). -/
def countOfField (n : BitVec 16) : Count := if n = 0#16 then .rest else .blocks n.toNat

/-- A command without operands: its CH and COUNT must be 0 (R91, R92). -/
def withoutOperands (i : Instr) (w : Word) : Except DecodeError Instr :=
  if chField w = 0#8 ∧ countField w = 0#16 then .ok i else .error .operandBits

/-- The decoder: every 32-bit word is exactly one of the six commands or illegal (R91, R92). -/
def decode (w : Word) : Except DecodeError Instr :=
  if rsvField w ≠ 0#4 then .error .reservedBits
  else match (opField w).toNat with
    | 0 => withoutOperands .nop w
    | 1 => withoutOperands .chreset w
    | 2 => withoutOperands .deintl w
    | 3 => withoutOperands .intl w
    | 4 => .ok (.dec (chanOfField (chField w)) (countOfField (countField w)))
    | 5 => .ok (.enc (chanOfField (chField w)) (countOfField (countField w)))
    | _ => .error .reservedOp

/-- The CH field that spells a channel operand (R121). -/
def ChanSel.field : ChanSel → BitVec 8
  | .one c => BitVec.ofNat 8 c
  | .all => 0xFF#8

/-- The COUNT field that spells a count operand (R121). -/
def Count.field : Count → BitVec 16
  | .rest => 0#16
  | .blocks n => BitVec.ofNat 16 n

/-- A command word from its fields COUNT, CH and OP, with RSV 0 (R90: the highest bits first). -/
def commandWord (count : BitVec 16) (ch : BitVec 8) (op : BitVec 4) : Word := count ++ ch ++ 0#4 ++ op

/-- The encoder (R91): the word that spells a command. -/
def encode : Instr → Word
  | .nop => commandWord 0#16 0#8 0x0#4
  | .chreset => commandWord 0#16 0#8 0x1#4
  | .deintl => commandWord 0#16 0#8 0x2#4
  | .intl => commandWord 0#16 0#8 0x3#4
  | .dec sel cnt => commandWord cnt.field sel.field 0x4#4
  | .enc sel cnt => commandWord cnt.field sel.field 0x5#4

/-- One row of spec/opcode_table.json: the words `w` with `w AND mask = pattern`. -/
structure OpcodeRow where
  mnemonic : String
  mask : Word
  pattern : Word
deriving DecidableEq, Repr

/-- spec/opcode_table.json, row by row. -/
def opcodeTable : List OpcodeRow :=
  [ { mnemonic := "NOP", mask := 0xFFFFFFFF#32, pattern := 0x00000000#32 },
    { mnemonic := "CHRESET", mask := 0xFFFFFFFF#32, pattern := 0x00000001#32 },
    { mnemonic := "DEINTL", mask := 0xFFFFFFFF#32, pattern := 0x00000002#32 },
    { mnemonic := "INTL", mask := 0xFFFFFFFF#32, pattern := 0x00000003#32 },
    { mnemonic := "DEC", mask := 0x000000FF#32, pattern := 0x00000004#32 },
    { mnemonic := "ENC", mask := 0x000000FF#32, pattern := 0x00000005#32 } ]

/-- A word is one of the row's. -/
def OpcodeRow.hits (r : OpcodeRow) (w : Word) : Bool := (w &&& r.mask) == r.pattern

/-- The row of the table that a command belongs to, by mnemonic. -/
def Instr.mnemonic : Instr → String
  | .nop => "NOP"
  | .chreset => "CHRESET"
  | .deintl => "DEINTL"
  | .intl => "INTL"
  | .dec _ _ => "DEC"
  | .enc _ _ => "ENC"

/-- The instruction the decoder reads from a command whose bits are `w`, numbered as the opcode table numbers them; the bits at
and above `nbits` are 0. A command is one 32-bit word (R90), so there is no byte order to choose. -/
def decodeTableWord (nbits w : Nat) : Option Instr :=
  match decode (BitVec.ofNat 32 (w % 2 ^ nbits)) with
  | .ok i => some i
  | .error _ => none

end Sys2Proof
end

