-- ==== Sys2Proof/Machine/State.lean ====
section
/-! DEFINITION. Everything the spec gives the machine, as plain data (10_state.md R20 to R43; 20_memory.md R60), with the host
agent beside it (00_scope.md R12), the reasons a step can stop, and the state after reset (R43, R290, R291). -/

namespace Sys2Proof.Machine

/-- CFG.KIND (R29). The value 3 is reserved and no CFG write stores it. -/
inductive Kind
  | none
  | adaptive
  | predictive
deriving DecidableEq, Repr

/-- STATUS.ERRCODE (60_exceptions.md R261). The codes 8..15 are never produced. -/
inductive ErrCode
  | ok
  | illegalCmd
  | configError
  | badChannel
  | notReady
  | cursorOverrun
  | invalidBlock
  | adaptiveError
deriving DecidableEq, Repr

/-- The state of one channel slot (R22): HIST0, HIST1, CURSOR and AST. -/
structure Chan where
  hist0 : Sample
  hist1 : Sample
  cursor : Word
  ast : AdState
deriving DecidableEq, Repr

/-- A fresh channel (R43, 44_commands.md R235): history (0, 0), cursor 0, AST = AdInit. -/
def Chan.fresh : Chan := { hist0 := 0#16, hist1 := 0#16, cursor := 0#32, ast := Config.adInit }

/-- The space a host access names (R60). `absent n` is a space the port does not have (R66); CHB is one of these (R39). -/
inductive Space
  | reg
  | bram
  | sram
  | absent (n : Nat)
deriving DecidableEq, Repr

/-- The direction of a host access and, for a write, its value (R60). -/
inductive Dir
  | read
  | write (v : Word)
deriving DecidableEq, Repr

/-- One access of the host port: a space, an address (a byte offset, byte address or word index, by space), a width in bytes,
a direction and a value (R60). DESIGN CHOICE (log 12): an SRAM access of "1 word (16 bits)" has width 2. -/
structure Access where
  space : Space
  addr : Nat
  width : Nat
  dir : Dir
deriving DecidableEq, Repr

/-- One operation of a host program (30_encoding.md R120, R122): a port access, or a WAIT. -/
inductive HostOp
  | access (a : Access)
  | wait
deriving DecidableEq, Repr

/-- The two agents that take steps (00_scope.md R12). -/
inductive Agent
  | host
  | core
deriving DecidableEq, Repr

/-- Why the model stops with a fault (00_scope.md R19, 60_exceptions.md R268). Every one is raised by a host access or by a DEC
or ENC that interprets an unwritten cell, and every one is SAFE: the spec itself says that the model faults there. -/
inductive Fault
  /-- Host port: an access other than a STATUS read while BUSY = 1 (R70). Safe. -/
  | busyAccess
  /-- Host port: a REG access that is not 4 bytes wide at a multiple of 4 up to 0xFC (R65). Safe. -/
  | regAccess
  /-- Host port: a BRAM or SRAM access of a width its space does not have (R60, R66). Safe. -/
  | badWidth
  /-- Host port: a space the port does not have (R66). Safe. -/
  | badSpace
  /-- Host port: a BRAM access whose address is no multiple of its width (R63). Safe. -/
  | bramMisaligned
  /-- Host port: a BRAM access that ends beyond BRAM_SIZE (R63). Safe. -/
  | bramRange
  /-- Host port: an SRAM index at or above SRAM_WORDS (R64). Safe. -/
  | sramRange
  /-- Host port: a read of an unwritten BRAM byte (R68). Safe. -/
  | bramUnwritten
  /-- Host port: a read of an unwritten SRAM word (R68). Safe. -/
  | sramUnwritten
  /-- DEC: block `k` of channel `c` has an unwritten CHB byte (R68). Safe. -/
  | blockUnwritten (c k : Nat)
  /-- ENC: an input sample of block `k` of channel `c` is an unwritten SRAM word (R68). Safe. -/
  | samplesUnwritten (c k : Nat)
deriving DecidableEq, Repr

/-- Why the model has no meaning for an instruction. No arm of `exec` raises it: all six commands are modelled. -/
inductive Refusal
  /-- An instruction without a meaning yet, by its mnemonic. Safe: no state follows. -/
  | notModelled (mnemonic : String)
deriving DecidableEq, Repr

/-- The state of the core (R20) and of the host agent (R12).
`params` is the machine's configuration (R6), which no step changes.
From `latch` to `chSel`: the registers of R26, with LATCH (R42) and CMD as one word, since a read of CMD observes LATCH.
`ch`, `bram`, `chb`, `sram`: R22, R37, R39, R38.
`fault`: the FAULT mark (R19, R20).
From `script` on: the model's own account of the host agent (log 3). -/
structure State where
  /-- NCH_MAX, BRAM_SIZE, SRAM_WORDS (R6). -/
  params : Params
  /-- LATCH, and what a read of CMD returns (R27, R42). -/
  latch : Word
  /-- STATUS.BUSY (R28). -/
  busy : Bool
  /-- STATUS.ERR (R28). -/
  err : Bool
  /-- STATUS.CHV (R28, R40). -/
  chv : Bool
  /-- STATUS.ERRCODE (R28, R261). -/
  errCode : ErrCode
  /-- ERRCH, bits 7..0 (R36). -/
  errCh : Byte
  /-- ERRBLK (R36). -/
  errBlk : Word
  /-- CFG.CHCOUNT (R29). -/
  chCount : Byte
  /-- CFG.KIND (R29). -/
  kind : Kind
  /-- RAWLEN (R30). -/
  rawLen : Word
  /-- CHSEL, bits 7..0 (R33). -/
  chSel : Byte
  /-- The channel slots 0..NCH_MAX-1 (R22). -/
  ch : List Chan
  /-- Block RAM (R37). -/
  bram : Mem 8
  /-- CHB: one byte array per channel of its shape (R39, R40). -/
  chb : List (Mem 8)
  /-- Sample RAM (R38). -/
  sram : Mem 16
  /-- FAULT (R19, R20). -/
  fault : Option Fault
  /-- The operations the host program has still to execute, the next one first (R16, R120). -/
  script : List HostOp
  /-- Who moves at each moment when both agents could, the next choice first (R12, R230). -/
  schedule : List Agent
  /-- The values the host's read accesses returned, the newest first (R60). -/
  reads : List Word
deriving DecidableEq, Repr

/-- The core after reset with given sizes (R43, R290, R291): registers 0, channels fresh, every cell unwritten, no fault, and no
host program. -/
def State.resetOf (p : Params) : State :=
  { params := p
    latch := 0#32
    busy := false
    err := false
    chv := false
    errCode := .ok
    errCh := 0#8
    errBlk := 0#32
    chCount := 0#8
    kind := .none
    rawLen := 0#32
    chSel := 0#8
    ch := List.replicate p.nchMax Chan.fresh
    bram := []
    chb := []
    sram := []
    fault := .none
    script := []
    schedule := []
    reads := [] }

/-- The state after reset. DESIGN CHOICE (log 1): the sizes are those of 95_test_vectors.md. -/
def State.reset : State := State.resetOf Params.ofVectors

end Sys2Proof.Machine
end

