-- ==== Sys2Proof/Machine/Ops.lean ====
section
/-! DEFINITION. The operations over memory and registers that the commands and the port share: reading and writing cells
(20_memory.md R41, R63, R67, R68), the channel slots (10_state.md R22), and the two ways a command completes: success
(60_exceptions.md R263) and error completion (R260, R262), which is this hardware's only exception. -/

namespace Sys2Proof.Machine

/-! ## Cells -/

/-- The canonical form of a memory: its addresses rise strictly. An unwritten cell is not listed, so no entry can equal one. -/
def Mem.wf {w : Nat} : Mem w → Bool
  | [] => true
  | [_] => true
  | p :: q :: m => decide (p.1 < q.1) && Mem.wf (q :: m)

/-- Every listed address is below `n`. -/
def Mem.below {w : Nat} (m : Mem w) (n : Nat) : Bool := m.all (fun p => decide (p.1 < n))

/-- The cell at an address; `none` is an unwritten cell (R41). -/
def Mem.get {w : Nat} : Mem w → Nat → Option (BitVec w)
  | [], _ => none
  | (k, v) :: m, a => if k = a then some v else Mem.get m a

/-- Store a value, which makes the cell written (R41). -/
def Mem.set {w : Nat} : Mem w → Nat → BitVec w → Mem w
  | [], a, v => [(a, v)]
  | (k, u) :: m, a, v =>
    if a < k then (a, v) :: (k, u) :: m
    else if a = k then (a, v) :: m
    else (k, u) :: Mem.set m a v

/-- The `n` cells from address `a` on, or `none` if one of them is unwritten (R68). -/
def Mem.getRange {w : Nat} (m : Mem w) (a : Nat) : (n : Nat) → Option (Vector (BitVec w) n)
  | 0 => some #v[]
  | n + 1 =>
    match Mem.getRange m a n, Mem.get m (a + n) with
    | some vs, some v => some (vs.push v)
    | _, _ => none

/-- Store a list of values at consecutive addresses from `a` on. -/
def Mem.setRange {w : Nat} (m : Mem w) (a : Nat) : List (BitVec w) → Mem w
  | [] => m
  | v :: vs => Mem.setRange (Mem.set m a v) (a + 1) vs

/-- The `n` cells from address `a` on as a memory of their own, addressed from 0. Unwritten cells stay unwritten (R41, R68). -/
def Mem.slice {w : Nat} (m : Mem w) (a n : Nat) : Mem w :=
  (m.filter (fun p => decide (a ≤ p.1) && decide (p.1 < a + n))).map (fun p => (p.1 - a, p.2))

/-- The first `n` cells moved up to start at address `a`. Unwritten cells stay unwritten (R41, R68). -/
def Mem.place {w : Nat} (m : Mem w) (a n : Nat) : Mem w :=
  (m.filter (fun p => decide (p.1 < n))).map (fun p => (p.1 + a, p.2))

/-- The cells at and above address `a`. -/
def Mem.above {w : Nat} (m : Mem w) (a : Nat) : Mem w := m.filter (fun p => decide (a ≤ p.1))

/-! ## Channel slots and channel arrays -/

/-- The state of channel slot `c` (R22). -/
def State.chan (s : State) (c : Nat) : Chan := s.ch.getD c Chan.fresh

/-- Replace the state of channel slot `c`. -/
def State.setChan (s : State) (c : Nat) (x : Chan) : State := { s with ch := s.ch.set c x }

/-- `HIST0[c] <- h0; HIST1[c] <- h1`. The histories a codec yields are in 16-bit range (10_state.md R23). -/
def State.setHist (s : State) (c : Nat) (h : Int × Int) : State :=
  s.setChan c { s.chan c with hist0 := toSample h.1, hist1 := toSample h.2 }

/-- `CURSOR[c] <- k`. -/
def State.setCursor (s : State) (c k : Nat) : State := s.setChan c { s.chan c with cursor := BitVec.ofNat 32 k }

/-- `AST[c] <- a`. -/
def State.setAst (s : State) (c : Nat) (a : AdState) : State := s.setChan c { s.chan c with ast := a }

/-- The history pair of channel `c`, as signed integers (00_scope.md R11). -/
def State.hist (s : State) (c : Nat) : Int × Int := ((s.chan c).hist0.toInt, (s.chan c).hist1.toInt)

/-- The byte array `CHB[c]` (R39). -/
def State.chbOf (s : State) (c : Nat) : Mem 8 := s.chb.getD c []

/-- `CHB[c][a ..] <- b`. -/
def State.writeChb (s : State) (c a : Nat) (b : List Byte) : State :=
  { s with chb := s.chb.set c (Mem.setRange (s.chbOf c) a b) }

/-- `MemWrite_SRAM` of consecutive words from index `a` on (00_scope.md R10). -/
def State.writeSram (s : State) (a : Nat) (xs : List Sample) : State := { s with sram := Mem.setRange s.sram a xs }

/-! ## Completion -/

/-- An error code with its locus (60_exceptions.md R261). -/
structure ErrInfo where
  code : ErrCode
  ch : Byte
  blk : Word
deriving DecidableEq, Repr

/-- An error without a locus: ERRCH = 0, ERRBLK = 0 (R261). -/
def ErrInfo.plain (code : ErrCode) : ErrInfo := { code := code, ch := 0#8, blk := 0#32 }

/-- An error at channel `c` and block or cursor `k` (R261). -/
def ErrInfo.at (code : ErrCode) (c k : Nat) : ErrInfo :=
  { code := code, ch := BitVec.ofNat 8 c, blk := BitVec.ofNat 32 k }

/-- Write the four error fields: ERR, ERRCODE, ERRCH and ERRBLK. -/
def State.reportError (s : State) (e : ErrInfo) : State :=
  { s with err := true, errCode := e.code, errCh := e.ch, errBlk := e.blk }

/-- Clear the four error fields. -/
def State.clearError (s : State) : State := { s with err := false, errCode := .ok, errCh := 0#8, errBlk := 0#32 }

/-- A successful completion (R263): the error fields cleared, BUSY ← 0. -/
def State.complete (s : State) : State := { s.clearError with busy := false }

/-- AN ERROR COMPLETION (R260, R262): the one exception of this hardware. No trap, no saved state, no transfer of control: ERR,
ERRCODE and the locus are written, BUSY ← 0, and nothing else changes. -/
def State.errorCompletion (s : State) (e : ErrInfo) : State := { s.reportError e with busy := false }

/-- A command word that is none of the six commands (30_encoding.md R92; the ILLEGAL_CMD row of R261). -/
def State.illegalCommand (s : State) : State := s.errorCompletion (.plain .illegalCmd)

/-! ## Work of a command that may fail part of the way -/

/-- What the blocks of a DEC or ENC come to, on a working copy of the state (44_commands.md R236, R237, R240). -/
inductive Work
  /-- All done so far; the working copy. -/
  | ok (s : State)
  /-- The first failing block: the command ends as an error completion. -/
  | err (e : ErrInfo)
  /-- An unwritten cell was interpreted (R68). -/
  | fault (f : Fault)
deriving DecidableEq, Repr

/-- Go on with the working copy, or stop at the first error or fault. -/
def Work.andThen : Work → (State → Work) → Work
  | .ok s, f => f s
  | .err e, _ => .err e
  | .fault r, _ => .fault r

/-- Commit the working copy if every block succeeded; otherwise drop it, and complete the ORIGINAL state as an error (R237). -/
def Work.commit (s : State) : Work → Host.Outcome State Fault Refusal
  | .ok t => .next t.complete
  | .err e => .next (s.errorCompletion e)
  | .fault f => .fault f

end Sys2Proof.Machine
end

