-- ==== Sys2Proof/Machine/Flags.lean ====
section
/-! DEFINITION. STATUS, CFG and the derived size registers as words (10_state.md R28, R29, R31). -/

namespace Sys2Proof.Machine

/-- The 4-bit ERRCODE of R261. -/
def ErrCode.bits : ErrCode → BitVec 4
  | .ok => 0#4
  | .illegalCmd => 1#4
  | .configError => 2#4
  | .badChannel => 3#4
  | .notReady => 4#4
  | .cursorOverrun => 5#4
  | .invalidBlock => 6#4
  | .adaptiveError => 7#4

/-- The 2-bit KIND of R29. -/
def Kind.bits : Kind → BitVec 2
  | .none => 0#2
  | .adaptive => 1#2
  | .predictive => 2#2

/-- A KIND field a CFG write may store: 1 or 2 (R29). -/
def Kind.ofBits (b : BitVec 2) : Option Kind :=
  if b = 1#2 then Option.some .adaptive else if b = 2#2 then Option.some .predictive else Option.none

/-- The STATUS register (R28): ERRCODE in bits 7..4, CHV, ERR and BUSY in bits 2, 1 and 0, the rest 0. -/
def State.statusWord (s : State) : Word :=
  0#24 ++ s.errCode.bits ++ 0#1 ++ BitVec.ofBool s.chv ++ BitVec.ofBool s.err ++ BitVec.ofBool s.busy

/-- The CFG register (R29): KIND in bits 9..8, CHCOUNT in bits 7..0, the rest 0. -/
def State.cfgWord (s : State) : Word := 0#22 ++ s.kind.bits ++ s.chCount

/-- `C`, the channel count (R29). -/
def State.nch (s : State) : Nat := s.chCount.toNat

/-- `L`, the post-header length in bytes (R30). -/
def State.len (s : State) : Nat := s.rawLen.toNat

/-- `S = floor(L / C)` if `C ≥ 1`, else 0 (R31). -/
def State.sliceLen (s : State) : Nat := if 1 ≤ s.nch then s.len / s.nch else 0

/-- `NBLK = floor(S / 16)` (R31). -/
def State.nblk (s : State) : Nat := s.sliceLen / blockBytes

/-- The exact `NSAMP` (R31): `30 * NBLK` for PREDICTIVE, `2 * S` for ADAPTIVE, 0 for NONE. -/
def State.nsamp (s : State) : Nat :=
  match s.kind with
  | .predictive => samplesPerPredictiveBlock * s.nblk
  | .adaptive => 2 * s.sliceLen
  | .none => 0

/-- The word index of sample `j` of channel `c` (20_memory.md R62). -/
def State.sampleIndex (s : State) (c j : Nat) : Nat := c * s.nsamp + j

end Sys2Proof.Machine
end

