-- ==== Sys2Proof/Machine/Operands.lean ====
section
/-! DEFINITION. The operands of DEC and ENC and the checks before their blocks: configuration, channel selection and count
resolution (44_commands.md R231 to R233). -/

namespace Sys2Proof.Machine

/-- "The configuration is usable" for DEC and ENC (R231 check 2). -/
def State.codecUsable (s : State) : Bool :=
  decide (1 ≤ s.nch) && decide (s.kind ≠ .none) && decide (s.len ≤ s.params.bramSize) &&
  decide (s.nch * s.nsamp ≤ s.params.sramWords)

/-- The configuration check of DEINTL and INTL (40_interleaver.md R132 check 2): KIND is not checked. -/
def State.interleaverUsable (s : State) : Bool := decide (1 ≤ s.nch) && decide (s.len ≤ s.params.bramSize)

/-- Channel selection (R232): ALL is 0..C-1 in ascending order; a single channel must be below C. -/
def State.selectChannels (s : State) : ChanSel → Except ErrInfo (List Nat)
  | .all => .ok (List.range s.nch)
  | .one c => if c < s.nch then .ok [c] else .error (.at .badChannel c 0)

/-- The block count `n_c` of channel `c`, or CURSOR_OVERRUN (R233). -/
def State.resolveCount (s : State) (cnt : Count) (c : Nat) : Except ErrInfo Nat :=
  let cur := (s.chan c).cursor.toNat
  if s.nblk < cur then .error (.at .cursorOverrun c cur)
  else
    let n := match cnt with
      | .rest => s.nblk - cur
      | .blocks k => k
    if s.nblk < cur + n then .error (.at .cursorOverrun c cur) else .ok n

/-- The counts of the selected channels, each with its channel; the first channel that fails decides the error (R233). -/
def State.resolveCounts (s : State) (cnt : Count) : List Nat → Except ErrInfo (List (Nat × Nat))
  | [] => .ok []
  | c :: cs =>
    match s.resolveCount cnt c with
    | .error e => .error e
    | .ok n =>
      match s.resolveCounts cnt cs with
      | .error e => .error e
      | .ok plan => .ok ((c, n) :: plan)

/-- The checks common to DEC and ENC after the word's own legality, in their order, and the channels and counts they yield
(R231): CONFIG_ERROR, BAD_CHANNEL, NOT_READY, CURSOR_OVERRUN. -/
def State.codecPlan (s : State) (sel : ChanSel) (cnt : Count) : Except ErrInfo (List (Nat × Nat)) :=
  if s.codecUsable then
    match s.selectChannels sel with
    | .error e => .error e
    | .ok cs => if s.chv then s.resolveCounts cnt cs else .error (.plain .notReady)
  else .error (.plain .configError)

end Sys2Proof.Machine
end

