-- ==== Sys2Proof/Machine/Predictive.lean ====
section
/-! DEFINITION. The Procyon predictive codec, block by block: `PDecodeBlock` (41_predictive_decode.md R150 to R159) and
`PEncodeBlock` (42_predictive_encode.md R180 to R191), over exact integers (00_scope.md R7). The block format is
30_encoding.md R100 to R103. -/

namespace Sys2Proof.Machine

/-- The coefficient table COEF[0..4] (R150); `none` for an index outside it. -/
def coefficients : Nat → Option (Int × Int)
  | 0 => some (0, 0)
  | 1 => some (60, 0)
  | 2 => some (115, -52)
  | 3 => some (98, -55)
  | 4 => some (122, -60)
  | _ => none

/-- Undo or apply the byte bias: every byte of a block is stored XOR 0x80 (R100). -/
def biased (b : Byte) : Byte := b ^^^ 0x80#8

/-- Nibble `i` of a block: in byte `floor(i / 2)`, the low nibble when `i` is even and the high one when `i` is odd (R100). -/
def nibble (b : Vector Byte 16) (i : Nat) : BitVec 4 :=
  let v := biased (b[i / 2]?.getD 0#8)
  if i % 2 = 0 then v.extractLsb' 0 4 else v.extractLsb' 4 4

/-- Code `i` of a block, in [-8, 7] (R103, R154). -/
def codeAt (b : Vector Byte 16) (i : Nat) : Int := sx4 (nibble b i).toNat

/-- The header byte with its bias undone (R101). -/
def headerOf (b : Vector Byte 16) : Byte := biased b[15]

/-- `scale = hdr[3:0]` (R101). -/
def scaleOf (b : Vector Byte 16) : Nat := ((headerOf b).extractLsb' 0 4).toNat

/-- `coef_index = hdr[7:4]` (R101). -/
def coefIndexOf (b : Vector Byte 16) : Nat := ((headerOf b).extractLsb' 4 4).toNat

/-- The prediction from a history `(h0, h1)` (R153, R181). -/
def predict (c1 c2 : Int) (h : Int × Int) : Int := asr (h.1 * c1 + h.2 * c2 + 32) 6

/-- The reconstruction from a prediction and a code (R154). -/
def reconstruct (pred code : Int) (scale : Nat) : Int := pred + shl code (6 + scale)

/-- The history after a reconstruction (R155). -/
def pushHistory (h : Int × Int) (recon : Int) : Int × Int := (wrap16 recon, wrap16 h.1)

/-- `Q(r)`, the PCM output of a reconstruction (R157; 90_conflicts.md C1). -/
def quantize (r : Int) : Int := shl (asr (clamp16 (asr (r + 32) 6)) 6) 6

/-- Decode a list of codes: the outputs, and the history after the last (R153 to R158). -/
def decodeCodes (c1 c2 : Int) (scale : Nat) (h : Int × Int) : List Int → List Int × (Int × Int)
  | [] => ([], h)
  | code :: codes =>
    let recon := reconstruct (predict c1 c2 h) code scale
    let r := decodeCodes c1 c2 scale (pushHistory h recon) codes
    (quantize recon :: r.1, r.2)

/-- `PDecodeBlock` (R159): the 30 outputs and the final history, or `none` for InvalidBlock, when coef_index > 4 (R152). -/
def pDecodeBlock (h : Int × Int) (b : Vector Byte 16) : Option (List Int × (Int × Int)) :=
  match coefficients (coefIndexOf b) with
  | none => none
  | some (c1, c2) =>
    some (decodeCodes c1 c2 (scaleOf b) h ((List.range samplesPerPredictiveBlock).map (codeAt b)))

/-- What the encoder gets for one sample: its code, the decoder's output for that code, and the history after it (R183). -/
structure EncodedSample where
  code : Int
  out : Int
  hist : Int × Int
deriving DecidableEq, Repr

/-- `EncodeSample` (R181 to R183). -/
def encodeSample (x : Int) (h : Int × Int) (c1 c2 : Int) (scale : Nat) : EncodedSample :=
  let pred := predict c1 c2 h
  let raw := shl x 6 - pred
  let scaled := asr raw (scale + 6)
  let code := sx4 (low4 scaled)
  let recon := reconstruct pred code scale
  { code := code, out := quantize recon, hist := pushHistory h recon }

/-- A trial of one candidate: its coefficient index and scale, and the codes, outputs, total error and history so far (R187). -/
structure Trial where
  ci : Nat
  sc : Nat
  codes : List Int
  outs : List Int
  total : Nat
  hist : Int × Int
deriving DecidableEq, Repr

/-- A trial before its first sample: every candidate starts from the snapshot (R186), with total 0 (R187). -/
def Trial.start (ci sc : Nat) (snapshot : Int × Int) : Trial :=
  { ci := ci, sc := sc, codes := [], outs := [], total := 0, hist := snapshot }

/-- Add one sample to a trial; its error is `|x - out|` (R184, R187). -/
def Trial.add (t : Trial) (x : Int) (r : EncodedSample) : Trial :=
  { t with codes := t.codes ++ [r.code], outs := t.outs ++ [r.out], total := t.total + (x - r.out).natAbs, hist := r.hist }

/-- The trial's running total is strictly above the best total, if a best candidate exists (R187). -/
def Trial.pruned (t : Trial) (best : Option Trial) : Bool :=
  match best with
  | none => false
  | some b => decide (b.total < t.total)

/-- Run a trial over the samples, or `none` as soon as it is pruned (R187). -/
def Trial.run (c1 c2 : Int) (best : Option Trial) (t : Trial) : List Int → Option Trial
  | [] => some t
  | x :: xs =>
    let t' := t.add x (encodeSample x t.hist c1 c2 t.sc)
    if t'.pruned best then none else Trial.run c1 c2 best t' xs

/-- One candidate `(ci, sc)` from the snapshot; a coefficient index outside the table is no candidate. -/
def tryCandidate (snapshot : Int × Int) (xs : List Int) (best : Option Trial) (cand : Nat × Nat) : Option Trial :=
  match coefficients cand.1 with
  | none => none
  | some (c1, c2) => Trial.run c1 c2 best (Trial.start cand.1 cand.2 snapshot) xs

/-- The 60 candidates: coefficient index outer, scale inner, both ascending (R185). -/
def candidates : List (Nat × Nat) := (List.range 5).flatMap (fun ci => (List.range 12).map (fun sc => (ci, sc)))

/-- The better of the best so far and a completed trial: strictly less wins, so that the earlier of equals stays (R188). -/
def better (best : Option Trial) (t : Trial) : Trial :=
  match best with
  | none => t
  | some b => if t.total < b.total then t else b

/-- The search over a list of candidates (R187, R188): a pruned trial is dropped, a total of 0 stops the search. -/
def searchFrom (snapshot : Int × Int) (xs : List Int) (best : Option Trial) : List (Nat × Nat) → Option Trial
  | [] => best
  | cand :: cands =>
    match tryCandidate snapshot xs best cand with
    | none => searchFrom snapshot xs best cands
    | some t => if t.total = 0 then some (better best t) else searchFrom snapshot xs (some (better best t)) cands

/-- Fewer than 30 samples are extended with zeros (R180). -/
def padded (xs : List Int) : List Int := xs ++ List.replicate (samplesPerPredictiveBlock - xs.length) 0

/-- The winning trial of the search (R185 to R190). The search always has a winner (R193), so the value after `getD` is never
used. -/
def winner (snapshot : Int × Int) (xs : List Int) : Trial :=
  (searchFrom snapshot (padded xs) none candidates).getD (Trial.start 0 0 snapshot)

/-- The nibble of a code, `code & 0xF` (R103, R189). -/
def codeNibble (code : Int) : BitVec 4 := BitVec.ofInt 4 code

/-- The output block of a trial (R189): two codes a byte, the even one in the low nibble, and the header in byte 15. -/
def packBlock (t : Trial) : Vector Byte 16 :=
  (Vector.ofFn (n := 15) (fun j =>
    biased (codeNibble (t.codes.getD (2 * j.val + 1) 0) ++ codeNibble (t.codes.getD (2 * j.val) 0)))).push
    (biased (BitVec.ofNat 4 t.ci ++ BitVec.ofNat 4 t.sc))

/-- What `PEncodeBlock` yields (R190): the block, the committed state, the winner's total and its outputs. -/
structure EncodedBlock where
  block : Vector Byte 16
  hist : Int × Int
  total : Nat
  outs : List Int
deriving DecidableEq, Repr

/-- `PEncodeBlock` (R191). It never fails (R193). -/
def pEncodeBlock (h : Int × Int) (xs : List Int) : EncodedBlock :=
  let t := winner h xs
  { block := packBlock t, hist := t.hist, total := t.total, outs := t.outs }

end Sys2Proof.Machine
end

