-- ==== Sys2Proof/Machine/Codec.lean ====
section
/-! DEFINITION. DEC and ENC over the blocks of the selected channels (44_commands.md R236 to R240; 43_adaptive.md R210 to R218).
Both work on a copy and commit it only if every block succeeds (R237). -/

namespace Sys2Proof.Machine

/-- Decode block `k` of channel `c` (R236): from CHB into SRAM, with the channel's history or adaptive state moved on. -/
def decBlock (c k : Nat) (s : State) : Work :=
  match Mem.getRange (s.chbOf c) (16 * k) 16 with
  | none => .fault (.blockUnwritten c k)
  | some blk =>
    if s.kind = .predictive then
      match pDecodeBlock (s.hist c) blk with
      | none => .err (.at .invalidBlock c k)
      | some (out, h) => .ok ((s.setHist c h).writeSram (s.sampleIndex c (30 * k)) (out.map toSample))
    else
      match Config.adDecode (s.chan c).ast blk with
      | none => .err (.at .adaptiveError c k)
      | some (out, a) => .ok ((s.setAst c a).writeSram (s.sampleIndex c (Config.spbA * k)) out.toList)

/-- Encode block `k` of channel `c` (R240): from SRAM into CHB, with the channel's history or adaptive state moved on. -/
def encBlock (c k : Nat) (s : State) : Work :=
  if s.kind = .predictive then
    match Mem.getRange s.sram (s.sampleIndex c (30 * k)) 30 with
    | none => .fault (.samplesUnwritten c k)
    | some x =>
      let r := pEncodeBlock (s.hist c) (x.toList.map (fun v => v.toInt))
      .ok ((s.setHist c r.hist).writeChb c (16 * k) r.block.toList)
  else
    match Mem.getRange s.sram (s.sampleIndex c (Config.spbA * k)) Config.spbA with
    | none => .fault (.samplesUnwritten c k)
    | some x =>
      match Config.adEncode (s.chan c).ast x with
      | none => .err (.at .adaptiveError c k)
      | some (b, a) => .ok ((s.setAst c a).writeChb c (16 * k) b.toList)

/-- Apply a block operation to `n` consecutive blocks from block `k` on. -/
def forBlocks (f : Nat → State → Work) : (n k : Nat) → State → Work
  | 0, _, s => .ok s
  | n + 1, k, s => (f k s).andThen (forBlocks f n (k + 1))

/-- The blocks of one channel from its cursor on, and then its cursor: `CURSOR[c] <- CURSOR[c] + n_c`. -/
def forChannel (f : Nat → Nat → State → Work) (c n : Nat) (s : State) : Work :=
  let k := (s.chan c).cursor.toNat
  (forBlocks (f c) n k s).andThen (fun t => .ok (t.setCursor c (k + n)))

/-- The planned channels in ascending order. -/
def forChannels (f : Nat → Nat → State → Work) : List (Nat × Nat) → State → Work
  | [], s => .ok s
  | (c, n) :: plan, s => (forChannel f c n s).andThen (forChannels f plan)

/-- A codec command (R231, R236, R240): the checks and the plan, then the blocks, committed as a whole or not at all (R237). -/
def codecCommand (f : Nat → Nat → State → Work) (sel : ChanSel) (cnt : Count) (s : State) :
    Host.Outcome State Fault Refusal :=
  match s.codecPlan sel cnt with
  | .error e => .next (s.errorCompletion e)
  | .ok plan => (forChannels f plan s).commit s

/-- DEC (R236). -/
def execDec (sel : ChanSel) (cnt : Count) (s : State) : Host.Outcome State Fault Refusal := codecCommand decBlock sel cnt s

/-- ENC (R240). -/
def execEnc (sel : ChanSel) (cnt : Count) (s : State) : Host.Outcome State Fault Refusal := codecCommand encBlock sel cnt s

end Sys2Proof.Machine
end

