-- ==== Sys2Proof/Machine/Control.lean ====
section
/-! DEFINITION. The control commands NOP and CHRESET (44_commands.md R234, R235). -/

namespace Sys2Proof.Machine

/-- NOP (R234): nothing but the status, which it clears. -/
def execNop (s : State) : Host.Outcome State Fault Refusal := .next s.complete

/-- CHRESET (R235): every slot 0..NCH_MAX-1 becomes fresh, those at or above CHCOUNT too. -/
def execChreset (s : State) : Host.Outcome State Fault Refusal :=
  .next { s with ch := List.replicate s.params.nchMax Chan.fresh }.complete

end Sys2Proof.Machine
end

