-- ==== Sys2Proof/Machine/Interleaver.lean ====
section
/-! DEFINITION. The block interleaver: DEINTL and INTL (40_interleaver.md R130 to R134). -/

namespace Sys2Proof.Machine

/-- The channel arrays of a BRAM image: `CHB[c][j] = BRAM[c*S + j]` for `c < n` and `j < len`, unwritten cells staying
unwritten (R133). The store then has exactly this shape (10_state.md R40; log 7). -/
def deinterleave (bram : Mem 8) (n len : Nat) : List (Mem 8) :=
  (List.range n).map (fun c => Mem.slice bram (c * len) len)

/-- The BRAM image of channel arrays: `BRAM[c*S + j] = CHB[c][j]` for `c < n` and `j < len`, unwritten cells becoming
unwritten, and every byte from `n * len` on as it was (R134). -/
def interleave (chb : List (Mem 8)) (bram : Mem 8) (n len : Nat) : Mem 8 :=
  (List.range n).flatMap (fun c => Mem.place (chb.getD c []) (c * len) len) ++ Mem.above bram (n * len)

/-- DEINTL (R133): the checks of R132, then CHB is loaded and CHV is set. -/
def execDeintl (s : State) : Host.Outcome State Fault Refusal :=
  if s.interleaverUsable then
    .next { s with chb := deinterleave s.bram s.nch s.sliceLen, chv := true }.complete
  else .next (s.errorCompletion (.plain .configError))

/-- INTL (R134): the checks of R132, then CHB is written back to BRAM in place. -/
def execIntl (s : State) : Host.Outcome State Fault Refusal :=
  if s.interleaverUsable then
    if s.chv then .next { s with bram := interleave s.chb s.bram s.nch s.sliceLen }.complete
    else .next (s.errorCompletion (.plain .notReady))
  else .next (s.errorCompletion (.plain .configError))

end Sys2Proof.Machine
end

