-- ==== Sys2Proof/Machine/Dispatch.lean ====
section
/-! DEFINITION. One arm per command (30_encoding.md R91). -/

namespace Sys2Proof.Machine

def exec (i : Instr) (s : State) : Host.Outcome State Fault Refusal :=
  match i with
  | .nop => Sys2Proof.Machine.execNop s
  | .chreset => Sys2Proof.Machine.execChreset s
  | .deintl => Sys2Proof.Machine.execDeintl s
  | .intl => Sys2Proof.Machine.execIntl s
  | .dec sel cnt => Sys2Proof.Machine.execDec sel cnt s
  | .enc sel cnt => Sys2Proof.Machine.execEnc sel cnt s

end Sys2Proof.Machine
end

