-- ==== Sys2Proof/Machine/HostPort.lean ====
section
/-! DEFINITION. The host port: register, block RAM and sample RAM accesses (20_memory.md R60 to R70; 10_state.md R26 to R36). -/

namespace Sys2Proof.Machine

/-! ## Registers -/

/-- CHSEL selects a slot that exists (R33). -/
def State.windowOpen (s : State) : Bool := decide (s.chSel.toNat < s.params.nchMax)

/-- The slot the window registers show (R33). -/
def State.window (s : State) : Chan := s.chan s.chSel.toNat

/-- A window register reads 0 when CHSEL ≥ NCH_MAX (R33). -/
def State.windowRead (s : State) (v : Word) : Word := if s.windowOpen then v else 0#32

/-- The 32-bit register at a byte offset (R26 to R36); a reserved offset reads 0 (R61). -/
def readReg (s : State) (off : Nat) : Word :=
  match off with
  | 0x00 => s.latch
  | 0x04 => s.statusWord
  | 0x08 => s.errCh.setWidth 32
  | 0x0C => s.errBlk
  | 0x10 => s.cfgWord
  | 0x14 => s.rawLen
  | 0x18 => BitVec.ofNat 32 s.sliceLen
  | 0x1C => BitVec.ofNat 32 s.nblk
  | 0x20 => BitVec.ofNat 32 s.nsamp
  | 0x24 => s.chSel.setWidth 32
  | 0x28 => s.windowRead (s.window.hist0.signExtend 32)
  | 0x2C => s.windowRead (s.window.hist1.signExtend 32)
  | 0x30 => s.windowRead s.window.cursor
  | _ => 0#32

/-- A CMD write (R27): the word is latched and BUSY is set. -/
def writeCmd (s : State) (w : Word) : State := { s with latch := w, busy := true }

/-- A CFG write (R29). Accepted: CHCOUNT and KIND are stored, CHV and the error fields are cleared. Rejected: CFG and CHV stay and
CONFIG_ERROR is reported. -/
def writeCfg (s : State) (w : Word) : State :=
  let c := w.extractLsb' 0 8
  match Kind.ofBits (w.extractLsb' 8 2) with
  | some k =>
    if 1 ≤ c.toNat ∧ c.toNat ≤ s.params.nchMax then { s with chCount := c, kind := k, chv := false }.clearError
    else s.reportError (.plain .configError)
  | none => s.reportError (.plain .configError)

/-- A RAWLEN write (R30): CHV is cleared, the error fields stay. -/
def writeRawLen (s : State) (w : Word) : State := { s with rawLen := w, chv := false }

/-- A write to a window register is ignored when CHSEL ≥ NCH_MAX (R33). -/
def writeWindow (s : State) (x : Chan) : State := if s.windowOpen then s.setChan s.chSel.toNat x else s

/-- Write the register at a byte offset; read-only and reserved offsets ignore it (R26, R61). -/
def writeReg (s : State) (off : Nat) (w : Word) : State :=
  match off with
  | 0x00 => writeCmd s w
  | 0x10 => writeCfg s w
  | 0x14 => writeRawLen s w
  | 0x24 => { s with chSel := w.extractLsb' 0 8 }
  | 0x28 => writeWindow s { s.window with hist0 := w.extractLsb' 0 16 }
  | 0x2C => writeWindow s { s.window with hist1 := w.extractLsb' 0 16 }
  | 0x30 => writeWindow s { s.window with cursor := w }
  | _ => s

/-! ## Accesses -/

/-- The value of a little-endian list of bytes (R63). -/
def littleEndian : List Byte → Nat
  | [] => 0
  | b :: bs => b.toNat + 256 * littleEndian bs

/-- The low `n` bytes of a word, the least significant first: `v[8k+7:8k]` for `k` in 0..n-1 (R63). -/
def bytesOf (n : Nat) (v : Word) : List Byte := (List.range n).map (fun k => v.extractLsb' (8 * k) 8)

/-- A read access completes: its value goes to the host (R60), and it has no other effect (R69). -/
def State.answer (s : State) (v : Word) : State := { s with reads := v :: s.reads }

/-- A REG access (R61, R65). -/
def regAccess (s : State) (addr width : Nat) (dir : Dir) : Host.Outcome State Fault Refusal :=
  if width = 4 ∧ addr % 4 = 0 ∧ addr ≤ 0xFC then
    match dir with
    | .read => .next (s.answer (readReg s addr))
    | .write v => .next (writeReg s addr v)
  else .fault .regAccess

/-- A BRAM access of 1, 2 or 4 bytes (R60, R63, R66, R68). -/
def bramAccess (s : State) (addr width : Nat) (dir : Dir) : Host.Outcome State Fault Refusal :=
  if ¬ (width = 1 ∨ width = 2 ∨ width = 4) then .fault .badWidth
  else if addr % width ≠ 0 then .fault .bramMisaligned
  else if s.params.bramSize < addr + width then .fault .bramRange
  else
    match dir with
    | .read =>
      match Mem.getRange s.bram addr width with
      | some bs => .next (s.answer (BitVec.ofNat 32 (littleEndian bs.toList)))
      | none => .fault .bramUnwritten
    | .write v => .next { s with bram := Mem.setRange s.bram addr (bytesOf width v) }

/-- An SRAM access of one 16-bit word (R60, R64, R66, R68). A read returns the 16-bit pattern. -/
def sramAccess (s : State) (addr width : Nat) (dir : Dir) : Host.Outcome State Fault Refusal :=
  if width ≠ 2 then .fault .badWidth
  else if s.params.sramWords ≤ addr then .fault .sramRange
  else
    match dir with
    | .read =>
      match Mem.get s.sram addr with
      | some v => .next (s.answer (v.setWidth 32))
      | none => .fault .sramUnwritten
    | .write v => .next { s with sram := Mem.set s.sram addr (v.extractLsb' 0 16) }

/-- A read of STATUS, the one access allowed while BUSY = 1 (R70). -/
def Access.isStatusRead (a : Access) : Bool :=
  decide (a.space = .reg) && decide (a.addr = 4) && decide (a.width = 4) && decide (a.dir = .read)

/-- One host access (R60 to R70). -/
def hostAccess (a : Access) (s : State) : Host.Outcome State Fault Refusal :=
  if s.busy && !a.isStatusRead then .fault .busyAccess
  else
    match a.space with
    | .reg => regAccess s a.addr a.width a.dir
    | .bram => bramAccess s a.addr a.width a.dir
    | .sram => sramAccess s a.addr a.width a.dir
    | .absent _ => .fault .badSpace

end Sys2Proof.Machine
end

