-- ==== Sys2Proof/Machine/Sequencer.lean ====
section
/-! DEFINITION. Who moves next: the host agent with its program, or the core sequencer (00_scope.md R12, R16; 44_commands.md
R230; 30_encoding.md R122). -/

namespace Sys2Proof.Machine

/-- The core sequencer's step is enabled exactly when BUSY = 1 (R230). -/
def State.coreEnabled (s : State) : Bool := s.busy

/-- The host's next step is enabled when its program has one left; a WAIT only when BUSY = 0 (R122). -/
def State.hostEnabled (s : State) : Bool :=
  match s.script with
  | [] => false
  | .access _ :: _ => true
  | .wait :: _ => !s.busy

/-- Both agents could move. -/
def State.contended (s : State) : Bool := s.coreEnabled && s.hostEnabled

/-- Who moves next; nobody when no step is enabled (R16). Where both could, the schedule says who; it is finite and the core
moves when it has run out, which is the weak fairness of R230 (log 3, log 4). -/
def State.turn (s : State) : Option Agent :=
  if s.contended then
    match s.schedule with
    | .host :: _ => some .host
    | _ => some .core
  else if s.coreEnabled then some .core
  else if s.hostEnabled then some .host
  else none

/-- The schedule after a step: a choice is used up where there was one to make. -/
def State.afterTurn (s : State) : State := if s.contended then { s with schedule := s.schedule.tail } else s

/-- The host's next step: its access, or the WAIT that BUSY = 0 lets pass (R120, R122). -/
def hostStep (s : State) : Host.Outcome State Fault Refusal :=
  match s.script with
  | [] => .next s
  | .access a :: ops => hostAccess a { s with script := ops }
  | .wait :: ops => .next { s with script := ops }

end Sys2Proof.Machine
end

