-- ==== Sys2Proof/Machine/Step.lean ====
section
/-! DEFINITION. One step of the model: a host step, a core sequencer step, or an idle step (00_scope.md R12, R13, R16, R19;
44_commands.md R230). -/

namespace Sys2Proof.Machine

/-- The core sequencer's step (R230): the command that LATCH decodes to, or ILLEGAL_CMD, as one atomic transition. -/
def coreStep (s : State) : Host.Outcome State Fault Refusal :=
  match decode s.latch with
  | .ok i => exec i s
  | .error _ => .next s.illegalCommand

/-- One step. A faulted state has no further step (R19); when no step is enabled the core idles (log 4). -/
def step (s : State) : Host.Outcome State Fault Refusal :=
  match s.fault with
  | some f => .fault f
  | none =>
    match s.turn with
    | some .core => coreStep s.afterTurn
    | some .host => hostStep s.afterTurn
    | none => .next s

/-- The state a step leaves, with the FAULT mark of R20 set where the step faults (R19; log 5). -/
def advance (s : State) : State :=
  match step s with
  | .next t => t
  | .fault f => { s with fault := some f }
  | .refused _ => s

/-- `s` with the command word `w` (its bits at and above `nbits` zero) in LATCH and BUSY set, as a CMD write leaves them, so that
the very next step is the core sequencer's and runs exactly that word (log 16). -/
def State.withFetchWord (s : State) (nbits w : Nat) : State :=
  { s with latch := BitVec.ofNat 32 (w % 2 ^ nbits), busy := true, schedule := [], fault := none }

end Sys2Proof.Machine
end

