-- ==== Sys2Proof/Machine/Script.lean ====
section
/-! DEFINITION. Host programs: their lines, mnemonics and pseudo-operations (30_encoding.md R120 to R122). -/

namespace Sys2Proof.Machine

/-! ## Lines (R120) -/

/-- `WR32 REG[off], v`. -/
def wrReg (off : Nat) (v : Word) : HostOp := .access { space := .reg, addr := off, width := 4, dir := .write v }

/-- `RD32 REG[off]`. -/
def rdReg (off : Nat) : HostOp := .access { space := .reg, addr := off, width := 4, dir := .read }

/-- `WR8|WR16|WR32 BRAM[a], v`, by width in bytes. -/
def wrBram (width a : Nat) (v : Word) : HostOp := .access { space := .bram, addr := a, width := width, dir := .write v }

/-- `RD8|RD16|RD32 BRAM[a]`, by width in bytes. -/
def rdBram (width a : Nat) : HostOp := .access { space := .bram, addr := a, width := width, dir := .read }

/-- `WRS SRAM[w], v`: a signed decimal is stored as 16-bit two's complement. -/
def wrSram (w : Nat) (v : Int) : HostOp :=
  .access { space := .sram, addr := w, width := 2, dir := .write (BitVec.ofInt 32 v) }

/-- `RDS SRAM[w]`. -/
def rdSram (w : Nat) : HostOp := .access { space := .sram, addr := w, width := 2, dir := .read }

/-! ## Mnemonics (R121) -/

/-- How a channel operand is spelled. -/
def ChanSel.spelling : ChanSel → String
  | .one c => toString c
  | .all => "ALL"

/-- How a count operand is spelled. -/
def Count.spelling : Count → String
  | .rest => "REST"
  | .blocks n => toString n

/-- How a command is spelled; the word it spells is `encode` of it. -/
def Instr.spelling : Instr → String
  | .nop => "NOP"
  | .chreset => "CHRESET"
  | .deintl => "DEINTL"
  | .intl => "INTL"
  | .dec sel cnt => "DEC " ++ ChanSel.spelling sel ++ ", " ++ Count.spelling cnt
  | .enc sel cnt => "ENC " ++ ChanSel.spelling sel ++ ", " ++ Count.spelling cnt

/-! ## Pseudo-operations (R122) -/

/-- `CMD X`. -/
def cmdOp (i : Instr) : List HostOp := [wrReg 0x00 (encode i)]

/-- `RUN X`: `CMD X` and then `WAIT`. -/
def runOp (i : Instr) : List HostOp := cmdOp i ++ [.wait]

/-- `SETCH c`. -/
def setchOp (c : Nat) : List HostOp := [wrReg 0x24 (BitVec.ofNat 32 c)]

/-- `LOADB a, b0 b1 ... bk`. -/
def loadbOp (a : Nat) : List Byte → List HostOp
  | [] => []
  | b :: bs => wrBram 1 a (b.setWidth 32) :: loadbOp (a + 1) bs

/-- `RD8 BRAM[a]; ...; RD8 BRAM[a+n-1]` (R120): the host reads `n` bytes one after the other. -/
def readbOp (a : Nat) : (n : Nat) → List HostOp
  | 0 => []
  | n + 1 => rdBram 1 a :: readbOp (a + 1) n

/-- `LOADS w, s0 ... sk`. -/
def loadsOp (w : Nat) : List Int → List HostOp
  | [] => []
  | x :: xs => wrSram w x :: loadsOp (w + 1) xs

end Sys2Proof.Machine
end

