-- ==== Sys2Proof/Machine/Container.lean ====
section
/-! DEFINITION. The host's side of the contract: the container header, how the host programs the core from it, and how it
writes a stream back (30_encoding.md R110 to R117; 70_reset_and_hazards.md R293). The core reads none of this; these functions
make host programs for it. -/

namespace Sys2Proof.Machine

/-- The sample rate of a stream (R113). It stays with the host. -/
inductive Rate
  | hz32728
  | hz16364
deriving DecidableEq, Repr

/-- The host-level read errors (R114, 60_exceptions.md R266). -/
inductive ContainerError
  | format
  | unsupportedSampleRate
  | unsupportedCoding
  | truncatedStream
deriving DecidableEq, Repr

/-- A stream as the host holds it (R110, R111): the preserved 256 header bytes, the fields read from them, and the block data. -/
structure Stream where
  header : List Byte
  loopFlag : Byte
  channelCount : Byte
  rate : Rate
  kind : Kind
  byteSize : Nat
  loopByteOffset : Nat
  data : List Byte
deriving DecidableEq, Repr

/-- What reading a buffer comes to. `noMeaning`: a buffer that ends before a field that is due, the magic included, or a byte_size
below 0x100, for which the spec gives neither a stream nor an error (DESIGN CHOICE, log 14). -/
inductive ReadResult
  | stream (st : Stream)
  | error (e : ContainerError)
  | noMeaning
deriving DecidableEq, Repr

/-- The byte of a buffer at an offset. -/
def byteAt (buf : List Byte) (off : Nat) : Byte := buf.getD off 0#8

/-- A little-endian 32-bit header field (R110). -/
def le32At (buf : List Byte) (off : Nat) : Nat :=
  littleEndian [byteAt buf off, byteAt buf (off + 1), byteAt buf (off + 2), byteAt buf (off + 3)]

/-- The rate selector of a coding byte, `cb & 0x06` unshifted (R113). -/
def rateOf (cb : Byte) : Option Rate :=
  if cb &&& 0x06#8 = 4#8 then some .hz32728 else if cb &&& 0x06#8 = 2#8 then some .hz16364 else none

/-- The coding kind of a coding byte, `cb & 0xF0` unshifted (R113). -/
def codingOf (cb : Byte) : Option Kind :=
  if cb &&& 0xF0#8 = 0x70#8 then some .adaptive else if cb &&& 0xF0#8 = 0xB0#8 then some .predictive else none

/-- Host `read` (R110 to R114): the checks in the order magic, rate selector, coding kind, length, each made as soon as the buffer
holds the field it needs. `magic` is the fixed 4-byte tag, whose value is not in the source (93_implementation_defined.md I14).
DESIGN CHOICE (log 14): a buffer of fewer than 4 bytes, which cannot hold the magic, has no meaning, and no FormatError; so has one
that ends before the coding byte or before byte_size, once the checks before these have passed. -/
def readContainer (magic buf : List Byte) : ReadResult :=
  if buf.length < 4 then .noMeaning
  else if buf.take 4 ≠ magic then .error .format
  else if buf.length < 0x34 then .noMeaning
  else
    match rateOf (byteAt buf 0x33), codingOf (byteAt buf 0x33) with
    | none, _ => .error .unsupportedSampleRate
    | some _, none => .error .unsupportedCoding
    | some r, some k =>
      let n := le32At buf 0x40
      if buf.length < 0x44 then .noMeaning
      else if buf.length < n then .error .truncatedStream
      else if n < 0x100 then .noMeaning
      else
        .stream
          { header := buf.take 0x100
            loopFlag := byteAt buf 0x31
            channelCount := byteAt buf 0x32
            rate := r
            kind := k
            byteSize := n
            loopByteOffset := le32At buf 0x54
            data := (buf.take n).drop 0x100 }

/-- The length a sample-count formula counts, `floor(n / C)` bytes of one channel, in samples (R115, 10_state.md R31). -/
def samplesIn (k : Kind) (n c : Nat) : Nat :=
  match k with
  | .predictive => n / c / 16 * 30
  | .adaptive => n / c * 2
  | .none => 0

/-- The per-channel sample count of a stream (10_state.md R31, R117). -/
def Stream.sampleCount (st : Stream) : Nat := samplesIn st.kind (st.byteSize - 0x100) st.channelCount.toNat

/-- The loop sample offset (R115), when there is a loop; a loop offset below 256 or beyond the stream, or a stream of no channels,
has none (I16; log 14). -/
def Stream.loopSample (st : Stream) : Option Nat :=
  if st.loopFlag ≠ 0#8 ∧ 0x100 ≤ st.loopByteOffset ∧ st.loopByteOffset ≤ st.byteSize ∧ st.channelCount ≠ 0#8 then
    some (samplesIn st.kind (st.loopByteOffset - 0x100) st.channelCount.toNat)
  else none

/-- The CFG word of a stream (R112). -/
def Stream.cfgWord (st : Stream) : Word := 0#22 ++ st.kind.bits ++ st.channelCount

/-- The host program that programs the core from a stream (R112): CFG, RAWLEN, and the block data into BRAM[0..L-1].
DESIGN CHOICE (log 24): it writes the block data one byte at a time, in ascending order; R112 names no width and no order. -/
def Stream.programCore (st : Stream) : List HostOp :=
  [wrReg 0x10 st.cfgWord, wrReg 0x14 (BitVec.ofNat 32 (st.byteSize - 0x100))] ++ loadbOp 0 st.data

/-- The host program before the first DEC of a stream (70_reset_and_hazards.md R293 steps 1 to 4). -/
def Stream.startUp (st : Stream) : List HostOp := st.programCore ++ runOp .deintl ++ runOp .chreset

/-- The coding byte on host `write`: rate and kind reassembled, bits 0 and 3 of the preserved byte kept (decision D32). -/
def codingByte (old : Byte) (r : Rate) (k : Kind) : Byte :=
  (old &&& 0x09#8) |||
  (match r with
    | .hz32728 => 4#8
    | .hz16364 => 2#8) |||
  (match k with
    | .adaptive => 0x70#8
    | .predictive => 0xB0#8
    | .none => 0#8)

/-- The host program that gets the block data of a stream (R116): INTL, and then the bytes BRAM[0..L-1], with L = byte_size - 0x100.
DESIGN CHOICE (log 24): it reads them one byte at a time. -/
def Stream.gather (st : Stream) : List HostOp := runOp .intl ++ readbOp 0 (st.byteSize - 0x100)

/-- The values of the host's last `n` reads as bytes, in the order in which they were read. -/
def State.lastReads (s : State) (n : Nat) : List Byte := (s.reads.take n).reverse.map (fun v => v.setWidth 8)

/-- What host `write` emits (R116): the preserved header with magic, loop_flag, channel_count and coding byte overwritten in place,
and then the block data. byte_size is not recomputed. -/
def writeContainer (magic : List Byte) (st : Stream) (blockData : List Byte) : List Byte :=
  let h := magic ++ st.header.drop 4
  let h := h.set 0x31 st.loopFlag
  let h := h.set 0x32 st.channelCount
  let h := h.set 0x33 (codingByte (byteAt st.header 0x33) st.rate st.kind)
  h ++ blockData

/-- Host `write` (R116), in the state that the program `st.gather` has left: the block data is what that program read. -/
def Stream.write (magic : List Byte) (st : Stream) (s : State) : List Byte :=
  writeContainer magic st (s.lastReads (st.byteSize - 0x100))

end Sys2Proof.Machine
end

