-- ==== Sys2Proof/Safety.lean ====
section
/-! DEFINITION. The terms in which claims are stated: the invariant of the state, safe and ended runs (00_scope.md R16, R19), when a
DEC or ENC is ready to run (44_commands.md R231 to R233), and the codecs over a run of blocks (R236, R240). -/

namespace Sys2Proof.Machine

/-- What every step keeps: the sizes are legal (R6), every slot exists (R22), CFG holds only what a CFG write accepts (R29),
the memories are in canonical form within their sizes (R37, R38), a valid CHB has the shape (C, S) (R40), and the error fields
agree with each other (R28, R263). -/
structure State.Inv (s : State) : Prop where
  sizes : s.params.legal = true
  slots : s.ch.length = s.params.nchMax
  channels : s.nch ≤ s.params.nchMax
  configured : s.kind = .none ↔ s.chCount = 0#8
  bramForm : Mem.wf s.bram = true
  bramSize : Mem.below s.bram s.params.bramSize = true
  sramForm : Mem.wf s.sram = true
  sramSize : Mem.below s.sram s.params.sramWords = true
  chbForm : ∀ m ∈ s.chb, Mem.wf m = true
  image : s.chv = true → s.interleaverUsable = true ∧ s.chb.length = s.nch ∧ ∀ m ∈ s.chb, Mem.below m s.sliceLen = true
  report : s.err = false ↔ s.errCode = .ok
  locus : s.err = false → s.errCh = 0#8 ∧ s.errBlk = 0#32

/-- A run of `n` steps that meets no fault ("every claim takes 'no fault' as a premise", R19). -/
def SafeRun (n : Nat) (s t : State) : Prop := Sys2Proof.core.run n s = .next t

/-- A run has ended (R16): the host program has executed its last operation and BUSY = 0. -/
def State.ended (s : State) : Prop := s.fault = none ∧ s.script = [] ∧ s.busy = false

/-- The channels a DEC or ENC names (R232). -/
def State.selected (s : State) : ChanSel → List Nat
  | .all => List.range s.nch
  | .one c => [c]

/-- CURSOR[c] as a number (R22). -/
def State.cursorOf (s : State) (c : Nat) : Nat := (s.chan c).cursor.toNat

/-- The number of blocks `n_c` that a count means for channel `c` (R233). -/
def State.countFor (s : State) (cnt : Count) (c : Nat) : Nat :=
  match cnt with
  | .rest => s.nblk - s.cursorOf c
  | .blocks n => n

/-- The block count of channel `c` fits (R233). -/
def State.fits (s : State) (cnt : Count) (c : Nat) : Prop :=
  s.cursorOf c ≤ s.nblk ∧ s.cursorOf c + s.countFor cnt c ≤ s.nblk

/-- Every check of R231 passes: usable configuration, valid channels, a valid CHB, and counts that fit. -/
structure State.CodecReady (s : State) (sel : ChanSel) (cnt : Count) : Prop where
  configured : 1 ≤ s.nch ∧ s.kind ≠ .none
  bramHolds : s.len ≤ s.params.bramSize
  sramHolds : s.nch * s.nsamp ≤ s.params.sramWords
  channelsExist : ∀ c ∈ s.selected sel, c < s.nch
  imageValid : s.chv = true
  countsFit : ∀ c ∈ s.selected sel, s.fits cnt c

/-- `n` consecutive groups of `size` cells from address `a` on, or `none` if one of the cells is unwritten. -/
def rangesAt {w : Nat} (m : Mem w) (size a : Nat) : (n : Nat) → Option (List (Vector (BitVec w) size))
  | 0 => some []
  | n + 1 =>
    match Mem.getRange m a size, rangesAt m size (a + size) n with
    | some v, some vs => some (v :: vs)
    | _, _ => none

/-- The blocks of channel `c` that a DEC with this count decodes, all of them written (R236). -/
def State.blocksToDecode (s : State) (cnt : Count) (c : Nat) : Option (List (Vector Byte 16)) :=
  rangesAt (s.chbOf c) 16 (16 * s.cursorOf c) (s.countFor cnt c)

/-- The input samples of the blocks of channel `c` that a PREDICTIVE ENC with this count encodes, all written (R240). -/
def State.samplesToEncode (s : State) (cnt : Count) (c : Nat) : Option (List (Vector Sample 30)) :=
  rangesAt s.sram 30 (s.sampleIndex c (30 * s.cursorOf c)) (s.countFor cnt c)

/-- The same for an ADAPTIVE ENC (43_adaptive.md R218). -/
def State.adSamplesToEncode (s : State) (cnt : Count) (c : Nat) : Option (List (Vector Sample Config.spbA)) :=
  rangesAt s.sram Config.spbA (s.sampleIndex c (Config.spbA * s.cursorOf c)) (s.countFor cnt c)

/-- `SPB`, the samples of one block (R233). -/
def State.samplesPerBlock (s : State) : Nat := if s.kind = .predictive then 30 else Config.spbA

/-- `PDecodeBlock` over consecutive blocks, each from the history the one before left (R236): all outputs and the last history. -/
def decodeBlocks (h : Int × Int) : List (Vector Byte 16) → Option (List Int × (Int × Int))
  | [] => some ([], h)
  | b :: bs =>
    match pDecodeBlock h b with
    | none => none
    | some (o, h') =>
      match decodeBlocks h' bs with
      | none => none
      | some (os, h'') => some (o ++ os, h'')

/-- `AdDecode` over consecutive blocks (43_adaptive.md R218). -/
def adDecodeBlocks (a : AdState) : List (Vector Byte 16) → Option (List Sample × AdState)
  | [] => some ([], a)
  | b :: bs =>
    match Config.adDecode a b with
    | none => none
    | some (o, a') =>
      match adDecodeBlocks a' bs with
      | none => none
      | some (os, a'') => some (o.toList ++ os, a'')

/-- What `PEncodeBlock` yields over consecutive blocks: all bytes, all outputs of the winners, and the last history. -/
structure EncodedRun where
  bytes : List Byte
  outs : List Int
  hist : Int × Int
deriving DecidableEq, Repr

/-- `PEncodeBlock` over consecutive blocks, each from the committed state of the one before (R240). -/
def encodeBlocks (h : Int × Int) : List (List Int) → EncodedRun
  | [] => { bytes := [], outs := [], hist := h }
  | x :: xs =>
    let e := pEncodeBlock h x
    let r := encodeBlocks e.hist xs
    { bytes := e.block.toList ++ r.bytes, outs := e.outs ++ r.outs, hist := r.hist }

/-- `AdEncode` over consecutive blocks (43_adaptive.md R218). -/
def adEncodeBlocks (a : AdState) : List (Vector Sample Config.spbA) → Option (List Byte × AdState)
  | [] => some ([], a)
  | x :: xs =>
    match Config.adEncode a x with
    | none => none
    | some (b, a') =>
      match adEncodeBlocks a' xs with
      | none => none
      | some (bs, a'') => some (b.toList ++ bs, a'')

/-- The first `j` blocks of channel `c` from its cursor on are written, and each of them decodes (R236). -/
def State.decodesTo (s : State) (c j : Nat) : Prop :=
  ∃ bs, rangesAt (s.chbOf c) 16 (16 * s.cursorOf c) j = some bs ∧
    match s.kind with
    | .predictive => (decodeBlocks (s.hist c) bs).isSome
    | .adaptive => (adDecodeBlocks (s.chan c).ast bs).isSome
    | .none => False

/-- The input samples of the first `j` blocks of channel `c` from its cursor on are written, and no block fails to encode (R240). -/
def State.encodesTo (s : State) (c j : Nat) : Prop :=
  match s.kind with
  | .predictive => ∃ xs, rangesAt s.sram 30 (s.sampleIndex c (30 * s.cursorOf c)) j = some xs
  | .adaptive => ∃ xs, rangesAt s.sram Config.spbA (s.sampleIndex c (Config.spbA * s.cursorOf c)) j = some xs ∧
      (adEncodeBlocks (s.chan c).ast xs).isSome
  | .none => False

/-- The samples of a group of SRAM words, as signed integers. -/
def signedSamples {n : Nat} (x : Vector Sample n) : List Int := x.toList.map (fun v => v.toInt)

/-- Apply a function to the next state of an outcome. -/
def onNext (f : State → State) : Host.Outcome State Fault Refusal → Host.Outcome State Fault Refusal
  | .next t => .next (f t)
  | .fault r => .fault r
  | .refused r => .refused r

/-- Run commands one after the other, each as one sequencer step would. -/
def execAll : List Instr → State → Host.Outcome State Fault Refusal
  | [], s => .next s
  | i :: is, s =>
    match exec i s with
    | .next t => execAll is t
    | .fault f => .fault f
    | .refused r => .refused r

end Sys2Proof.Machine
end

