-- ==== Sys2Proof/Certificates/Slice0/Obligations.lean ====
section
/-! DEFINITION. The statements for the provers, from the numbered rules of spec/. -/

open Sys2Proof Sys2Proof.Machine

/-! ## The command word (30_encoding.md) -/

/-- R90, R91: the encoder and the decoder agree on every well-formed command, with every operand at every value. -/
def Obligations.DecodeOfEncodeIsTheInstruction : Prop :=
  ∀ i : Instr, i.wf = true → decode (encode i) = .ok i

/-- R92: which words are illegal, that any other word spells exactly the command it decodes to, and how an illegal word ends. -/
def Obligations.IllegalWordsAreThoseOfTheRule : Prop :=
  ∀ w : Word,
    ((∃ e, decode w = .error e) ↔
      (6 ≤ (opField w).toNat ∨ rsvField w ≠ 0#4 ∨ ((opField w).toNat ≤ 3 ∧ (chField w ≠ 0#8 ∨ countField w ≠ 0#16)))) ∧
    (∀ i, decode w = .ok i → i.wf = true ∧ encode i = w) ∧
    (∀ s : State, s.latch = w → (∃ e, decode w = .error e) →
      coreStep s = .next { s with busy := false, err := true, errCode := .illegalCmd, errCh := 0#8, errBlk := 0#32 })

/-- opcode_table.json: a word decodes to a command exactly when a row of the table holds it, and then to that row's command. -/
def Obligations.DecoderAgreesWithTheOpcodeTable : Prop :=
  ∀ w : Word,
    (∀ i, decode w = .ok i → ∃ r ∈ opcodeTable, r.hits w = true ∧ r.mnemonic = i.mnemonic) ∧
    (∀ r ∈ opcodeTable, r.hits w = true → ∃ i, decode w = .ok i ∧ i.mnemonic = r.mnemonic)

/-- R95: the example command words. -/
def Obligations.ExampleWordsDecode : Prop :=
  decode 0x00000000#32 = .ok .nop ∧ decode 0x00000001#32 = .ok .chreset ∧
  decode 0x00000002#32 = .ok .deintl ∧ decode 0x00000003#32 = .ok .intl ∧
  decode 0x00010004#32 = .ok (.dec (.one 0) (.blocks 1)) ∧ decode 0x0000FF04#32 = .ok (.dec .all .rest) ∧
  decode 0x00020105#32 = .ok (.enc (.one 1) (.blocks 2)) ∧ decode 0x0000FF05#32 = .ok (.enc .all .rest) ∧
  (∃ e, decode 0x00000010#32 = .error e) ∧ (∃ e, decode 0x00000006#32 = .error e) ∧ (∃ e, decode 0x00010001#32 = .error e)

/-- R103: the code of each nibble, its range, that the encoder's nibble is its inverse, and how a data byte holds two codes. -/
def Obligations.NibblesAndCodesAreInverse : Prop :=
  (∀ n : BitVec 4, -8 ≤ sx4 n.toNat ∧ sx4 n.toNat ≤ 7 ∧ codeNibble (sx4 n.toNat) = n) ∧
  (∀ k : Int, -8 ≤ k → k ≤ 7 → sx4 (codeNibble k).toNat = k) ∧
  (∀ (b : Vector Byte 16) (j : Nat) (lo hi : Int) (_ : j < 15), -8 ≤ lo → lo ≤ 7 → -8 ≤ hi → hi ≤ 7 →
    b[j] = (codeNibble hi ++ codeNibble lo) ^^^ 0x80#8 → codeAt b (2 * j) = lo ∧ codeAt b (2 * j + 1) = hi)

/-! ## Steps, runs and the invariant -/

/-- R230, R122: a step of the core is `exec` of the command in LATCH, or the ILLEGAL_CMD completion where LATCH holds an illegal word.
With the host's program run out or waiting, the state is as it stands; where both agents could move, the schedule says who does,
and the choice is used up (the model's account of the host, log 3). -/
def Obligations.StepRunsTheLatchedCommand : Prop :=
  ∀ s : State, s.fault = none → s.busy = true →
    (∀ i, decode s.latch = .ok i →
      ((s.script = [] ∨ s.script.head? = some .wait) → step s = exec i s) ∧
      (∀ a, s.script.head? = some (.access a) → s.schedule.head? ≠ some .host →
        step s = exec i { s with schedule := s.schedule.tail })) ∧
    ((∃ e, decode s.latch = .error e) →
      ((s.script = [] ∨ s.script.head? = some .wait) → step s = .next (s.errorCompletion (.plain .illegalCmd))) ∧
      (∀ a, s.script.head? = some (.access a) → s.schedule.head? ≠ some .host →
        step s = .next ({ s with schedule := s.schedule.tail }.errorCompletion (.plain .illegalCmd)))) ∧
    (∀ a ops, s.script = .access a :: ops → s.schedule.head? = some .host →
      step s = hostAccess a { s with schedule := s.schedule.tail, script := ops })

/-- R122, R16: with BUSY = 0 only the host moves; a WAIT passes without any other effect, and with no program left nothing
changes (the idle step is the model's choice, log 4). -/
def Obligations.IdleCoreLetsTheHostMove : Prop :=
  ∀ s : State, s.fault = none → s.busy = false →
    (∀ a ops, s.script = .access a :: ops → step s = hostAccess a { s with script := ops }) ∧
    (∀ ops, s.script = .wait :: ops → step s = .next { s with script := ops }) ∧
    (s.script = [] → step s = .next s)

/-- The word that `withFetchWord` places is the one that the very next step runs (log 16). -/
def Obligations.PlacedWordRunsNext : Prop :=
  ∀ (s : State) (w : Word) (i : Instr), decode w = .ok i →
    step (s.withFetchWord 32 w.toNat) =
      exec i { s with latch := w, busy := true, schedule := [], fault := none }

/-- R19: "A faulted state has no further step"; and a step that faults leaves a faulted state. -/
def Obligations.FaultedStateHasNoStep : Prop :=
  ∀ (s : State) (f : Fault),
    (s.fault = some f → step s = .fault f ∧ advance s = s) ∧
    (s.fault = none → step s = .fault f → advance s = { s with fault := some f } ∧ step (advance s) = .fault f)

/-- R230: "a command that has been issued eventually completes": within one step more than the schedule has choices, BUSY is 0
again or the run has met a fault. -/
def Obligations.IssuedCommandCompletesOrFaults : Prop :=
  ∀ s : State, s.fault = none → s.busy = true →
    ∃ k ≤ s.schedule.length + 1,
      (∃ t, Sys2Proof.core.run k s = .next t ∧ t.busy = false) ∨ (∃ f, Sys2Proof.core.run k s = .fault f)

/-- R43: after reset, with any sizes, every register reads its reset value, every slot is fresh, and every cell is unwritten. -/
def Obligations.ResetLeavesTheStatedState : Prop :=
  ∀ p : Params,
    (∀ off, readReg (State.resetOf p) off = 0#32) ∧
    (∀ c < p.nchMax, c < (State.resetOf p).ch.length ∧ ((State.resetOf p).chan c).hist0 = 0#16 ∧
      ((State.resetOf p).chan c).hist1 = 0#16 ∧ ((State.resetOf p).chan c).cursor = 0#32 ∧
      ((State.resetOf p).chan c).ast = Config.adInit) ∧
    (State.resetOf p).latch = 0#32 ∧ (State.resetOf p).busy = false ∧ (State.resetOf p).chv = false ∧
    (State.resetOf p).fault = none ∧
    (∀ a, Mem.get (State.resetOf p).bram a = none ∧ Mem.get (State.resetOf p).sram a = none ∧
      ∀ c, Mem.get ((State.resetOf p).chbOf c) a = none)

/-- The invariant holds after reset, for every legal choice of sizes; the model's reset state is the one with the sizes of
95_test_vectors.md, which are the model's choice (log 1). -/
def Obligations.ResetMeetsTheInvariant : Prop :=
  State.reset = State.resetOf Params.ofVectors ∧ State.reset.Inv ∧ ∀ p : Params, p.legal = true → (State.resetOf p).Inv

/-- Every step keeps the invariant, from every state that has it. -/
def Obligations.StepKeepsTheInvariant : Prop :=
  ∀ s t : State, s.Inv → step s = .next t → t.Inv

/-- No step is ever refused, and none changes the sizes (R6). -/
def Obligations.NoStepIsRefused : Prop :=
  ∀ s : State, (∀ r, step s ≠ .refused r) ∧ (∀ t, step s = .next t → t.params = s.params)

/-! ## Completion (60_exceptions.md) -/

/-- R260, R263: an error completion is precise, and a successful one clears the report; either way BUSY is 0. -/
def Obligations.CompletionsArePrecise : Prop :=
  ∀ (i : Instr) (s t : State), exec i s = .next t →
    t.busy = false ∧
    (t.err = true →
      t = { s with busy := false, err := true, errCode := t.errCode, errCh := t.errCh, errBlk := t.errBlk }) ∧
    (t.err = false → t.errCode = .ok ∧ t.errCh = 0#8 ∧ t.errBlk = 0#32)

/-- R78, R133, R134, R235, R236, R240: each store is written by the named commands only, and no command writes the registers that the
host sets. -/
def Obligations.EachStoreHasItsWriters : Prop :=
  ∀ (i : Instr) (s t : State), exec i s = .next t →
    (t.bram ≠ s.bram → i = .intl) ∧
    (t.sram ≠ s.sram → ∃ sel cnt, i = .dec sel cnt) ∧
    (t.chb ≠ s.chb → i = .deintl ∨ ∃ sel cnt, i = .enc sel cnt) ∧
    (t.chv ≠ s.chv → i = .deintl) ∧
    (t.ch ≠ s.ch → i = .chreset ∨ (∃ sel cnt, i = .dec sel cnt) ∨ ∃ sel cnt, i = .enc sel cnt) ∧
    t.params = s.params ∧ t.latch = s.latch ∧ t.chCount = s.chCount ∧ t.kind = s.kind ∧ t.rawLen = s.rawLen ∧
    t.chSel = s.chSel ∧ t.fault = s.fault ∧ t.script = s.script ∧ t.schedule = s.schedule ∧ t.reads = s.reads

/-- R231: the checks of DEC and ENC in their order, with the error each one ends in. -/
def Obligations.CodecChecksRunInOrder : Prop :=
  ∀ s : State,
    ((∃ e, decode s.latch = .error e) → coreStep s = .next (s.errorCompletion (.plain .illegalCmd))) ∧
    ∀ (sel : ChanSel) (cnt : Count),
      decode s.latch = .ok (.dec sel cnt) ∨ decode s.latch = .ok (.enc sel cnt) →
        (¬ (1 ≤ s.nch ∧ s.kind ≠ .none ∧ s.len ≤ s.params.bramSize ∧ s.nch * s.nsamp ≤ s.params.sramWords) →
          coreStep s = .next (s.errorCompletion (.plain .configError))) ∧
        (1 ≤ s.nch ∧ s.kind ≠ .none ∧ s.len ≤ s.params.bramSize ∧ s.nch * s.nsamp ≤ s.params.sramWords →
          (∀ c, sel = .one c → s.nch ≤ c → coreStep s = .next (s.errorCompletion (.at .badChannel c 0))) ∧
          ((∀ c ∈ s.selected sel, c < s.nch) →
            (s.chv = false → coreStep s = .next (s.errorCompletion (.plain .notReady))) ∧
            (s.chv = true → ∀ before c after, s.selected sel = before ++ c :: after →
              (∀ d ∈ before, s.fits cnt d) → ¬ s.fits cnt c →
                coreStep s = .next (s.errorCompletion (.at .cursorOverrun c (s.cursorOf c))))))

/-- R132: the checks of DEINTL and INTL in their order; KIND is not checked. -/
def Obligations.InterleaverChecksRunInOrder : Prop :=
  ∀ s : State,
    ((∃ e, decode s.latch = .error e) → coreStep s = .next (s.errorCompletion (.plain .illegalCmd))) ∧
    (decode s.latch = .ok .deintl ∨ decode s.latch = .ok .intl → ¬ (1 ≤ s.nch ∧ s.len ≤ s.params.bramSize) →
      coreStep s = .next (s.errorCompletion (.plain .configError))) ∧
    (decode s.latch = .ok .intl → 1 ≤ s.nch ∧ s.len ≤ s.params.bramSize → s.chv = false →
      coreStep s = .next (s.errorCompletion (.plain .notReady))) ∧
    (∀ k : Kind, 1 ≤ s.nch ∧ s.len ≤ s.params.bramSize →
      (∃ t, exec .deintl { s with kind := k } = .next t ∧ t.err = false) ∧
      (s.chv = true → ∃ t, exec .intl { s with kind := k } = .next t ∧ t.err = false))

/-! ## Control commands (44_commands.md) -/

/-- R234: NOP clears the error fields and BUSY and changes nothing else; STATUS then shows CHV alone. -/
def Obligations.NopClearsTheReport : Prop :=
  ∀ s : State,
    exec .nop s = .next { s with busy := false, err := false, errCode := .ok, errCh := 0#8, errBlk := 0#32 } ∧
    (∀ t, exec .nop s = .next t → t.statusWord = if s.chv then 4#32 else 0#32) ∧
    (∀ w, decode w = .ok .nop ↔ w = 0#32) ∧
    (∀ w : Word, opField w = 0#4 → w ≠ 0#32 → s.latch = w →
      coreStep s = .next (s.errorCompletion (.plain .illegalCmd)))

/-- R235: CHRESET makes every slot 0..NCH_MAX-1 fresh and changes nothing else but the status; it has one word, and any other with its
OP is illegal. -/
def Obligations.ChresetMakesEverySlotFresh : Prop :=
  ∀ s : State,
    (∃ t, exec .chreset s = .next t ∧
      (∀ c < s.params.nchMax, (t.chan c).hist0 = 0#16 ∧ (t.chan c).hist1 = 0#16 ∧ (t.chan c).cursor = 0#32 ∧
        (t.chan c).ast = Config.adInit) ∧
      t = { s with ch := t.ch, busy := false, err := false, errCode := .ok, errCh := 0#8, errBlk := 0#32 } ∧
      t.ch.length = s.params.nchMax) ∧
    (∀ w, decode w = .ok .chreset ↔ w = 1#32) ∧
    (∀ w : Word, opField w = 1#4 → w ≠ 1#32 → s.latch = w →
      coreStep s = .next (s.errorCompletion (.plain .illegalCmd)))

/-! ## The interleaver (40_interleaver.md) -/

/-- R133: DEINTL copies BRAM into CHB slice by slice, unwritten cells staying unwritten, sets CHV, and changes nothing else but the
status; an unusable configuration is a CONFIG_ERROR. -/
def Obligations.DeintlCopiesEachSlice : Prop :=
  ∀ s : State,
    (1 ≤ s.nch → s.len ≤ s.params.bramSize →
      ∃ t, exec .deintl s = .next t ∧
        (∀ c < s.nch, ∀ j < s.len / s.nch, Mem.get (t.chbOf c) j = Mem.get s.bram (c * (s.len / s.nch) + j)) ∧
        t = { s with chb := t.chb, chv := true, busy := false, err := false, errCode := .ok, errCh := 0#8, errBlk := 0#32 }) ∧
    (¬ (1 ≤ s.nch ∧ s.len ≤ s.params.bramSize) → exec .deintl s = .next (s.errorCompletion (.plain .configError))) ∧
    (∀ w, decode w = .ok .deintl ↔ w = 2#32) ∧
    (∀ w : Word, opField w = 2#4 → w ≠ 2#32 → s.latch = w →
      coreStep s = .next (s.errorCompletion (.plain .illegalCmd)))

/-- R134: INTL writes CHB back into BRAM slice by slice, leaves every byte from C*S on, and changes nothing else but the status; an
unusable configuration is a CONFIG_ERROR, and CHV = 0 is NOT_READY. -/
def Obligations.IntlWritesEachSliceBack : Prop :=
  ∀ s : State,
    (1 ≤ s.nch → s.len ≤ s.params.bramSize → s.chv = true →
      ∃ t, exec .intl s = .next t ∧
        (∀ c < s.nch, ∀ j < s.len / s.nch, Mem.get t.bram (c * (s.len / s.nch) + j) = Mem.get (s.chbOf c) j) ∧
        (∀ a, s.nch * (s.len / s.nch) ≤ a → Mem.get t.bram a = Mem.get s.bram a) ∧
        t = { s with bram := t.bram, busy := false, err := false, errCode := .ok, errCh := 0#8, errBlk := 0#32 }) ∧
    (¬ (1 ≤ s.nch ∧ s.len ≤ s.params.bramSize) → exec .intl s = .next (s.errorCompletion (.plain .configError))) ∧
    (1 ≤ s.nch → s.len ≤ s.params.bramSize → s.chv = false →
      exec .intl s = .next (s.errorCompletion (.plain .notReady))) ∧
    (∀ w, decode w = .ok .intl ↔ w = 3#32) ∧
    (∀ w : Word, opField w = 3#4 → w ≠ 3#32 → s.latch = w →
      coreStep s = .next (s.errorCompletion (.plain .illegalCmd)))

/-- R135, R137: DEINTL, any number of DEC commands, and INTL leave BRAM as it was, both tails included. -/
def Obligations.UnmodifiedStreamRoundTrips : Prop :=
  ∀ (s t u : State) (decs : List Instr), Mem.wf s.bram = true → 1 ≤ s.nch → s.len ≤ s.params.bramSize →
    (∀ i ∈ decs, ∃ sel cnt, i = .dec sel cnt) → exec .deintl s = .next t → execAll decs t = .next u →
      ∃ v, exec .intl u = .next v ∧ v.err = false ∧ v.bram = s.bram

/-- R136: with CHV = 1, INTL and then DEINTL leave every channel array as it was. -/
def Obligations.IntlThenDeintlKeepsChannels : Prop :=
  ∀ s : State, s.Inv → s.chv = true →
    ∃ t u, exec .intl s = .next t ∧ exec .deintl t = .next u ∧ u.err = false ∧ u.chb = s.chb

/-! ## The predictive decoder (41_predictive_decode.md) -/

/-- R152: the header fields, that a block fails exactly when its coefficient index is above 4, and else the pair it selects. -/
def Obligations.DecodeFailsOnBadIndexOnly : Prop :=
  ∀ (h : Int × Int) (b : Vector Byte 16),
    scaleOf b = (b[15] ^^^ 0x80#8).toNat % 16 ∧ coefIndexOf b = (b[15] ^^^ 0x80#8).toNat / 16 ∧
    (pDecodeBlock h b = none ↔ 4 < coefIndexOf b) ∧
    (∀ c1 c2, [((0 : Int), (0 : Int)), (60, 0), (115, -52), (98, -55), (122, -60)][coefIndexOf b]? = some (c1, c2) →
      pDecodeBlock h b = some (decodeCodes c1 c2 (scaleOf b) h ((List.range 30).map (codeAt b))))

/-- R153, R154: the ranges of the prediction and the reconstruction, for every coefficient pair, scale, code and history. -/
def Obligations.PredictionAndReconstructionRanges : Prop :=
  ∀ (ci scale : Nat) (c1 c2 h0 h1 code : Int), coefficients ci = some (c1, c2) → scale ≤ 15 →
    -32768 ≤ h0 → h0 ≤ 32767 → -32768 ≤ h1 → h1 ≤ 32767 → -8 ≤ code → code ≤ 7 →
      -93183 ≤ predict c1 c2 (h0, h1) ∧ predict c1 c2 (h0, h1) ≤ 93182 ∧
      -16870399 ≤ reconstruct (predict c1 c2 (h0, h1)) code scale ∧
      reconstruct (predict c1 c2 (h0, h1)) code scale ≤ 14773246

/-- R105: the outputs of a decoded block are 30 multiples of 64 in [-32768, 32704]. -/
def Obligations.OutputsAreMultiplesOf64 : Prop :=
  ∀ (h h' : Int × Int) (b : Vector Byte 16) (outs : List Int), pDecodeBlock h b = some (outs, h') →
    outs.length = 30 ∧ ∀ o ∈ outs, o % 64 = 0 ∧ -32768 ≤ o ∧ o ≤ 32704

/-- R155, R161: the history after any number of samples is in 16-bit range, and each reduction keeps its value modulo 2^16. -/
def Obligations.HistoryStaysIn16Bits : Prop :=
  (∀ v : Int, -32768 ≤ wrap16 v ∧ wrap16 v ≤ 32767 ∧ (wrap16 v - v) % 65536 = 0) ∧
  (∀ (c1 c2 : Int) (scale : Nat) (h : Int × Int) (codes : List Int),
    -32768 ≤ h.1 → h.1 ≤ 32767 → -32768 ≤ h.2 → h.2 ≤ 32767 →
      -32768 ≤ (decodeCodes c1 c2 scale h codes).2.1 ∧ (decodeCodes c1 c2 scale h codes).2.1 ≤ 32767 ∧
      -32768 ≤ (decodeCodes c1 c2 scale h codes).2.2 ∧ (decodeCodes c1 c2 scale h codes).2.2 ≤ 32767)

/-! ## The predictive encoder (42_predictive_encode.md) -/

/-- R185, R192: the candidates stand in the order of R185, and the pruned search finds the first one whose unpruned total is the
least of all 60. -/
def Obligations.SearchFindsTheEarliestMinimum : Prop :=
  (candidates.length = 60 ∧ ∀ ci < 5, ∀ sc < 12, candidates[12 * ci + sc]? = some (ci, sc)) ∧
  ∀ (h : Int × Int) (xs : List Int),
    ∃ (n : Nat) (cand : Nat × Nat), candidates[n]? = some cand ∧
      tryCandidate h (padded xs) none cand = some (winner h xs) ∧
      ∀ (m : Nat) (other : Nat × Nat), candidates[m]? = some other →
        ∃ t, tryCandidate h (padded xs) none other = some t ∧ (winner h xs).total ≤ t.total ∧
          (m < n → (winner h xs).total < t.total)

/-- R193: the search always has a winner, with a coefficient index up to 4, a scale up to 11 and 30 codes in [-8, 7], and its block
shows them. -/
def Obligations.EncodedBlockIsAlwaysValid : Prop :=
  ∀ (h : Int × Int) (xs : List Int), xs.length ≤ 30 →
    searchFrom h (padded xs) none candidates = some (winner h xs) ∧
    (winner h xs).ci ≤ 4 ∧ (winner h xs).sc ≤ 11 ∧ (winner h xs).codes.length = 30 ∧
    (∀ k ∈ (winner h xs).codes, -8 ≤ k ∧ k ≤ 7) ∧
    coefIndexOf (pEncodeBlock h xs).block = (winner h xs).ci ∧ scaleOf (pEncodeBlock h xs).block = (winner h xs).sc ∧
    (List.range 30).map (codeAt (pEncodeBlock h xs).block) = (winner h xs).codes

/-- R194: decoding an encoded block from the same history gives exactly the encoder's outputs and committed state, and its total
is the sum of the absolute errors. -/
def Obligations.EncodeThenDecodeIsExact : Prop :=
  ∀ (h : Int × Int) (xs : List Int), xs.length ≤ 30 →
    pDecodeBlock h (pEncodeBlock h xs).block = some ((pEncodeBlock h xs).outs, (pEncodeBlock h xs).hist) ∧
    (pEncodeBlock h xs).total = ((padded xs).zipWith (fun x o => (x - o).natAbs) (pEncodeBlock h xs).outs).sum

/-- R162, R195: the zero block decodes to 30 zeros and history (0, 0) from any history, and silence encodes to the zero block from any
history, with total 0 and committed state (0, 0). -/
def Obligations.ZeroBlockIsSilence : Prop :=
  (∀ h : Int × Int, pDecodeBlock h (Vector.replicate 16 0x80#8) = some (List.replicate 30 0, (0, 0))) ∧
  (∀ (h : Int × Int) (n : Nat), n ≤ 30 →
    pEncodeBlock h (List.replicate n 0) =
      { block := Vector.replicate 16 0x80#8, hist := (0, 0), total := 0, outs := List.replicate 30 0 })

/-! ## DEC and ENC (44_commands.md, 43_adaptive.md) -/

/-- R236, PREDICTIVE: DEC completes when its checks pass, its blocks are written and each decodes. It then holds the outputs in SRAM
at their absolute positions, the last history and the moved cursor for each selected channel, and leaves all else. -/
def Obligations.DecDecodesThePlannedBlocks : Prop :=
  ∀ (s : State) (sel : ChanSel) (cnt : Count) (outs : Nat → List Int) (last : Nat → Int × Int),
    s.Inv → s.CodecReady sel cnt → s.kind = .predictive →
    (∀ c ∈ s.selected sel, ∃ bs, s.blocksToDecode cnt c = some bs ∧ decodeBlocks (s.hist c) bs = some (outs c, last c)) →
    ∃ t, exec (.dec sel cnt) s = .next t ∧
      (∀ c ∈ s.selected sel,
        t.chan c = { hist0 := toSample (last c).1, hist1 := toSample (last c).2,
                     cursor := BitVec.ofNat 32 (s.cursorOf c + s.countFor cnt c), ast := (s.chan c).ast } ∧
        ∀ i < 30 * s.countFor cnt c,
          Mem.get t.sram (c * s.nsamp + 30 * s.cursorOf c + i) = ((outs c)[i]?).map toSample) ∧
      (∀ c, c ∉ s.selected sel → t.chan c = s.chan c) ∧
      (∀ a, (∀ c ∈ s.selected sel, a < c * s.nsamp + 30 * s.cursorOf c ∨
          c * s.nsamp + 30 * (s.cursorOf c + s.countFor cnt c) ≤ a) → Mem.get t.sram a = Mem.get s.sram a) ∧
      t = { s with ch := t.ch, sram := t.sram, busy := false, err := false, errCode := .ok, errCh := 0#8, errBlk := 0#32 }

/-- R237, R264: the first failing block, in channel and block order, ends a PREDICTIVE DEC as INVALID_BLOCK at that block. -/
def Obligations.DecStopsAtTheFirstInvalidBlock : Prop :=
  ∀ (s : State) (sel : ChanSel) (cnt : Count) (before after : List Nat) (c j : Nat) (bs : List (Vector Byte 16))
      (b : Vector Byte 16),
    s.Inv → s.CodecReady sel cnt → s.kind = .predictive → s.selected sel = before ++ c :: after →
    (∀ d ∈ before, ∃ ds r, s.blocksToDecode cnt d = some ds ∧ decodeBlocks (s.hist d) ds = some r) →
    j < s.countFor cnt c → rangesAt (s.chbOf c) 16 (16 * s.cursorOf c) j = some bs →
    (decodeBlocks (s.hist c) bs).isSome → Mem.getRange (s.chbOf c) (16 * (s.cursorOf c + j)) 16 = some b →
    4 < coefIndexOf b →
      exec (.dec sel cnt) s = .next (s.errorCompletion (.at .invalidBlock c (s.cursorOf c + j)))

/-- R68: a DEC of either kind that comes to a block with an unwritten byte faults there. That it comes to the blocks in the order of
the pseudocode of R236, and that the fault names the block, is the model's reading (log 8). -/
def Obligations.DecFaultsOnAnUnwrittenBlock : Prop :=
  ∀ (s : State) (sel : ChanSel) (cnt : Count) (before after : List Nat) (c j : Nat),
    s.Inv → s.CodecReady sel cnt → s.selected sel = before ++ c :: after →
    (∀ d ∈ before, s.decodesTo d (s.countFor cnt d)) → j < s.countFor cnt c → s.decodesTo c j →
    (∃ i < 16, Mem.get (s.chbOf c) (16 * (s.cursorOf c + j) + i) = none) →
      exec (.dec sel cnt) s = .fault (.blockUnwritten c (s.cursorOf c + j))

/-- R240, PREDICTIVE: ENC completes when its checks pass and its input samples are written. It then holds the encoder's blocks in
CHB at the cursor positions, the last committed state and the moved cursor for each selected channel, and leaves all else. -/
def Obligations.EncEncodesThePlannedBlocks : Prop :=
  ∀ (s : State) (sel : ChanSel) (cnt : Count) (run : Nat → EncodedRun),
    s.Inv → s.CodecReady sel cnt → s.kind = .predictive →
    (∀ c ∈ s.selected sel, ∃ xs, s.samplesToEncode cnt c = some xs ∧
      encodeBlocks (s.hist c) (xs.map signedSamples) = run c) →
    ∃ t, exec (.enc sel cnt) s = .next t ∧
      (∀ c ∈ s.selected sel,
        t.chan c = { hist0 := toSample (run c).hist.1, hist1 := toSample (run c).hist.2,
                     cursor := BitVec.ofNat 32 (s.cursorOf c + s.countFor cnt c), ast := (s.chan c).ast } ∧
        (∀ i < 16 * s.countFor cnt c, Mem.get (t.chbOf c) (16 * s.cursorOf c + i) = (run c).bytes[i]?) ∧
        (∀ a, a < 16 * s.cursorOf c ∨ 16 * (s.cursorOf c + s.countFor cnt c) ≤ a →
          Mem.get (t.chbOf c) a = Mem.get (s.chbOf c) a)) ∧
      (∀ c, c ∉ s.selected sel → t.chan c = s.chan c ∧ t.chbOf c = s.chbOf c) ∧
      t = { s with ch := t.ch, chb := t.chb, busy := false, err := false, errCode := .ok, errCh := 0#8, errBlk := 0#32 }

/-- R68: an ENC of either kind that comes to a block whose input has an unwritten sample faults there. That it comes to the blocks
in the order of the pseudocode of R240, and that the fault names the block, is the model's reading (log 8). -/
def Obligations.EncFaultsOnUnwrittenSamples : Prop :=
  ∀ (s : State) (sel : ChanSel) (cnt : Count) (before after : List Nat) (c j : Nat),
    s.Inv → s.CodecReady sel cnt → s.selected sel = before ++ c :: after →
    (∀ d ∈ before, s.encodesTo d (s.countFor cnt d)) → j < s.countFor cnt c → s.encodesTo c j →
    (∃ i < s.samplesPerBlock,
      Mem.get s.sram (c * s.nsamp + s.samplesPerBlock * (s.cursorOf c + j) + i) = none) →
      exec (.enc sel cnt) s = .fault (.samplesUnwritten c (s.cursorOf c + j))

/-- R218, R236, ADAPTIVE: DEC completes when its checks pass, its blocks are written and the OPEN decoder fails on none. -/
def Obligations.AdaptiveDecRunsTheOpenDecoder : Prop :=
  ∀ (s : State) (sel : ChanSel) (cnt : Count) (outs : Nat → List Sample) (last : Nat → AdState),
    s.Inv → s.CodecReady sel cnt → s.kind = .adaptive →
    (∀ c ∈ s.selected sel, ∃ bs, s.blocksToDecode cnt c = some bs ∧
      adDecodeBlocks (s.chan c).ast bs = some (outs c, last c)) →
    ∃ t, exec (.dec sel cnt) s = .next t ∧
      (∀ c ∈ s.selected sel,
        t.chan c = { s.chan c with ast := last c, cursor := BitVec.ofNat 32 (s.cursorOf c + s.countFor cnt c) } ∧
        ∀ i < Config.spbA * s.countFor cnt c,
          Mem.get t.sram (c * s.nsamp + Config.spbA * s.cursorOf c + i) = (outs c)[i]?) ∧
      (∀ c, c ∉ s.selected sel → t.chan c = s.chan c) ∧
      (∀ a, (∀ c ∈ s.selected sel, a < c * s.nsamp + Config.spbA * s.cursorOf c ∨
          c * s.nsamp + Config.spbA * (s.cursorOf c + s.countFor cnt c) ≤ a) → Mem.get t.sram a = Mem.get s.sram a) ∧
      t = { s with ch := t.ch, sram := t.sram, busy := false, err := false, errCode := .ok, errCh := 0#8, errBlk := 0#32 }

/-- R218, R240, ADAPTIVE: ENC completes when its checks pass, its input is written and the OPEN encoder fails on none. -/
def Obligations.AdaptiveEncRunsTheOpenEncoder : Prop :=
  ∀ (s : State) (sel : ChanSel) (cnt : Count) (bytes : Nat → List Byte) (last : Nat → AdState),
    s.Inv → s.CodecReady sel cnt → s.kind = .adaptive →
    (∀ c ∈ s.selected sel, ∃ xs, s.adSamplesToEncode cnt c = some xs ∧
      adEncodeBlocks (s.chan c).ast xs = some (bytes c, last c)) →
    ∃ t, exec (.enc sel cnt) s = .next t ∧
      (∀ c ∈ s.selected sel,
        t.chan c = { s.chan c with ast := last c, cursor := BitVec.ofNat 32 (s.cursorOf c + s.countFor cnt c) } ∧
        (∀ i < 16 * s.countFor cnt c, Mem.get (t.chbOf c) (16 * s.cursorOf c + i) = (bytes c)[i]?) ∧
        (∀ a, a < 16 * s.cursorOf c ∨ 16 * (s.cursorOf c + s.countFor cnt c) ≤ a →
          Mem.get (t.chbOf c) a = Mem.get (s.chbOf c) a)) ∧
      (∀ c, c ∉ s.selected sel → t.chan c = s.chan c ∧ t.chbOf c = s.chbOf c) ∧
      t = { s with ch := t.ch, chb := t.chb, busy := false, err := false, errCode := .ok, errCh := 0#8, errBlk := 0#32 }

/-- R214, R237, R264: an ADAPTIVE DEC or ENC whose OPEN codec fails on block `j` of the plan of channel `c`, and on no block before
it, is ADAPTIVE_ERROR at that channel and block and changes nothing else; a command of one block of one channel stores what the
codec answers (R218). -/
def Obligations.AdaptiveBlockSucceedsOrReports : Prop :=
  ∀ (s : State) (sel : ChanSel) (cnt : Count) (before after : List Nat) (c : Nat),
    s.Inv → s.CodecReady sel cnt → s.kind = .adaptive → s.selected sel = before ++ c :: after →
    (∀ (j : Nat) (bs : List (Vector Byte 16)) (outs : List Sample) (a : AdState) (b : Vector Byte 16),
      (∀ d ∈ before, s.decodesTo d (s.countFor cnt d)) → j < s.countFor cnt c →
      rangesAt (s.chbOf c) 16 (16 * s.cursorOf c) j = some bs → adDecodeBlocks (s.chan c).ast bs = some (outs, a) →
      Mem.getRange (s.chbOf c) (16 * (s.cursorOf c + j)) 16 = some b →
        Config.adDecode a b = none →
          exec (.dec sel cnt) s = .next (s.errorCompletion (.at .adaptiveError c (s.cursorOf c + j)))) ∧
    (∀ (j : Nat) (xs : List (Vector Sample Config.spbA)) (bytes : List Byte) (a : AdState) (x : Vector Sample Config.spbA),
      (∀ d ∈ before, s.encodesTo d (s.countFor cnt d)) → j < s.countFor cnt c →
      rangesAt s.sram Config.spbA (c * s.nsamp + Config.spbA * s.cursorOf c) j = some xs →
      adEncodeBlocks (s.chan c).ast xs = some (bytes, a) →
      Mem.getRange s.sram (c * s.nsamp + Config.spbA * (s.cursorOf c + j)) Config.spbA = some x →
        Config.adEncode a x = none →
          exec (.enc sel cnt) s = .next (s.errorCompletion (.at .adaptiveError c (s.cursorOf c + j)))) ∧
    (sel = .one c → s.countFor cnt c = 1 →
      (∀ b, Mem.getRange (s.chbOf c) (16 * s.cursorOf c) 16 = some b →
        exec (.dec (.one c) cnt) s =
          match Config.adDecode (s.chan c).ast b with
          | none => .next (s.errorCompletion (.at .adaptiveError c (s.cursorOf c)))
          | some (out, a) =>
            .next { s with
              ch := s.ch.set c { s.chan c with ast := a, cursor := BitVec.ofNat 32 (s.cursorOf c + 1) }
              sram := Mem.setRange s.sram (c * s.nsamp + Config.spbA * s.cursorOf c) out.toList
              busy := false, err := false, errCode := .ok, errCh := 0#8, errBlk := 0#32 }) ∧
      (∀ x, Mem.getRange s.sram (c * s.nsamp + Config.spbA * s.cursorOf c) Config.spbA = some x →
        exec (.enc (.one c) cnt) s =
          match Config.adEncode (s.chan c).ast x with
          | none => .next (s.errorCompletion (.at .adaptiveError c (s.cursorOf c)))
          | some (b, a) =>
            .next { s with
              ch := s.ch.set c { s.chan c with ast := a, cursor := BitVec.ofNat 32 (s.cursorOf c + 1) }
              chb := s.chb.set c (Mem.setRange (s.chbOf c) (16 * s.cursorOf c) b.toList)
              busy := false, err := false, errCode := .ok, errCh := 0#8, errBlk := 0#32 }))

/-- R25: no command reads or writes the state of a channel it does not name (a DEC or ENC names the channels it selects, CHRESET
every slot, the others none): with any state in such a slot `d` the outcome is the same but for that slot, and the slot keeps it. -/
def Obligations.ChannelsAreIndependent : Prop :=
  ∀ (s : State) (i : Instr) (d : Nat) (x : Chan), i ≠ .chreset →
    (∀ sel cnt, i = .dec sel cnt ∨ i = .enc sel cnt → d ∉ s.selected sel) →
      exec i (s.setChan d x) = onNext (fun t => t.setChan d x) (exec i s) ∧
      (∀ t, exec i s = .next t → t.chan d = s.chan d)

/-- R24, R218: a PREDICTIVE command moves no adaptive state, and an ADAPTIVE one no history. -/
def Obligations.KindDecidesWhichStateMoves : Prop :=
  ∀ (s t : State) (sel : ChanSel) (cnt : Count) (i : Instr), i = .dec sel cnt ∨ i = .enc sel cnt → exec i s = .next t →
    (s.kind = .predictive → ∀ c, (t.chan c).ast = (s.chan c).ast) ∧
    (s.kind = .adaptive → ∀ c, (t.chan c).hist0 = (s.chan c).hist0 ∧ (t.chan c).hist1 = (s.chan c).hist1)

/-- R236, R238: "a second call continues from the previous cursor": DEC of `n` blocks and then of `m` blocks of a channel leave the
same state as one DEC of `n + m` blocks. Where `n`, `m` or `n + m` is not in 1..65535 it speaks of terms that no word spells, for
which `exec` answers by the same rules (the model's choice, log 18). -/
def Obligations.ResumedDecodeContinues : Prop :=
  ∀ (s t u : State) (c n m : Nat), s.Inv → exec (.dec (.one c) (.blocks n)) s = .next t → t.err = false →
    exec (.dec (.one c) (.blocks m)) t = .next u → u.err = false →
      exec (.dec (.one c) (.blocks (n + m))) s = .next u

/-- R241: ENC of `n` blocks, the history and cursor put back, and DEC of `n` blocks leave the encoder's outputs in SRAM and the same
channel state as the ENC. -/
def Obligations.EncThenDecReproduces : Prop :=
  ∀ (s : State) (c n : Nat) (xs : List (Vector Sample 30)), s.Inv → s.CodecReady (.one c) (.blocks n) →
    s.kind = .predictive → s.samplesToEncode (.blocks n) c = some xs →
    ∃ t u, exec (.enc (.one c) (.blocks n)) s = .next t ∧
      exec (.dec (.one c) (.blocks n))
        (t.setChan c { t.chan c with
          hist0 := (s.chan c).hist0, hist1 := (s.chan c).hist1, cursor := (s.chan c).cursor }) = .next u ∧
      u.err = false ∧ u.chan c = t.chan c ∧
      ∀ i < 30 * n, Mem.get u.sram (c * s.nsamp + 30 * s.cursorOf c + i) =
        ((encodeBlocks (s.hist c) (xs.map signedSamples)).outs[i]?).map toSample

/-! ## Registers (10_state.md) -/

/-- R27: a CMD write while BUSY = 0 latches the word and sets BUSY and changes nothing else; a read returns it, and 0 after
reset; the sequencer then runs it; a CMD write while BUSY = 1 is a fault. -/
def Obligations.CmdWriteIssuesACommand : Prop :=
  ∀ (s : State) (w : Word),
    (s.busy = false →
      hostAccess { space := .reg, addr := 0, width := 4, dir := .write w } s = .next { s with latch := w, busy := true }) ∧
    (s.busy = true → ∃ f, hostAccess { space := .reg, addr := 0, width := 4, dir := .write w } s = .fault f) ∧
    readReg s 0 = s.latch ∧ (∀ p, readReg (State.resetOf p) 0 = 0#32) ∧
    (∀ i, decode w = .ok i →
      coreStep { s with latch := w, busy := true } = exec i { s with latch := w, busy := true })

/-- R29: a CFG write is accepted exactly when CHCOUNT is 1..NCH_MAX and KIND is 1 or 2, and what each write does. -/
def Obligations.CfgWriteIsChecked : Prop :=
  ∀ (s : State) (w : Word), s.busy = false →
    (1 ≤ (w.extractLsb' 0 8).toNat ∧ (w.extractLsb' 0 8).toNat ≤ s.params.nchMax ∧
        (w.extractLsb' 8 2 = 1#2 ∨ w.extractLsb' 8 2 = 2#2) →
      hostAccess { space := .reg, addr := 0x10, width := 4, dir := .write w } s =
        .next { s with
          chCount := w.extractLsb' 0 8
          kind := if w.extractLsb' 8 2 = 1#2 then .adaptive else .predictive
          chv := false, err := false, errCode := .ok, errCh := 0#8, errBlk := 0#32 }) ∧
    (¬ (1 ≤ (w.extractLsb' 0 8).toNat ∧ (w.extractLsb' 0 8).toNat ≤ s.params.nchMax ∧
        (w.extractLsb' 8 2 = 1#2 ∨ w.extractLsb' 8 2 = 2#2)) →
      hostAccess { space := .reg, addr := 0x10, width := 4, dir := .write w } s =
        .next { s with err := true, errCode := .configError, errCh := 0#8, errBlk := 0#32 }) ∧
    (∀ t, hostAccess { space := .reg, addr := 0x10, width := 4, dir := .write w } s = .next t → t.err = false →
      readReg t 0x10 = w &&& 0x3FF#32)

/-- R30: RAWLEN takes every value and clears CHV alone; the check against BRAM_SIZE is made when a command runs. -/
def Obligations.RawLenIsCheckedAtUse : Prop :=
  ∀ (s : State) (w : Word),
    (s.busy = false →
      hostAccess { space := .reg, addr := 0x14, width := 4, dir := .write w } s =
        .next { s with rawLen := w, chv := false }) ∧
    readReg s 0x14 = s.rawLen ∧
    (s.params.bramSize < s.rawLen.toNat → ∀ (sel : ChanSel) (cnt : Count) (i : Instr),
      i = .deintl ∨ i = .intl ∨ i = .dec sel cnt ∨ i = .enc sel cnt →
        exec i s = .next (s.errorCompletion (.plain .configError)))

/-- R31: the size registers are these functions of CFG and RAWLEN. -/
def Obligations.SizeRegistersAreDerived : Prop :=
  ∀ s : State,
    (readReg s 0x18).toNat = (if 1 ≤ s.chCount.toNat then s.rawLen.toNat / s.chCount.toNat else 0) ∧
    (readReg s 0x1C).toNat = (readReg s 0x18).toNat / 16 ∧
    (s.kind = .predictive → s.nsamp = 30 * (readReg s 0x1C).toNat) ∧
    (s.kind = .adaptive → s.nsamp = 2 * (readReg s 0x18).toNat) ∧
    (s.kind = .none → s.nsamp = 0) ∧
    (readReg s 0x20).toNat = s.nsamp % 2 ^ 32

/-- R33, R34: CHSEL selects the slot the window shows, and beyond NCH_MAX the window reads 0 and ignores writes; a history register
reads sign-extended and takes bits 15..0 of a write. The cursor register is R35's. -/
def Obligations.WindowShowsTheSelectedSlot : Prop :=
  ∀ (s : State) (w : Word), s.ch.length = s.params.nchMax →
    writeReg s 0x24 w = { s with chSel := w.extractLsb' 0 8 } ∧ readReg s 0x24 = s.chSel.setWidth 32 ∧
    (s.chSel.toNat < s.params.nchMax →
      (readReg s 0x28).toInt = (s.chan s.chSel.toNat).hist0.toInt ∧
      (readReg s 0x2C).toInt = (s.chan s.chSel.toNat).hist1.toInt ∧
      readReg s 0x30 = (s.chan s.chSel.toNat).cursor ∧
      (∀ off c, (writeReg s off w).chan c =
        if c = s.chSel.toNat then
          if off = 0x28 then { s.chan c with hist0 := w.extractLsb' 0 16 }
          else if off = 0x2C then { s.chan c with hist1 := w.extractLsb' 0 16 }
          else if off = 0x30 then { s.chan c with cursor := w }
          else s.chan c
        else s.chan c) ∧
      (∀ off, off = 0x28 ∨ off = 0x2C ∨ off = 0x30 → writeReg s off w = { s with ch := (writeReg s off w).ch })) ∧
    (s.params.nchMax ≤ s.chSel.toNat →
      ∀ off, off = 0x28 ∨ off = 0x2C ∨ off = 0x30 → readReg s off = 0#32 ∧ writeReg s off w = s)

/-- R61: a legal REG access reads or writes the register at its offset; the reserved offsets read 0, and writes to them are
ignored (so are writes to the read-only registers, R26). -/
def Obligations.RegisterAccessesReachTheRegister : Prop :=
  ∀ (s : State) (off : Nat) (w : Word), s.busy = false → off % 4 = 0 → off ≤ 0xFC →
    hostAccess { space := .reg, addr := off, width := 4, dir := .read } s =
      .next { s with reads := readReg s off :: s.reads } ∧
    hostAccess { space := .reg, addr := off, width := 4, dir := .write w } s = .next (writeReg s off w) ∧
    (0x34 ≤ off → readReg s off = 0#32 ∧ writeReg s off w = s) ∧
    (off = 0x04 ∨ off = 0x08 ∨ off = 0x0C ∨ off = 0x18 ∨ off = 0x1C ∨ off = 0x20 → writeReg s off w = s)

/-- R28, R36, R261: the fields of STATUS, with the numbers of the error codes, and the locus registers. -/
def Obligations.StatusShowsItsFields : Prop :=
  ∀ s : State,
    (readReg s 0x04)[0] = s.busy ∧ (readReg s 0x04)[1] = s.err ∧ (readReg s 0x04)[2] = s.chv ∧ (readReg s 0x04)[3] = false ∧
    ((readReg s 0x04).extractLsb' 4 4).toNat = (match s.errCode with
      | .ok => 0
      | .illegalCmd => 1
      | .configError => 2
      | .badChannel => 3
      | .notReady => 4
      | .cursorOverrun => 5
      | .invalidBlock => 6
      | .adaptiveError => 7) ∧
    (readReg s 0x04).extractLsb' 8 24 = 0#24 ∧ readReg s 0x08 = s.errCh.setWidth 32 ∧ readReg s 0x0C = s.errBlk

/-! ## The host port (20_memory.md) -/

/-- R63: BRAM accesses of 1, 2 and 4 bytes are little-endian, need alignment and range, and write their own bytes only. -/
def Obligations.BramAccessIsLittleEndian : Prop :=
  ∀ (s : State) (a n : Nat) (v : Word), s.busy = false → n = 1 ∨ n = 2 ∨ n = 4 →
    (a % n = 0 → a + n ≤ s.params.bramSize →
      (∀ bs : Vector Byte n, (∀ k (h : k < n), Mem.get s.bram (a + k) = some bs[k]) →
        ∃ t, hostAccess { space := .bram, addr := a, width := n, dir := .read } s = .next t ∧
          ∃ r, t = { s with reads := r :: s.reads } ∧ r.toNat = ∑ k : Fin n, bs[k].toNat * 2 ^ (8 * k.val)) ∧
      ∃ t, hostAccess { space := .bram, addr := a, width := n, dir := .write v } s = .next t ∧
        (∀ k < n, Mem.get t.bram (a + k) = some (v.extractLsb' (8 * k) 8)) ∧
        (∀ b, b < a ∨ a + n ≤ b → Mem.get t.bram b = Mem.get s.bram b) ∧ t = { s with bram := t.bram }) ∧
    (¬ (a % n = 0 ∧ a + n ≤ s.params.bramSize) →
      ∀ d, ∃ f, hostAccess { space := .bram, addr := a, width := n, dir := d } s = .fault f)

/-- R64: an SRAM access moves one word; a write stores the low 16 bits, and an index at or above SRAM_WORDS is a fault. -/
def Obligations.SramAccessMovesOneWord : Prop :=
  ∀ (s : State) (a : Nat) (v : Word), s.busy = false →
    (a < s.params.sramWords →
      (∀ x, Mem.get s.sram a = some x →
        ∃ t, hostAccess { space := .sram, addr := a, width := 2, dir := .read } s = .next t ∧
          ∃ r, t = { s with reads := r :: s.reads } ∧ r.toNat = x.toNat) ∧
      ∃ t, hostAccess { space := .sram, addr := a, width := 2, dir := .write v } s = .next t ∧
        Mem.get t.sram a = some (v.extractLsb' 0 16) ∧ (∀ b, b ≠ a → Mem.get t.sram b = Mem.get s.sram b) ∧
        t = { s with sram := t.sram }) ∧
    (s.params.sramWords ≤ a → ∀ d, hostAccess { space := .sram, addr := a, width := 2, dir := d } s = .fault .sramRange)

/-- R65, R66: an access to an absent space, of a width its space does not have, or to no register, is a fault. -/
def Obligations.AccessesOutsideThePortFault : Prop :=
  ∀ (s : State) (a n : Nat) (d : Dir),
    (¬ (n = 4 ∧ a % 4 = 0 ∧ a ≤ 0xFC) → ∃ f, hostAccess { space := .reg, addr := a, width := n, dir := d } s = .fault f) ∧
    (∀ k, ∃ f, hostAccess { space := .absent k, addr := a, width := n, dir := d } s = .fault f) ∧
    (n ≠ 1 → n ≠ 2 → n ≠ 4 → ∃ f, hostAccess { space := .bram, addr := a, width := n, dir := d } s = .fault f) ∧
    (n ≠ 2 → ∃ f, hostAccess { space := .sram, addr := a, width := n, dir := d } s = .fault f)

/-- R70: while BUSY = 1, a STATUS read is answered and every other access is a fault. -/
def Obligations.BusyAllowsOnlyStatusReads : Prop :=
  ∀ (s : State) (a : Access), s.busy = true →
    (a = { space := .reg, addr := 4, width := 4, dir := .read } →
      hostAccess a s = .next { s with reads := s.statusWord :: s.reads }) ∧
    (a ≠ { space := .reg, addr := 4, width := 4, dir := .read } → ∃ f, hostAccess a s = .fault f)

/-- R68: a host read of an unwritten BRAM byte or SRAM word is a fault. While BUSY = 1 the fault is the one named for BUSY, whatever
else the access breaks (the model's choice of the name, log 13). -/
def Obligations.HostReadOfUnwrittenFaults : Prop :=
  ∀ (s : State) (a n : Nat),
    (s.busy = false → (n = 1 ∨ n = 2 ∨ n = 4) → a % n = 0 → a + n ≤ s.params.bramSize →
      (∃ k < n, Mem.get s.bram (a + k) = none) →
        hostAccess { space := .bram, addr := a, width := n, dir := .read } s = .fault .bramUnwritten) ∧
    (s.busy = false → a < s.params.sramWords → Mem.get s.sram a = none →
      hostAccess { space := .sram, addr := a, width := 2, dir := .read } s = .fault .sramUnwritten) ∧
    (s.busy = true → ∀ (x : Access) (f : Fault), hostAccess x s = .fault f → f = .busyAccess)

/-- R69: a read has no side effect; a write to BRAM or SRAM only stores its value, and so leaves CHB and CHV as they are (R296). -/
def Obligations.AccessesHaveOnlyTheirEffect : Prop :=
  ∀ (a : Access) (s t : State), hostAccess a s = .next t →
    (a.dir = .read → t = { s with reads := t.reads } ∧ t.reads.tail = s.reads) ∧
    (a.space = .bram → t = { s with bram := t.bram, reads := t.reads }) ∧
    (a.space = .sram → t = { s with sram := t.sram, reads := t.reads }) ∧
    (a.dir ≠ .read → t.reads = s.reads)

/-! ## The host's contract (30_encoding.md section 3) -/

/-- R113: the rate selector and the coding kind of every coding byte, as masked unshifted values, the errors of the other values, and
that bits 0 and 3 are not read. -/
def Obligations.CodingByteFields : Prop :=
  (∀ cb : Byte,
    (rateOf cb = some .hz32728 ↔ cb &&& 0x06#8 = 4#8) ∧ (rateOf cb = some .hz16364 ↔ cb &&& 0x06#8 = 2#8) ∧
    (codingOf cb = some .adaptive ↔ cb &&& 0xF0#8 = 0x70#8) ∧ (codingOf cb = some .predictive ↔ cb &&& 0xF0#8 = 0xB0#8) ∧
    codingOf cb ≠ some .none ∧ Kind.adaptive.bits = 1#2 ∧ Kind.predictive.bits = 2#2 ∧ rateOf cb = rateOf (cb &&& 0xF6#8) ∧ codingOf cb = codingOf (cb &&& 0xF6#8)) ∧
  (∀ magic buf : List Byte, 0x34 ≤ buf.length → buf.take 4 = magic →
    (rateOf (byteAt buf 0x33) = none → readContainer magic buf = .error .unsupportedSampleRate) ∧
    (rateOf (byteAt buf 0x33) ≠ none → codingOf (byteAt buf 0x33) = none →
      readContainer magic buf = .error .unsupportedCoding))

/-- R112: the host program for a stream, run on an idle core, leaves CFG, RAWLEN and the block data in place, and the core's sample
count is then the container's. That it takes 2 + L steps, one for each byte of the block data, is the model's choice (log 24). -/
def Obligations.HostProgramLoadsTheCore : Prop :=
  ∀ (s : State) (st : Stream) (more : List HostOp), s.fault = none → s.busy = false →
    s.script = st.programCore ++ more → st.kind ≠ .none → 1 ≤ st.channelCount.toNat →
    st.channelCount.toNat ≤ s.params.nchMax → 0x100 ≤ st.byteSize → st.byteSize < 2 ^ 32 →
    st.data.length = st.byteSize - 0x100 → st.data.length ≤ s.params.bramSize →
    ∃ t, SafeRun (2 + st.data.length) s t ∧
      t.chCount = st.channelCount ∧ t.kind = st.kind ∧ t.len = st.byteSize - 0x100 ∧ t.nsamp = st.sampleCount ∧
      (∀ a (h : a < st.data.length), Mem.get t.bram a = some st.data[a]) ∧
      (∀ a, st.data.length ≤ a → Mem.get t.bram a = Mem.get s.bram a) ∧
      t.chv = false ∧ t.err = false ∧ t.ch = s.ch ∧ t.chb = s.chb ∧ t.sram = s.sram ∧ t.script = more

/-- R116: on an idle core the host's program issues INTL and reads BRAM[0..L-1], and what host `write` then emits is the header and
that block data; and writing a stream that was read, with its block data unchanged, gives the container again.
That the program takes 3 + L steps, one for each byte that it reads, is the model's choice (log 24). -/
def Obligations.ContainerWriteUndoesRead : Prop :=
  (∀ (s u : State) (st : Stream) (magic data : List Byte) (more : List HostOp), s.fault = none → s.busy = false →
    s.script = st.gather ++ more → st.byteSize = 0x100 + s.len → exec .intl s = .next u → u.err = false →
    data.length = s.len → (∀ a (h : a < data.length), Mem.get u.bram a = some data[a]) →
      ∃ t, SafeRun (3 + s.len) s t ∧ st.write magic t = writeContainer magic st data ∧
        t = { u with latch := encode .intl, script := more, reads := t.reads }) ∧
  (∀ (magic buf : List Byte) (st : Stream), readContainer magic buf = .stream st →
    writeContainer magic st st.data = buf.take st.byteSize)
end

