-- ==== Sys2Proof/Laws/Memory.lean ====
section
/-! SUPPORT. The laws of memories: reading after writing, and that every operation keeps the canonical form. -/

namespace Sys2Proof.Machine

variable {w : Nat}

/-! ## The canonical form -/

/-- The canonical form says that each address is below all later ones. -/
theorem Mem.wf_iff_pairwise (m : Mem w) : Mem.wf m = true ↔ m.Pairwise (fun p q => p.1 < q.1) := by
  induction m with
  | nil => simp [Mem.wf]
  | cons p m ih =>
    cases m with
    | nil => simp [Mem.wf]
    | cons q m =>
      rw [Mem.wf, Bool.and_eq_true, ih, decide_eq_true_iff, List.pairwise_cons (a := p)]
      constructor
      · rintro ⟨hpq, hm⟩
        refine ⟨fun r hr => ?_, hm⟩
        rcases List.mem_cons.1 hr with rfl | hr
        · exact hpq
        · exact hpq.trans (List.rel_of_pairwise_cons hm hr)
      · rintro ⟨hp, hm⟩
        exact ⟨hp q (by simp), hm⟩

theorem Mem.wf_nil : Mem.wf ([] : Mem w) = true := rfl

/-- Every listed address is below `n`. -/
theorem Mem.below_iff (m : Mem w) (n : Nat) : Mem.below m n = true ↔ ∀ p ∈ m, p.1 < n := by
  simp [Mem.below, List.all_eq_true]

theorem Mem.below_mono {m : Mem w} {n k : Nat} (h : Mem.below m n = true) (hk : n ≤ k) : Mem.below m k = true := by
  rw [Mem.below_iff] at *
  exact fun p hp => (h p hp).trans_le hk

/-! ## Reading -/

/-- A cell that reads as written is listed. -/
theorem Mem.mem_of_get {m : Mem w} {a : Nat} {v : BitVec w} (h : Mem.get m a = some v) : (a, v) ∈ m := by
  induction m with
  | nil => simp [Mem.get] at h
  | cons p m ih =>
    obtain ⟨k, u⟩ := p
    rw [Mem.get] at h
    split at h
    · next hk => simp_all
    · exact List.mem_cons_of_mem _ (ih h)

/-- In canonical form, a listed cell reads as its value. -/
theorem Mem.get_of_mem {m : Mem w} (hm : Mem.wf m = true) {a : Nat} {v : BitVec w} (h : (a, v) ∈ m) :
    Mem.get m a = some v := by
  rw [Mem.wf_iff_pairwise] at hm
  induction m with
  | nil => simp at h
  | cons p m ih =>
    obtain ⟨k, u⟩ := p
    rw [List.pairwise_cons] at hm
    rcases List.mem_cons.1 h with h | h
    · simp_all [Mem.get]
    · have := hm.1 _ h
      rw [Mem.get, if_neg (by simp at this; omega)]
      exact ih hm.2 h

/-- An address above all listed ones is unwritten. -/
theorem Mem.get_of_below {m : Mem w} {n a : Nat} (h : Mem.below m n = true) (ha : n ≤ a) : Mem.get m a = none := by
  rcases hg : Mem.get m a with _ | v
  · rfl
  · have := (Mem.below_iff m n).1 h _ (Mem.mem_of_get hg)
    simp at this; omega

/-- Two memories in canonical form that read alike are equal. -/
theorem Mem.ext {m k : Mem w} (hm : Mem.wf m = true) (hk : Mem.wf k = true) (h : ∀ a, Mem.get m a = Mem.get k a) :
    m = k := by
  have hmem : ∀ p, p ∈ m ↔ p ∈ k := fun p =>
    ⟨fun hp => Mem.mem_of_get ((h p.1) ▸ Mem.get_of_mem hm hp), fun hp => Mem.mem_of_get ((h p.1).symm ▸ Mem.get_of_mem hk hp)⟩
  rw [Mem.wf_iff_pairwise] at hm hk
  have nodup : ∀ {l : Mem w}, l.Pairwise (fun p q => p.1 < q.1) → l.Nodup := fun hl =>
    hl.imp (fun {p q} hlt heq => by simp [heq] at hlt)
  exact ((List.perm_ext_iff_of_nodup (nodup hm) (nodup hk)).2 hmem).eq_of_pairwise
    (fun p q _ _ hpq hqp => absurd hpq (by omega)) hm hk

/-! ## Writing one cell -/

@[simp] theorem Mem.get_set_same (m : Mem w) (a : Nat) (v : BitVec w) : Mem.get (Mem.set m a v) a = some v := by
  induction m with
  | nil => simp [Mem.set, Mem.get]
  | cons p m ih =>
    obtain ⟨k, u⟩ := p
    rw [Mem.set]
    split
    · simp [Mem.get]
    · split
      · simp [Mem.get]
      · rw [Mem.get, if_neg (by omega), ih]

theorem Mem.get_set_other (m : Mem w) {a b : Nat} (v : BitVec w) (h : b ≠ a) :
    Mem.get (Mem.set m a v) b = Mem.get m b := by
  induction m with
  | nil => simp [Mem.set, Mem.get, h.symm]
  | cons p m ih =>
    obtain ⟨k, u⟩ := p
    rw [Mem.set]
    split
    · rw [Mem.get, if_neg h.symm]
    · split
      · next hk => rw [Mem.get, if_neg h.symm, Mem.get, if_neg (by omega)]
      · rw [Mem.get, Mem.get, ih]

theorem Mem.mem_set {m : Mem w} {a : Nat} {v : BitVec w} {p : Nat × BitVec w} (h : p ∈ Mem.set m a v) :
    p = (a, v) ∨ p ∈ m := by
  induction m with
  | nil => simpa [Mem.set] using h
  | cons q m ih =>
    obtain ⟨k, u⟩ := q
    rw [Mem.set] at h
    split at h
    · simpa using h
    · split at h
      · rcases List.mem_cons.1 h with h | h <;> simp_all
      · rcases List.mem_cons.1 h with h | h
        · exact .inr (by simp [h])
        · exact (ih h).imp_right (List.mem_cons_of_mem _)

theorem Mem.wf_set {m : Mem w} (hm : Mem.wf m = true) (a : Nat) (v : BitVec w) : Mem.wf (Mem.set m a v) = true := by
  rw [Mem.wf_iff_pairwise] at *
  induction m with
  | nil => simp [Mem.set]
  | cons q m ih =>
    obtain ⟨k, u⟩ := q
    have hm' := List.pairwise_cons.1 hm
    rw [Mem.set]
    split
    · next hak =>
      refine List.pairwise_cons.2 ⟨fun p hp => ?_, hm⟩
      rcases List.mem_cons.1 hp with rfl | hp
      · exact hak
      · exact hak.trans (hm'.1 p hp)
    · split
      · next hak => exact List.pairwise_cons.2 ⟨fun p hp => by simpa [hak] using hm'.1 p hp, hm'.2⟩
      · next h1 h2 =>
        refine List.pairwise_cons.2 ⟨fun p hp => ?_, ih hm'.2⟩
        rcases Mem.mem_set hp with rfl | hp
        · simp; omega
        · exact hm'.1 p hp

theorem Mem.below_set {m : Mem w} {n a : Nat} (hm : Mem.below m n = true) (ha : a < n) (v : BitVec w) :
    Mem.below (Mem.set m a v) n = true := by
  rw [Mem.below_iff] at *
  intro p hp
  rcases Mem.mem_set hp with rfl | hp
  · exact ha
  · exact hm p hp

/-! ## Ranges -/

/-- A range reads as `vs` exactly when each of its cells is written with its value. -/
theorem Mem.getRange_eq_some_iff (m : Mem w) (a n : Nat) (vs : Vector (BitVec w) n) :
    Mem.getRange m a n = some vs ↔ ∀ i (h : i < n), Mem.get m (a + i) = some vs[i] := by
  induction n with
  | zero => simp [Mem.getRange]
  | succ n ih =>
    rw [Mem.getRange]
    constructor
    · intro h i hi
      split at h
      · next us u hus hu =>
        cases h
        rcases Nat.lt_succ_iff_lt_or_eq.1 hi with hi | rfl
        · rw [Vector.getElem_push_lt hi]; exact (ih us).1 hus i hi
        · simpa using hu
      · simp at h
    · intro h
      have hpop : Mem.getRange m a n = some vs.pop :=
        (ih vs.pop).2 (fun i hi => by rw [Vector.getElem_pop]; exact h i (by omega))
      have hlast := h n (by omega)
      rw [hpop, hlast]
      simp only [Option.some.injEq]
      ext i hi
      rcases Nat.lt_succ_iff_lt_or_eq.1 hi with hi | rfl
      · rw [Vector.getElem_push_lt hi, Vector.getElem_pop]
      · simp

/-- A range can be read exactly when each of its cells is written. -/
theorem Mem.getRange_isSome_iff (m : Mem w) (a n : Nat) :
    (Mem.getRange m a n).isSome ↔ ∀ i < n, (Mem.get m (a + i)).isSome := by
  induction n with
  | zero => simp [Mem.getRange]
  | succ n ih =>
    rw [Mem.getRange]
    constructor
    · intro h i hi
      split at h
      · next us u hus hu =>
        rcases Nat.lt_succ_iff_lt_or_eq.1 hi with hi | rfl
        · exact ih.1 (by simp [hus]) i hi
        · simp [hu]
      · simp at h
    · intro h
      obtain ⟨us, hus⟩ := Option.isSome_iff_exists.1 (ih.2 fun i hi => h i (by omega))
      obtain ⟨u, hu⟩ := Option.isSome_iff_exists.1 (h n (by omega))
      simp [hus, hu]

/-- Writing a range leaves every cell outside it. -/
theorem Mem.get_setRange_outside (m : Mem w) (a : Nat) (vs : List (BitVec w)) {b : Nat}
    (h : b < a ∨ a + vs.length ≤ b) : Mem.get (Mem.setRange m a vs) b = Mem.get m b := by
  induction vs generalizing m a with
  | nil => rfl
  | cons v vs ih =>
    simp only [List.length_cons] at h
    rw [Mem.setRange, ih _ _ (by omega), Mem.get_set_other _ _ (by omega)]

/-- Writing a range writes each of its values. -/
theorem Mem.get_setRange_inside (m : Mem w) (a : Nat) (vs : List (BitVec w)) {i : Nat} (h : i < vs.length) :
    Mem.get (Mem.setRange m a vs) (a + i) = some vs[i] := by
  induction vs generalizing m a i with
  | nil => simp at h
  | cons v vs ih =>
    rw [Mem.setRange]
    cases i with
    | zero => rw [Mem.get_setRange_outside _ _ _ (by omega)]; simp
    | succ i =>
      have := ih (Mem.set m a v) (a + 1) (i := i) (by simpa using h)
      rw [show a + (i + 1) = a + 1 + i by omega, this]
      simp

theorem Mem.wf_setRange {m : Mem w} (hm : Mem.wf m = true) (a : Nat) (vs : List (BitVec w)) :
    Mem.wf (Mem.setRange m a vs) = true := by
  induction vs generalizing m a with
  | nil => exact hm
  | cons v vs ih => exact ih (Mem.wf_set hm a v) (a + 1)

theorem Mem.below_setRange {m : Mem w} {n a : Nat} (hm : Mem.below m n = true) (vs : List (BitVec w))
    (h : a + vs.length ≤ n) : Mem.below (Mem.setRange m a vs) n = true := by
  induction vs generalizing m a with
  | nil => exact hm
  | cons v vs ih =>
    simp only [List.length_cons] at h
    exact ih (Mem.below_set hm (by omega) v) (by omega)

/-! ## Moving cells -/

/-- Filtering by address drops just the cells the filter refuses. -/
theorem Mem.get_filter (m : Mem w) (f : Nat → Bool) (b : Nat) :
    Mem.get (m.filter (fun p => f p.1)) b = if f b then Mem.get m b else none := by
  induction m with
  | nil => simp [Mem.get]
  | cons p m ih =>
    obtain ⟨k, u⟩ := p
    by_cases hk : f k = true
    · rw [List.filter_cons_of_pos (by simpa using hk), Mem.get, Mem.get, ih]
      by_cases hkb : k = b
      · subst hkb; simp [hk]
      · simp [hkb]
    · rw [List.filter_cons_of_neg (by simpa using hk), ih, Mem.get]
      by_cases hkb : k = b
      · subst hkb; simp [hk]
      · simp [hkb]

theorem Mem.get_above (m : Mem w) (a b : Nat) : Mem.get (Mem.above m a) b = if a ≤ b then Mem.get m b else none := by
  have := Mem.get_filter m (fun x => decide (a ≤ x)) b
  simpa [Mem.above] using this

/-- Moving every cell up by `a`. -/
theorem Mem.get_shift_up (m : Mem w) (a b : Nat) :
    Mem.get (m.map (fun p => (p.1 + a, p.2))) b = if a ≤ b then Mem.get m (b - a) else none := by
  induction m with
  | nil => simp [Mem.get]
  | cons p m ih =>
    obtain ⟨k, u⟩ := p
    rw [List.map_cons, Mem.get, ih]
    by_cases hab : a ≤ b
    · rw [if_pos hab, if_pos hab, Mem.get]
      by_cases hk : k = b - a
      · rw [if_pos (by omega), if_pos hk]
      · rw [if_neg (by omega), if_neg hk]
    · rw [if_neg hab, if_neg hab, if_neg (by omega)]

theorem Mem.get_place (m : Mem w) (a n b : Nat) :
    Mem.get (Mem.place m a n) b = if a ≤ b ∧ b < a + n then Mem.get m (b - a) else none := by
  have := Mem.get_filter m (fun x => decide (x < n)) (b - a)
  rw [Mem.place, Mem.get_shift_up, this]
  by_cases hab : a ≤ b
  · by_cases hb : b - a < n
    · simp [hab, hb, show b < a + n by omega]
    · simp [hb, show ¬ b < a + n by omega]
  · simp [hab]

/-- Moving every cell down by `a`, where all are at or above `a`. -/
theorem Mem.get_shift_down (m : Mem w) (a b : Nat) (h : ∀ p ∈ m, a ≤ p.1) :
    Mem.get (m.map (fun p => (p.1 - a, p.2))) b = Mem.get m (a + b) := by
  induction m with
  | nil => simp [Mem.get]
  | cons p m ih =>
    obtain ⟨k, u⟩ := p
    have hk : a ≤ k := h (k, u) (by simp)
    rw [List.map_cons, Mem.get, Mem.get, ih (fun q hq => h q (List.mem_cons_of_mem _ hq))]
    by_cases hkb : k = a + b
    · rw [if_pos (by omega), if_pos hkb]
    · rw [if_neg (by omega), if_neg hkb]

theorem Mem.get_slice (m : Mem w) (a n j : Nat) :
    Mem.get (Mem.slice m a n) j = if j < n then Mem.get m (a + j) else none := by
  have := Mem.get_filter m (fun x => decide (a ≤ x) && decide (x < a + n)) (a + j)
  have hlow : ∀ p ∈ m.filter (fun p => decide (a ≤ p.1) && decide (p.1 < a + n)), a ≤ p.1 := fun p hp => by
    have := (List.mem_filter.1 hp).2
    simp at this
    exact this.1
  rw [Mem.slice, Mem.get_shift_down _ _ _ hlow, this]
  simp

theorem Mem.wf_filter {m : Mem w} (hm : Mem.wf m = true) (f : Nat × BitVec w → Bool) : Mem.wf (m.filter f) = true := by
  rw [Mem.wf_iff_pairwise] at *
  exact hm.filter f

theorem Mem.wf_above {m : Mem w} (hm : Mem.wf m = true) (a : Nat) : Mem.wf (Mem.above m a) = true := Mem.wf_filter hm _

theorem Mem.wf_place {m : Mem w} (hm : Mem.wf m = true) (a n : Nat) : Mem.wf (Mem.place m a n) = true := by
  have := Mem.wf_filter hm (fun p => decide (p.1 < n))
  rw [Mem.wf_iff_pairwise] at *
  rw [Mem.place, List.pairwise_map]
  exact this.imp (fun h => by simpa using h)

theorem Mem.wf_slice {m : Mem w} (hm : Mem.wf m = true) (a n : Nat) : Mem.wf (Mem.slice m a n) = true := by
  have := Mem.wf_filter hm (fun p => decide (a ≤ p.1) && decide (p.1 < a + n))
  rw [Mem.wf_iff_pairwise] at *
  rw [Mem.slice, List.pairwise_map]
  refine (List.pairwise_filter.2 (List.pairwise_filter.1 this)).imp_of_mem ?_
  intro p q hp hq h
  have h1 := (List.mem_filter.1 hp).2
  have h2 := (List.mem_filter.1 hq).2
  simp at h1 h2 ⊢
  omega

theorem Mem.mem_slice {m : Mem w} {a n : Nat} {p : Nat × BitVec w} (h : p ∈ Mem.slice m a n) : p.1 < n := by
  rw [Mem.slice, List.mem_map] at h
  obtain ⟨q, hq, rfl⟩ := h
  have := (List.mem_filter.1 hq).2
  simp at this ⊢
  omega

theorem Mem.mem_place {m : Mem w} {a n : Nat} {p : Nat × BitVec w} (h : p ∈ Mem.place m a n) :
    a ≤ p.1 ∧ p.1 < a + n := by
  rw [Mem.place, List.mem_map] at h
  obtain ⟨q, hq, rfl⟩ := h
  have := (List.mem_filter.1 hq).2
  simp at this ⊢
  omega

/-- Reading two memories one after the other. -/
theorem Mem.get_append (m k : Mem w) (a : Nat) : Mem.get (m ++ k) a = (Mem.get m a).or (Mem.get k a) := by
  induction m with
  | nil => simp [Mem.get]
  | cons p m ih =>
    obtain ⟨x, u⟩ := p
    rw [List.cons_append, Mem.get, Mem.get, ih]
    split <;> simp

/-! ## The interleaver's images -/

@[simp] theorem deinterleave_length (bram : Mem 8) (n len : Nat) : (deinterleave bram n len).length = n := by
  simp [deinterleave]

theorem deinterleave_getD (bram : Mem 8) {n c : Nat} (len : Nat) (h : c < n) :
    (deinterleave bram n len).getD c [] = Mem.slice bram (c * len) len := by
  simp [deinterleave, List.getD_eq_getElem?_getD, h]

/-- Each byte of a channel array is the byte of BRAM it was copied from (R133). -/
theorem get_deinterleave (bram : Mem 8) {n c len j : Nat} (hc : c < n) (hj : j < len) :
    Mem.get ((deinterleave bram n len).getD c []) j = Mem.get bram (c * len + j) := by
  rw [deinterleave_getD _ _ hc, Mem.get_slice, if_pos hj]

theorem wf_deinterleave {bram : Mem 8} (h : Mem.wf bram = true) (n len : Nat) :
    ∀ m ∈ deinterleave bram n len, Mem.wf m = true := by
  intro m hm
  simp only [deinterleave, List.mem_map] at hm
  obtain ⟨c, _, rfl⟩ := hm
  exact Mem.wf_slice h _ _

theorem below_deinterleave (bram : Mem 8) (n len : Nat) : ∀ m ∈ deinterleave bram n len, Mem.below m len = true := by
  intro m hm
  simp only [deinterleave, List.mem_map] at hm
  obtain ⟨c, _, rfl⟩ := hm
  exact (Mem.below_iff _ _).2 (fun p hp => Mem.mem_slice hp)

/-- The part of the image that holds channels, by itself. -/
theorem interleave_channels_below (chb : List (Mem 8)) (n len : Nat) :
    ∀ p ∈ (List.range n).flatMap (fun c => Mem.place (chb.getD c []) (c * len) len), p.1 < n * len := by
  intro p hp
  obtain ⟨c, hc, hp⟩ := List.mem_flatMap.1 hp
  have h1 := (Mem.mem_place hp).2
  have h2 : (c + 1) * len ≤ n * len := Nat.mul_le_mul_right _ (by simpa using hc)
  rw [Nat.add_mul] at h2
  omega

theorem get_interleave_channels (chb : List (Mem 8)) {n len c j : Nat} (hc : c < n) (hj : j < len) :
    Mem.get ((List.range n).flatMap (fun c => Mem.place (chb.getD c []) (c * len) len)) (c * len + j) =
      Mem.get (chb.getD c []) j := by
  induction n with
  | zero => omega
  | succ n ih =>
    rw [List.range_succ, List.flatMap_append, Mem.get_append]
    simp only [List.flatMap_cons, List.flatMap_nil, List.append_nil]
    rw [Mem.get_place]
    rcases Nat.lt_succ_iff_lt_or_eq.1 hc with hc | rfl
    · have h2 : (c + 1) * len ≤ n * len := Nat.mul_le_mul_right _ (by omega)
      rw [Nat.add_mul] at h2
      rw [ih hc, if_neg (by omega), Option.or_none]
    · have : Mem.get ((List.range c).flatMap (fun c => Mem.place (chb.getD c []) (c * len) len)) (c * len + j) = none :=
        Mem.get_of_below ((Mem.below_iff _ _).2 (interleave_channels_below chb c len)) (by omega)
      rw [this, if_pos (by omega), Option.none_or, Nat.add_sub_cancel_left]

/-- Each byte of a channel's slice of the image is the channel array's byte (R134). -/
theorem get_interleave_inside (chb : List (Mem 8)) (bram : Mem 8) {n len c j : Nat} (hc : c < n) (hj : j < len) :
    Mem.get (interleave chb bram n len) (c * len + j) = Mem.get (chb.getD c []) j := by
  have h2 : (c + 1) * len ≤ n * len := Nat.mul_le_mul_right _ (by omega)
  rw [Nat.add_mul] at h2
  rw [interleave, Mem.get_append, get_interleave_channels chb hc hj, Mem.get_above, if_neg (by omega), Option.or_none]

/-- Every byte from `n * len` on is as it was (R134). -/
theorem get_interleave_tail (chb : List (Mem 8)) (bram : Mem 8) {n len a : Nat} (h : n * len ≤ a) :
    Mem.get (interleave chb bram n len) a = Mem.get bram a := by
  rw [interleave, Mem.get_append, Mem.get_above, if_pos h,
    Mem.get_of_below ((Mem.below_iff _ _).2 (interleave_channels_below chb n len)) h, Option.none_or]

theorem wf_interleave {chb : List (Mem 8)} {bram : Mem 8} (hb : Mem.wf bram = true) (hc : ∀ m ∈ chb, Mem.wf m = true)
    (n len : Nat) : Mem.wf (interleave chb bram n len) = true := by
  have hget : ∀ c, Mem.wf (chb.getD c []) = true := fun c => by
    rw [List.getD_eq_getElem?_getD]
    rcases h : chb[c]? with _ | m
    · exact Mem.wf_nil
    · exact hc m (List.mem_of_getElem? h)
  have hch : ∀ n, ((List.range n).flatMap (fun c => Mem.place (chb.getD c []) (c * len) len)).Pairwise
      (fun p q => p.1 < q.1) := fun n => by
    induction n with
    | zero => simp
    | succ n ih =>
      rw [List.range_succ, List.flatMap_append, List.pairwise_append]
      refine ⟨ih, ?_, fun p hp q hq => ?_⟩
      · simpa using (Mem.wf_iff_pairwise _).1 (Mem.wf_place (hget n) (n * len) len)
      · have h1 := interleave_channels_below chb n len p hp
        have h2 := (Mem.mem_place (p := q) (by simpa using hq)).1
        omega
  rw [Mem.wf_iff_pairwise, interleave, List.pairwise_append]
  refine ⟨hch n, (Mem.wf_iff_pairwise _).1 (Mem.wf_above hb _), fun p hp q hq => ?_⟩
  have h1 := interleave_channels_below chb n len p hp
  have h2 := (List.mem_filter.1 hq).2
  simp at h2
  omega

theorem below_interleave {chb : List (Mem 8)} {bram : Mem 8} {size n len : Nat} (hb : Mem.below bram size = true)
    (h : n * len ≤ size) : Mem.below (interleave chb bram n len) size = true := by
  rw [Mem.below_iff] at *
  intro p hp
  rcases List.mem_append.1 hp with hp | hp
  · exact (interleave_channels_below chb n len p hp).trans_le h
  · exact hb p (List.mem_filter.1 hp).1

end Sys2Proof.Machine
end

