-- ==== Sys2Proof/Laws/State.lean ====
section
/-! SUPPORT. Every field of the state after every update of the state, so that no proof unfolds a record update. -/

namespace Sys2Proof.Machine

/-! ## setChan -/

@[simp] theorem State.setChan_params (s : State) (c : Nat) (x : Chan) : (s.setChan c x).params = s.params := rfl
@[simp] theorem State.setChan_latch (s : State) (c : Nat) (x : Chan) : (s.setChan c x).latch = s.latch := rfl
@[simp] theorem State.setChan_busy (s : State) (c : Nat) (x : Chan) : (s.setChan c x).busy = s.busy := rfl
@[simp] theorem State.setChan_err (s : State) (c : Nat) (x : Chan) : (s.setChan c x).err = s.err := rfl
@[simp] theorem State.setChan_chv (s : State) (c : Nat) (x : Chan) : (s.setChan c x).chv = s.chv := rfl
@[simp] theorem State.setChan_errCode (s : State) (c : Nat) (x : Chan) : (s.setChan c x).errCode = s.errCode := rfl
@[simp] theorem State.setChan_errCh (s : State) (c : Nat) (x : Chan) : (s.setChan c x).errCh = s.errCh := rfl
@[simp] theorem State.setChan_errBlk (s : State) (c : Nat) (x : Chan) : (s.setChan c x).errBlk = s.errBlk := rfl
@[simp] theorem State.setChan_chCount (s : State) (c : Nat) (x : Chan) : (s.setChan c x).chCount = s.chCount := rfl
@[simp] theorem State.setChan_kind (s : State) (c : Nat) (x : Chan) : (s.setChan c x).kind = s.kind := rfl
@[simp] theorem State.setChan_rawLen (s : State) (c : Nat) (x : Chan) : (s.setChan c x).rawLen = s.rawLen := rfl
@[simp] theorem State.setChan_chSel (s : State) (c : Nat) (x : Chan) : (s.setChan c x).chSel = s.chSel := rfl
@[simp] theorem State.setChan_ch (s : State) (c : Nat) (x : Chan) : (s.setChan c x).ch = s.ch.set c x := rfl
@[simp] theorem State.setChan_bram (s : State) (c : Nat) (x : Chan) : (s.setChan c x).bram = s.bram := rfl
@[simp] theorem State.setChan_chb (s : State) (c : Nat) (x : Chan) : (s.setChan c x).chb = s.chb := rfl
@[simp] theorem State.setChan_sram (s : State) (c : Nat) (x : Chan) : (s.setChan c x).sram = s.sram := rfl
@[simp] theorem State.setChan_fault (s : State) (c : Nat) (x : Chan) : (s.setChan c x).fault = s.fault := rfl
@[simp] theorem State.setChan_script (s : State) (c : Nat) (x : Chan) : (s.setChan c x).script = s.script := rfl
@[simp] theorem State.setChan_schedule (s : State) (c : Nat) (x : Chan) : (s.setChan c x).schedule = s.schedule := rfl
@[simp] theorem State.setChan_reads (s : State) (c : Nat) (x : Chan) : (s.setChan c x).reads = s.reads := rfl

/-! ## setHist -/

@[simp] theorem State.setHist_params (s : State) (c : Nat) (h : Int × Int) : (s.setHist c h).params = s.params := rfl
@[simp] theorem State.setHist_latch (s : State) (c : Nat) (h : Int × Int) : (s.setHist c h).latch = s.latch := rfl
@[simp] theorem State.setHist_busy (s : State) (c : Nat) (h : Int × Int) : (s.setHist c h).busy = s.busy := rfl
@[simp] theorem State.setHist_err (s : State) (c : Nat) (h : Int × Int) : (s.setHist c h).err = s.err := rfl
@[simp] theorem State.setHist_chv (s : State) (c : Nat) (h : Int × Int) : (s.setHist c h).chv = s.chv := rfl
@[simp] theorem State.setHist_errCode (s : State) (c : Nat) (h : Int × Int) : (s.setHist c h).errCode = s.errCode := rfl
@[simp] theorem State.setHist_errCh (s : State) (c : Nat) (h : Int × Int) : (s.setHist c h).errCh = s.errCh := rfl
@[simp] theorem State.setHist_errBlk (s : State) (c : Nat) (h : Int × Int) : (s.setHist c h).errBlk = s.errBlk := rfl
@[simp] theorem State.setHist_chCount (s : State) (c : Nat) (h : Int × Int) : (s.setHist c h).chCount = s.chCount := rfl
@[simp] theorem State.setHist_kind (s : State) (c : Nat) (h : Int × Int) : (s.setHist c h).kind = s.kind := rfl
@[simp] theorem State.setHist_rawLen (s : State) (c : Nat) (h : Int × Int) : (s.setHist c h).rawLen = s.rawLen := rfl
@[simp] theorem State.setHist_chSel (s : State) (c : Nat) (h : Int × Int) : (s.setHist c h).chSel = s.chSel := rfl
@[simp] theorem State.setHist_ch (s : State) (c : Nat) (h : Int × Int) : (s.setHist c h).ch = s.ch.set c { s.chan c with hist0 := toSample h.1, hist1 := toSample h.2 } := rfl
@[simp] theorem State.setHist_bram (s : State) (c : Nat) (h : Int × Int) : (s.setHist c h).bram = s.bram := rfl
@[simp] theorem State.setHist_chb (s : State) (c : Nat) (h : Int × Int) : (s.setHist c h).chb = s.chb := rfl
@[simp] theorem State.setHist_sram (s : State) (c : Nat) (h : Int × Int) : (s.setHist c h).sram = s.sram := rfl
@[simp] theorem State.setHist_fault (s : State) (c : Nat) (h : Int × Int) : (s.setHist c h).fault = s.fault := rfl
@[simp] theorem State.setHist_script (s : State) (c : Nat) (h : Int × Int) : (s.setHist c h).script = s.script := rfl
@[simp] theorem State.setHist_schedule (s : State) (c : Nat) (h : Int × Int) : (s.setHist c h).schedule = s.schedule := rfl
@[simp] theorem State.setHist_reads (s : State) (c : Nat) (h : Int × Int) : (s.setHist c h).reads = s.reads := rfl

/-! ## setCursor -/

@[simp] theorem State.setCursor_params (s : State) (c k : Nat) : (s.setCursor c k).params = s.params := rfl
@[simp] theorem State.setCursor_latch (s : State) (c k : Nat) : (s.setCursor c k).latch = s.latch := rfl
@[simp] theorem State.setCursor_busy (s : State) (c k : Nat) : (s.setCursor c k).busy = s.busy := rfl
@[simp] theorem State.setCursor_err (s : State) (c k : Nat) : (s.setCursor c k).err = s.err := rfl
@[simp] theorem State.setCursor_chv (s : State) (c k : Nat) : (s.setCursor c k).chv = s.chv := rfl
@[simp] theorem State.setCursor_errCode (s : State) (c k : Nat) : (s.setCursor c k).errCode = s.errCode := rfl
@[simp] theorem State.setCursor_errCh (s : State) (c k : Nat) : (s.setCursor c k).errCh = s.errCh := rfl
@[simp] theorem State.setCursor_errBlk (s : State) (c k : Nat) : (s.setCursor c k).errBlk = s.errBlk := rfl
@[simp] theorem State.setCursor_chCount (s : State) (c k : Nat) : (s.setCursor c k).chCount = s.chCount := rfl
@[simp] theorem State.setCursor_kind (s : State) (c k : Nat) : (s.setCursor c k).kind = s.kind := rfl
@[simp] theorem State.setCursor_rawLen (s : State) (c k : Nat) : (s.setCursor c k).rawLen = s.rawLen := rfl
@[simp] theorem State.setCursor_chSel (s : State) (c k : Nat) : (s.setCursor c k).chSel = s.chSel := rfl
@[simp] theorem State.setCursor_ch (s : State) (c k : Nat) : (s.setCursor c k).ch = s.ch.set c { s.chan c with cursor := BitVec.ofNat 32 k } := rfl
@[simp] theorem State.setCursor_bram (s : State) (c k : Nat) : (s.setCursor c k).bram = s.bram := rfl
@[simp] theorem State.setCursor_chb (s : State) (c k : Nat) : (s.setCursor c k).chb = s.chb := rfl
@[simp] theorem State.setCursor_sram (s : State) (c k : Nat) : (s.setCursor c k).sram = s.sram := rfl
@[simp] theorem State.setCursor_fault (s : State) (c k : Nat) : (s.setCursor c k).fault = s.fault := rfl
@[simp] theorem State.setCursor_script (s : State) (c k : Nat) : (s.setCursor c k).script = s.script := rfl
@[simp] theorem State.setCursor_schedule (s : State) (c k : Nat) : (s.setCursor c k).schedule = s.schedule := rfl
@[simp] theorem State.setCursor_reads (s : State) (c k : Nat) : (s.setCursor c k).reads = s.reads := rfl

/-! ## setAst -/

@[simp] theorem State.setAst_params (s : State) (c : Nat) (a : AdState) : (s.setAst c a).params = s.params := rfl
@[simp] theorem State.setAst_latch (s : State) (c : Nat) (a : AdState) : (s.setAst c a).latch = s.latch := rfl
@[simp] theorem State.setAst_busy (s : State) (c : Nat) (a : AdState) : (s.setAst c a).busy = s.busy := rfl
@[simp] theorem State.setAst_err (s : State) (c : Nat) (a : AdState) : (s.setAst c a).err = s.err := rfl
@[simp] theorem State.setAst_chv (s : State) (c : Nat) (a : AdState) : (s.setAst c a).chv = s.chv := rfl
@[simp] theorem State.setAst_errCode (s : State) (c : Nat) (a : AdState) : (s.setAst c a).errCode = s.errCode := rfl
@[simp] theorem State.setAst_errCh (s : State) (c : Nat) (a : AdState) : (s.setAst c a).errCh = s.errCh := rfl
@[simp] theorem State.setAst_errBlk (s : State) (c : Nat) (a : AdState) : (s.setAst c a).errBlk = s.errBlk := rfl
@[simp] theorem State.setAst_chCount (s : State) (c : Nat) (a : AdState) : (s.setAst c a).chCount = s.chCount := rfl
@[simp] theorem State.setAst_kind (s : State) (c : Nat) (a : AdState) : (s.setAst c a).kind = s.kind := rfl
@[simp] theorem State.setAst_rawLen (s : State) (c : Nat) (a : AdState) : (s.setAst c a).rawLen = s.rawLen := rfl
@[simp] theorem State.setAst_chSel (s : State) (c : Nat) (a : AdState) : (s.setAst c a).chSel = s.chSel := rfl
@[simp] theorem State.setAst_ch (s : State) (c : Nat) (a : AdState) : (s.setAst c a).ch = s.ch.set c { s.chan c with ast := a } := rfl
@[simp] theorem State.setAst_bram (s : State) (c : Nat) (a : AdState) : (s.setAst c a).bram = s.bram := rfl
@[simp] theorem State.setAst_chb (s : State) (c : Nat) (a : AdState) : (s.setAst c a).chb = s.chb := rfl
@[simp] theorem State.setAst_sram (s : State) (c : Nat) (a : AdState) : (s.setAst c a).sram = s.sram := rfl
@[simp] theorem State.setAst_fault (s : State) (c : Nat) (a : AdState) : (s.setAst c a).fault = s.fault := rfl
@[simp] theorem State.setAst_script (s : State) (c : Nat) (a : AdState) : (s.setAst c a).script = s.script := rfl
@[simp] theorem State.setAst_schedule (s : State) (c : Nat) (a : AdState) : (s.setAst c a).schedule = s.schedule := rfl
@[simp] theorem State.setAst_reads (s : State) (c : Nat) (a : AdState) : (s.setAst c a).reads = s.reads := rfl

/-! ## writeChb -/

@[simp] theorem State.writeChb_params (s : State) (c a : Nat) (b : List Byte) : (s.writeChb c a b).params = s.params := rfl
@[simp] theorem State.writeChb_latch (s : State) (c a : Nat) (b : List Byte) : (s.writeChb c a b).latch = s.latch := rfl
@[simp] theorem State.writeChb_busy (s : State) (c a : Nat) (b : List Byte) : (s.writeChb c a b).busy = s.busy := rfl
@[simp] theorem State.writeChb_err (s : State) (c a : Nat) (b : List Byte) : (s.writeChb c a b).err = s.err := rfl
@[simp] theorem State.writeChb_chv (s : State) (c a : Nat) (b : List Byte) : (s.writeChb c a b).chv = s.chv := rfl
@[simp] theorem State.writeChb_errCode (s : State) (c a : Nat) (b : List Byte) : (s.writeChb c a b).errCode = s.errCode := rfl
@[simp] theorem State.writeChb_errCh (s : State) (c a : Nat) (b : List Byte) : (s.writeChb c a b).errCh = s.errCh := rfl
@[simp] theorem State.writeChb_errBlk (s : State) (c a : Nat) (b : List Byte) : (s.writeChb c a b).errBlk = s.errBlk := rfl
@[simp] theorem State.writeChb_chCount (s : State) (c a : Nat) (b : List Byte) : (s.writeChb c a b).chCount = s.chCount := rfl
@[simp] theorem State.writeChb_kind (s : State) (c a : Nat) (b : List Byte) : (s.writeChb c a b).kind = s.kind := rfl
@[simp] theorem State.writeChb_rawLen (s : State) (c a : Nat) (b : List Byte) : (s.writeChb c a b).rawLen = s.rawLen := rfl
@[simp] theorem State.writeChb_chSel (s : State) (c a : Nat) (b : List Byte) : (s.writeChb c a b).chSel = s.chSel := rfl
@[simp] theorem State.writeChb_ch (s : State) (c a : Nat) (b : List Byte) : (s.writeChb c a b).ch = s.ch := rfl
@[simp] theorem State.writeChb_bram (s : State) (c a : Nat) (b : List Byte) : (s.writeChb c a b).bram = s.bram := rfl
@[simp] theorem State.writeChb_chb (s : State) (c a : Nat) (b : List Byte) : (s.writeChb c a b).chb = s.chb.set c (Mem.setRange (s.chbOf c) a b) := rfl
@[simp] theorem State.writeChb_sram (s : State) (c a : Nat) (b : List Byte) : (s.writeChb c a b).sram = s.sram := rfl
@[simp] theorem State.writeChb_fault (s : State) (c a : Nat) (b : List Byte) : (s.writeChb c a b).fault = s.fault := rfl
@[simp] theorem State.writeChb_script (s : State) (c a : Nat) (b : List Byte) : (s.writeChb c a b).script = s.script := rfl
@[simp] theorem State.writeChb_schedule (s : State) (c a : Nat) (b : List Byte) : (s.writeChb c a b).schedule = s.schedule := rfl
@[simp] theorem State.writeChb_reads (s : State) (c a : Nat) (b : List Byte) : (s.writeChb c a b).reads = s.reads := rfl

/-! ## writeSram -/

@[simp] theorem State.writeSram_params (s : State) (a : Nat) (xs : List Sample) : (s.writeSram a xs).params = s.params := rfl
@[simp] theorem State.writeSram_latch (s : State) (a : Nat) (xs : List Sample) : (s.writeSram a xs).latch = s.latch := rfl
@[simp] theorem State.writeSram_busy (s : State) (a : Nat) (xs : List Sample) : (s.writeSram a xs).busy = s.busy := rfl
@[simp] theorem State.writeSram_err (s : State) (a : Nat) (xs : List Sample) : (s.writeSram a xs).err = s.err := rfl
@[simp] theorem State.writeSram_chv (s : State) (a : Nat) (xs : List Sample) : (s.writeSram a xs).chv = s.chv := rfl
@[simp] theorem State.writeSram_errCode (s : State) (a : Nat) (xs : List Sample) : (s.writeSram a xs).errCode = s.errCode := rfl
@[simp] theorem State.writeSram_errCh (s : State) (a : Nat) (xs : List Sample) : (s.writeSram a xs).errCh = s.errCh := rfl
@[simp] theorem State.writeSram_errBlk (s : State) (a : Nat) (xs : List Sample) : (s.writeSram a xs).errBlk = s.errBlk := rfl
@[simp] theorem State.writeSram_chCount (s : State) (a : Nat) (xs : List Sample) : (s.writeSram a xs).chCount = s.chCount := rfl
@[simp] theorem State.writeSram_kind (s : State) (a : Nat) (xs : List Sample) : (s.writeSram a xs).kind = s.kind := rfl
@[simp] theorem State.writeSram_rawLen (s : State) (a : Nat) (xs : List Sample) : (s.writeSram a xs).rawLen = s.rawLen := rfl
@[simp] theorem State.writeSram_chSel (s : State) (a : Nat) (xs : List Sample) : (s.writeSram a xs).chSel = s.chSel := rfl
@[simp] theorem State.writeSram_ch (s : State) (a : Nat) (xs : List Sample) : (s.writeSram a xs).ch = s.ch := rfl
@[simp] theorem State.writeSram_bram (s : State) (a : Nat) (xs : List Sample) : (s.writeSram a xs).bram = s.bram := rfl
@[simp] theorem State.writeSram_chb (s : State) (a : Nat) (xs : List Sample) : (s.writeSram a xs).chb = s.chb := rfl
@[simp] theorem State.writeSram_sram (s : State) (a : Nat) (xs : List Sample) : (s.writeSram a xs).sram = Mem.setRange s.sram a xs := rfl
@[simp] theorem State.writeSram_fault (s : State) (a : Nat) (xs : List Sample) : (s.writeSram a xs).fault = s.fault := rfl
@[simp] theorem State.writeSram_script (s : State) (a : Nat) (xs : List Sample) : (s.writeSram a xs).script = s.script := rfl
@[simp] theorem State.writeSram_schedule (s : State) (a : Nat) (xs : List Sample) : (s.writeSram a xs).schedule = s.schedule := rfl
@[simp] theorem State.writeSram_reads (s : State) (a : Nat) (xs : List Sample) : (s.writeSram a xs).reads = s.reads := rfl

/-! ## reportError -/

@[simp] theorem State.reportError_params (s : State) (e : ErrInfo) : (s.reportError e).params = s.params := rfl
@[simp] theorem State.reportError_latch (s : State) (e : ErrInfo) : (s.reportError e).latch = s.latch := rfl
@[simp] theorem State.reportError_busy (s : State) (e : ErrInfo) : (s.reportError e).busy = s.busy := rfl
@[simp] theorem State.reportError_err (s : State) (e : ErrInfo) : (s.reportError e).err = true := rfl
@[simp] theorem State.reportError_chv (s : State) (e : ErrInfo) : (s.reportError e).chv = s.chv := rfl
@[simp] theorem State.reportError_errCode (s : State) (e : ErrInfo) : (s.reportError e).errCode = e.code := rfl
@[simp] theorem State.reportError_errCh (s : State) (e : ErrInfo) : (s.reportError e).errCh = e.ch := rfl
@[simp] theorem State.reportError_errBlk (s : State) (e : ErrInfo) : (s.reportError e).errBlk = e.blk := rfl
@[simp] theorem State.reportError_chCount (s : State) (e : ErrInfo) : (s.reportError e).chCount = s.chCount := rfl
@[simp] theorem State.reportError_kind (s : State) (e : ErrInfo) : (s.reportError e).kind = s.kind := rfl
@[simp] theorem State.reportError_rawLen (s : State) (e : ErrInfo) : (s.reportError e).rawLen = s.rawLen := rfl
@[simp] theorem State.reportError_chSel (s : State) (e : ErrInfo) : (s.reportError e).chSel = s.chSel := rfl
@[simp] theorem State.reportError_ch (s : State) (e : ErrInfo) : (s.reportError e).ch = s.ch := rfl
@[simp] theorem State.reportError_bram (s : State) (e : ErrInfo) : (s.reportError e).bram = s.bram := rfl
@[simp] theorem State.reportError_chb (s : State) (e : ErrInfo) : (s.reportError e).chb = s.chb := rfl
@[simp] theorem State.reportError_sram (s : State) (e : ErrInfo) : (s.reportError e).sram = s.sram := rfl
@[simp] theorem State.reportError_fault (s : State) (e : ErrInfo) : (s.reportError e).fault = s.fault := rfl
@[simp] theorem State.reportError_script (s : State) (e : ErrInfo) : (s.reportError e).script = s.script := rfl
@[simp] theorem State.reportError_schedule (s : State) (e : ErrInfo) : (s.reportError e).schedule = s.schedule := rfl
@[simp] theorem State.reportError_reads (s : State) (e : ErrInfo) : (s.reportError e).reads = s.reads := rfl

/-! ## clearError -/

@[simp] theorem State.clearError_params (s : State) : (s.clearError).params = s.params := rfl
@[simp] theorem State.clearError_latch (s : State) : (s.clearError).latch = s.latch := rfl
@[simp] theorem State.clearError_busy (s : State) : (s.clearError).busy = s.busy := rfl
@[simp] theorem State.clearError_err (s : State) : (s.clearError).err = false := rfl
@[simp] theorem State.clearError_chv (s : State) : (s.clearError).chv = s.chv := rfl
@[simp] theorem State.clearError_errCode (s : State) : (s.clearError).errCode = .ok := rfl
@[simp] theorem State.clearError_errCh (s : State) : (s.clearError).errCh = 0#8 := rfl
@[simp] theorem State.clearError_errBlk (s : State) : (s.clearError).errBlk = 0#32 := rfl
@[simp] theorem State.clearError_chCount (s : State) : (s.clearError).chCount = s.chCount := rfl
@[simp] theorem State.clearError_kind (s : State) : (s.clearError).kind = s.kind := rfl
@[simp] theorem State.clearError_rawLen (s : State) : (s.clearError).rawLen = s.rawLen := rfl
@[simp] theorem State.clearError_chSel (s : State) : (s.clearError).chSel = s.chSel := rfl
@[simp] theorem State.clearError_ch (s : State) : (s.clearError).ch = s.ch := rfl
@[simp] theorem State.clearError_bram (s : State) : (s.clearError).bram = s.bram := rfl
@[simp] theorem State.clearError_chb (s : State) : (s.clearError).chb = s.chb := rfl
@[simp] theorem State.clearError_sram (s : State) : (s.clearError).sram = s.sram := rfl
@[simp] theorem State.clearError_fault (s : State) : (s.clearError).fault = s.fault := rfl
@[simp] theorem State.clearError_script (s : State) : (s.clearError).script = s.script := rfl
@[simp] theorem State.clearError_schedule (s : State) : (s.clearError).schedule = s.schedule := rfl
@[simp] theorem State.clearError_reads (s : State) : (s.clearError).reads = s.reads := rfl

/-! ## complete -/

@[simp] theorem State.complete_params (s : State) : (s.complete).params = s.params := rfl
@[simp] theorem State.complete_latch (s : State) : (s.complete).latch = s.latch := rfl
@[simp] theorem State.complete_busy (s : State) : (s.complete).busy = false := rfl
@[simp] theorem State.complete_err (s : State) : (s.complete).err = false := rfl
@[simp] theorem State.complete_chv (s : State) : (s.complete).chv = s.chv := rfl
@[simp] theorem State.complete_errCode (s : State) : (s.complete).errCode = .ok := rfl
@[simp] theorem State.complete_errCh (s : State) : (s.complete).errCh = 0#8 := rfl
@[simp] theorem State.complete_errBlk (s : State) : (s.complete).errBlk = 0#32 := rfl
@[simp] theorem State.complete_chCount (s : State) : (s.complete).chCount = s.chCount := rfl
@[simp] theorem State.complete_kind (s : State) : (s.complete).kind = s.kind := rfl
@[simp] theorem State.complete_rawLen (s : State) : (s.complete).rawLen = s.rawLen := rfl
@[simp] theorem State.complete_chSel (s : State) : (s.complete).chSel = s.chSel := rfl
@[simp] theorem State.complete_ch (s : State) : (s.complete).ch = s.ch := rfl
@[simp] theorem State.complete_bram (s : State) : (s.complete).bram = s.bram := rfl
@[simp] theorem State.complete_chb (s : State) : (s.complete).chb = s.chb := rfl
@[simp] theorem State.complete_sram (s : State) : (s.complete).sram = s.sram := rfl
@[simp] theorem State.complete_fault (s : State) : (s.complete).fault = s.fault := rfl
@[simp] theorem State.complete_script (s : State) : (s.complete).script = s.script := rfl
@[simp] theorem State.complete_schedule (s : State) : (s.complete).schedule = s.schedule := rfl
@[simp] theorem State.complete_reads (s : State) : (s.complete).reads = s.reads := rfl

/-! ## errorCompletion -/

@[simp] theorem State.errorCompletion_params (s : State) (e : ErrInfo) : (s.errorCompletion e).params = s.params := rfl
@[simp] theorem State.errorCompletion_latch (s : State) (e : ErrInfo) : (s.errorCompletion e).latch = s.latch := rfl
@[simp] theorem State.errorCompletion_busy (s : State) (e : ErrInfo) : (s.errorCompletion e).busy = false := rfl
@[simp] theorem State.errorCompletion_err (s : State) (e : ErrInfo) : (s.errorCompletion e).err = true := rfl
@[simp] theorem State.errorCompletion_chv (s : State) (e : ErrInfo) : (s.errorCompletion e).chv = s.chv := rfl
@[simp] theorem State.errorCompletion_errCode (s : State) (e : ErrInfo) : (s.errorCompletion e).errCode = e.code := rfl
@[simp] theorem State.errorCompletion_errCh (s : State) (e : ErrInfo) : (s.errorCompletion e).errCh = e.ch := rfl
@[simp] theorem State.errorCompletion_errBlk (s : State) (e : ErrInfo) : (s.errorCompletion e).errBlk = e.blk := rfl
@[simp] theorem State.errorCompletion_chCount (s : State) (e : ErrInfo) : (s.errorCompletion e).chCount = s.chCount := rfl
@[simp] theorem State.errorCompletion_kind (s : State) (e : ErrInfo) : (s.errorCompletion e).kind = s.kind := rfl
@[simp] theorem State.errorCompletion_rawLen (s : State) (e : ErrInfo) : (s.errorCompletion e).rawLen = s.rawLen := rfl
@[simp] theorem State.errorCompletion_chSel (s : State) (e : ErrInfo) : (s.errorCompletion e).chSel = s.chSel := rfl
@[simp] theorem State.errorCompletion_ch (s : State) (e : ErrInfo) : (s.errorCompletion e).ch = s.ch := rfl
@[simp] theorem State.errorCompletion_bram (s : State) (e : ErrInfo) : (s.errorCompletion e).bram = s.bram := rfl
@[simp] theorem State.errorCompletion_chb (s : State) (e : ErrInfo) : (s.errorCompletion e).chb = s.chb := rfl
@[simp] theorem State.errorCompletion_sram (s : State) (e : ErrInfo) : (s.errorCompletion e).sram = s.sram := rfl
@[simp] theorem State.errorCompletion_fault (s : State) (e : ErrInfo) : (s.errorCompletion e).fault = s.fault := rfl
@[simp] theorem State.errorCompletion_script (s : State) (e : ErrInfo) : (s.errorCompletion e).script = s.script := rfl
@[simp] theorem State.errorCompletion_schedule (s : State) (e : ErrInfo) : (s.errorCompletion e).schedule = s.schedule := rfl
@[simp] theorem State.errorCompletion_reads (s : State) (e : ErrInfo) : (s.errorCompletion e).reads = s.reads := rfl

/-! ## answer -/

@[simp] theorem State.answer_params (s : State) (v : Word) : (s.answer v).params = s.params := rfl
@[simp] theorem State.answer_latch (s : State) (v : Word) : (s.answer v).latch = s.latch := rfl
@[simp] theorem State.answer_busy (s : State) (v : Word) : (s.answer v).busy = s.busy := rfl
@[simp] theorem State.answer_err (s : State) (v : Word) : (s.answer v).err = s.err := rfl
@[simp] theorem State.answer_chv (s : State) (v : Word) : (s.answer v).chv = s.chv := rfl
@[simp] theorem State.answer_errCode (s : State) (v : Word) : (s.answer v).errCode = s.errCode := rfl
@[simp] theorem State.answer_errCh (s : State) (v : Word) : (s.answer v).errCh = s.errCh := rfl
@[simp] theorem State.answer_errBlk (s : State) (v : Word) : (s.answer v).errBlk = s.errBlk := rfl
@[simp] theorem State.answer_chCount (s : State) (v : Word) : (s.answer v).chCount = s.chCount := rfl
@[simp] theorem State.answer_kind (s : State) (v : Word) : (s.answer v).kind = s.kind := rfl
@[simp] theorem State.answer_rawLen (s : State) (v : Word) : (s.answer v).rawLen = s.rawLen := rfl
@[simp] theorem State.answer_chSel (s : State) (v : Word) : (s.answer v).chSel = s.chSel := rfl
@[simp] theorem State.answer_ch (s : State) (v : Word) : (s.answer v).ch = s.ch := rfl
@[simp] theorem State.answer_bram (s : State) (v : Word) : (s.answer v).bram = s.bram := rfl
@[simp] theorem State.answer_chb (s : State) (v : Word) : (s.answer v).chb = s.chb := rfl
@[simp] theorem State.answer_sram (s : State) (v : Word) : (s.answer v).sram = s.sram := rfl
@[simp] theorem State.answer_fault (s : State) (v : Word) : (s.answer v).fault = s.fault := rfl
@[simp] theorem State.answer_script (s : State) (v : Word) : (s.answer v).script = s.script := rfl
@[simp] theorem State.answer_schedule (s : State) (v : Word) : (s.answer v).schedule = s.schedule := rfl
@[simp] theorem State.answer_reads (s : State) (v : Word) : (s.answer v).reads = v :: s.reads := rfl

/-! ## writeCmd -/

@[simp] theorem writeCmd_params (s : State) (w : Word) : (writeCmd s w).params = s.params := rfl
@[simp] theorem writeCmd_latch (s : State) (w : Word) : (writeCmd s w).latch = w := rfl
@[simp] theorem writeCmd_busy (s : State) (w : Word) : (writeCmd s w).busy = true := rfl
@[simp] theorem writeCmd_err (s : State) (w : Word) : (writeCmd s w).err = s.err := rfl
@[simp] theorem writeCmd_chv (s : State) (w : Word) : (writeCmd s w).chv = s.chv := rfl
@[simp] theorem writeCmd_errCode (s : State) (w : Word) : (writeCmd s w).errCode = s.errCode := rfl
@[simp] theorem writeCmd_errCh (s : State) (w : Word) : (writeCmd s w).errCh = s.errCh := rfl
@[simp] theorem writeCmd_errBlk (s : State) (w : Word) : (writeCmd s w).errBlk = s.errBlk := rfl
@[simp] theorem writeCmd_chCount (s : State) (w : Word) : (writeCmd s w).chCount = s.chCount := rfl
@[simp] theorem writeCmd_kind (s : State) (w : Word) : (writeCmd s w).kind = s.kind := rfl
@[simp] theorem writeCmd_rawLen (s : State) (w : Word) : (writeCmd s w).rawLen = s.rawLen := rfl
@[simp] theorem writeCmd_chSel (s : State) (w : Word) : (writeCmd s w).chSel = s.chSel := rfl
@[simp] theorem writeCmd_ch (s : State) (w : Word) : (writeCmd s w).ch = s.ch := rfl
@[simp] theorem writeCmd_bram (s : State) (w : Word) : (writeCmd s w).bram = s.bram := rfl
@[simp] theorem writeCmd_chb (s : State) (w : Word) : (writeCmd s w).chb = s.chb := rfl
@[simp] theorem writeCmd_sram (s : State) (w : Word) : (writeCmd s w).sram = s.sram := rfl
@[simp] theorem writeCmd_fault (s : State) (w : Word) : (writeCmd s w).fault = s.fault := rfl
@[simp] theorem writeCmd_script (s : State) (w : Word) : (writeCmd s w).script = s.script := rfl
@[simp] theorem writeCmd_schedule (s : State) (w : Word) : (writeCmd s w).schedule = s.schedule := rfl
@[simp] theorem writeCmd_reads (s : State) (w : Word) : (writeCmd s w).reads = s.reads := rfl

/-! ## writeRawLen -/

@[simp] theorem writeRawLen_params (s : State) (w : Word) : (writeRawLen s w).params = s.params := rfl
@[simp] theorem writeRawLen_latch (s : State) (w : Word) : (writeRawLen s w).latch = s.latch := rfl
@[simp] theorem writeRawLen_busy (s : State) (w : Word) : (writeRawLen s w).busy = s.busy := rfl
@[simp] theorem writeRawLen_err (s : State) (w : Word) : (writeRawLen s w).err = s.err := rfl
@[simp] theorem writeRawLen_chv (s : State) (w : Word) : (writeRawLen s w).chv = false := rfl
@[simp] theorem writeRawLen_errCode (s : State) (w : Word) : (writeRawLen s w).errCode = s.errCode := rfl
@[simp] theorem writeRawLen_errCh (s : State) (w : Word) : (writeRawLen s w).errCh = s.errCh := rfl
@[simp] theorem writeRawLen_errBlk (s : State) (w : Word) : (writeRawLen s w).errBlk = s.errBlk := rfl
@[simp] theorem writeRawLen_chCount (s : State) (w : Word) : (writeRawLen s w).chCount = s.chCount := rfl
@[simp] theorem writeRawLen_kind (s : State) (w : Word) : (writeRawLen s w).kind = s.kind := rfl
@[simp] theorem writeRawLen_rawLen (s : State) (w : Word) : (writeRawLen s w).rawLen = w := rfl
@[simp] theorem writeRawLen_chSel (s : State) (w : Word) : (writeRawLen s w).chSel = s.chSel := rfl
@[simp] theorem writeRawLen_ch (s : State) (w : Word) : (writeRawLen s w).ch = s.ch := rfl
@[simp] theorem writeRawLen_bram (s : State) (w : Word) : (writeRawLen s w).bram = s.bram := rfl
@[simp] theorem writeRawLen_chb (s : State) (w : Word) : (writeRawLen s w).chb = s.chb := rfl
@[simp] theorem writeRawLen_sram (s : State) (w : Word) : (writeRawLen s w).sram = s.sram := rfl
@[simp] theorem writeRawLen_fault (s : State) (w : Word) : (writeRawLen s w).fault = s.fault := rfl
@[simp] theorem writeRawLen_script (s : State) (w : Word) : (writeRawLen s w).script = s.script := rfl
@[simp] theorem writeRawLen_schedule (s : State) (w : Word) : (writeRawLen s w).schedule = s.schedule := rfl
@[simp] theorem writeRawLen_reads (s : State) (w : Word) : (writeRawLen s w).reads = s.reads := rfl

/-! ## Reading a channel slot after writing one -/

theorem State.chan_setChan_same {s : State} {c : Nat} (x : Chan) (h : c < s.ch.length) : (s.setChan c x).chan c = x := by
  simp [State.chan, h]

theorem State.chan_setChan_other (s : State) {c d : Nat} (x : Chan) (h : d ≠ c) : (s.setChan c x).chan d = s.chan d := by
  simp [State.chan, List.getD_eq_getElem?_getD, h.symm]

/-- A slot depends on the list of slots alone. -/
theorem State.chan_congr {s t : State} (h : s.ch = t.ch) (c : Nat) : s.chan c = t.chan c := by
  simp [State.chan, h]

/-- A channel array depends on the channel store alone. -/
theorem State.chbOf_congr {s t : State} (h : s.chb = t.chb) (c : Nat) : s.chbOf c = t.chbOf c := by
  simp [State.chbOf, h]

theorem State.chbOf_writeChb_same {s : State} {c : Nat} (a : Nat) (b : List Byte) (h : c < s.chb.length) :
    (s.writeChb c a b).chbOf c = Mem.setRange (s.chbOf c) a b := by
  simp [State.chbOf, h]

theorem State.chbOf_writeChb_other (s : State) {c d : Nat} (a : Nat) (b : List Byte) (h : d ≠ c) :
    (s.writeChb c a b).chbOf d = s.chbOf d := by
  simp [State.chbOf, List.getD_eq_getElem?_getD, h.symm]

@[simp] theorem State.setChan_setChan (s : State) (c : Nat) (x y : Chan) : (s.setChan c x).setChan c y = s.setChan c y := by
  simp [State.setChan]

theorem State.setChan_comm (s : State) {c d : Nat} (x y : Chan) (h : c ≠ d) :
    (s.setChan c x).setChan d y = (s.setChan d y).setChan c x := by
  simp [State.setChan, List.set_comm _ _ h]

/-- The registers the sizes are computed from decide them. -/
theorem State.sizes_congr {s t : State} (hc : s.chCount = t.chCount) (hk : s.kind = t.kind) (hl : s.rawLen = t.rawLen) :
    s.nch = t.nch ∧ s.len = t.len ∧ s.sliceLen = t.sliceLen ∧ s.nblk = t.nblk ∧ s.nsamp = t.nsamp := by
  have h1 : s.nch = t.nch := by simp [State.nch, hc]
  have h2 : s.len = t.len := by simp [State.len, hl]
  have h3 : s.sliceLen = t.sliceLen := by rw [State.sliceLen, State.sliceLen, h1, h2]
  have h4 : s.nblk = t.nblk := by rw [State.nblk, State.nblk, h3]
  exact ⟨h1, h2, h3, h4, by rw [State.nsamp, State.nsamp, h3, h4, hk]⟩

end Sys2Proof.Machine
end

