-- ==== Sys2Proof/Laws/Ops.lean ====
section
/-! SUPPORT. What the shared operations can do, said once: work on a copy, the plan of a DEC or ENC, the block loops, one command
and one step. -/

namespace Sys2Proof.Machine

/-! ## Work -/

@[simp] theorem Work.andThen_ok (s : State) (f : State → Work) : (Work.ok s).andThen f = f s := rfl
@[simp] theorem Work.andThen_err (e : ErrInfo) (f : State → Work) : (Work.err e).andThen f = .err e := rfl
@[simp] theorem Work.andThen_fault (r : Fault) (f : State → Work) : (Work.fault r).andThen f = .fault r := rfl

/-- Work that goes on and ends well did so in both halves. -/
theorem Work.andThen_eq_ok {w : Work} {f : State → Work} {t : State} (h : w.andThen f = .ok t) :
    ∃ s, w = .ok s ∧ f s = .ok t := by
  cases w with
  | ok s => exact ⟨s, rfl, h⟩
  | err e => cases h
  | fault r => cases h

/-- Work that ends in an error met it in one of the halves. -/
theorem Work.andThen_eq_err {w : Work} {f : State → Work} {e : ErrInfo} (h : w.andThen f = .err e) :
    w = .err e ∨ ∃ s, w = .ok s ∧ f s = .err e := by
  cases w with
  | ok s => exact .inr ⟨s, rfl, h⟩
  | err e' => exact .inl h
  | fault r => cases h

/-- A commit answers a next state in two ways: the finished copy, or the original with an error reported (R237). -/
theorem Work.commit_eq_next {s t : State} {w : Work} (h : w.commit s = .next t) :
    (∃ u, w = .ok u ∧ t = u.complete) ∨ (∃ e, w = .err e ∧ t = s.errorCompletion e) := by
  cases w with
  | ok u => cases h; exact .inl ⟨u, rfl, rfl⟩
  | err e => cases h; exact .inr ⟨e, rfl, rfl⟩
  | fault r => cases h

theorem Work.commit_ne_refused (s : State) (w : Work) (r : Refusal) : w.commit s ≠ .refused r := by
  cases w <;> simp [Work.commit]

/-! ## The block loops keep what a block keeps -/

/-- A relation that each block and each cursor move keeps is kept by all the blocks of a command. -/
theorem forChannels_induct (R : State → State → Prop) (f : Nat → Nat → State → Work)
    (refl : ∀ s, R s s) (trans : ∀ s t u, R s t → R t u → R s u)
    (block : ∀ c k s t, f c k s = .ok t → R s t) (cursor : ∀ c k s, R s (s.setCursor c k)) :
    ∀ (plan : List (Nat × Nat)) (s t : State), forChannels f plan s = .ok t → R s t := by
  have blocks : ∀ c n k s t, forBlocks (f c) n k s = .ok t → R s t := by
    intro c n
    induction n with
    | zero => intro k s t h; cases h; exact refl s
    | succ n ih =>
      intro k s t h
      obtain ⟨u, hu, ht⟩ := Work.andThen_eq_ok h
      exact trans _ _ _ (block c k s u hu) (ih _ _ _ ht)
  intro plan
  induction plan with
  | nil => intro s t h; cases h; exact refl s
  | cons p plan ih =>
    intro s t h
    obtain ⟨u, hu, ht⟩ := Work.andThen_eq_ok h
    obtain ⟨v, hv, hu'⟩ := Work.andThen_eq_ok hu
    cases hu'
    exact trans _ _ _ (trans _ _ _ (blocks _ _ _ _ _ hv) (cursor _ _ _)) (ih _ _ ht)

/-- What one block of a DEC can do: one of the two codecs, with its own writes (R236). -/
theorem decBlock_eq_ok {c k : Nat} {s t : State} (h : decBlock c k s = .ok t) :
    ∃ blk, Mem.getRange (s.chbOf c) (16 * k) 16 = some blk ∧
      ((s.kind = .predictive ∧ ∃ out hist, pDecodeBlock (s.hist c) blk = some (out, hist) ∧
          t = (s.setHist c hist).writeSram (s.sampleIndex c (30 * k)) (out.map toSample)) ∨
        (s.kind ≠ .predictive ∧ ∃ out a, Config.adDecode (s.chan c).ast blk = some (out, a) ∧
          t = (s.setAst c a).writeSram (s.sampleIndex c (Config.spbA * k)) out.toList)) := by
  unfold decBlock at h
  rcases hblk : Mem.getRange (s.chbOf c) (16 * k) 16 with _ | blk <;> simp only [hblk] at h
  · cases h
  · refine ⟨blk, rfl, ?_⟩
    by_cases hk : s.kind = .predictive
    · rw [if_pos hk] at h
      rcases hd : pDecodeBlock (s.hist c) blk with _ | ⟨out, hist⟩ <;> simp only [hd] at h
      · cases h
      · exact .inl ⟨hk, out, hist, rfl, (Work.ok.inj h).symm⟩
    · rw [if_neg hk] at h
      rcases hd : Config.adDecode (s.chan c).ast blk with _ | ⟨out, a⟩ <;> simp only [hd] at h
      · cases h
      · exact .inr ⟨hk, out, a, rfl, (Work.ok.inj h).symm⟩

/-- What one block of an ENC can do: one of the two codecs, with its own writes (R240). -/
theorem encBlock_eq_ok {c k : Nat} {s t : State} (h : encBlock c k s = .ok t) :
    (s.kind = .predictive ∧ ∃ x, Mem.getRange s.sram (s.sampleIndex c (30 * k)) 30 = some x ∧
        t = (s.setHist c (pEncodeBlock (s.hist c) (signedSamples x)).hist).writeChb c (16 * k)
          (pEncodeBlock (s.hist c) (signedSamples x)).block.toList) ∨
      (s.kind ≠ .predictive ∧
        ∃ x b a, Mem.getRange s.sram (s.sampleIndex c (Config.spbA * k)) Config.spbA = some x ∧
          Config.adEncode (s.chan c).ast x = some (b, a) ∧ t = (s.setAst c a).writeChb c (16 * k) b.toList) := by
  unfold encBlock at h
  by_cases hk : s.kind = .predictive
  · rw [if_pos hk] at h
    rcases hx : Mem.getRange s.sram (s.sampleIndex c (30 * k)) 30 with _ | x <;> simp only [hx] at h
    · cases h
    · exact .inl ⟨hk, x, rfl, (Work.ok.inj h).symm⟩
  · rw [if_neg hk] at h
    rcases hx : Mem.getRange s.sram (s.sampleIndex c (Config.spbA * k)) Config.spbA with _ | x <;> simp only [hx] at h
    · cases h
    · rcases he : Config.adEncode (s.chan c).ast x with _ | ⟨b, a⟩ <;> simp only [he] at h
      · cases h
      · exact .inr ⟨hk, x, b, a, rfl, he, (Work.ok.inj h).symm⟩

/-- The errors a block can end in. -/
theorem decBlock_eq_err {c k : Nat} {s : State} {e : ErrInfo} (h : decBlock c k s = .err e) :
    e = .at .invalidBlock c k ∨ e = .at .adaptiveError c k := by
  unfold decBlock at h
  rcases hblk : Mem.getRange (s.chbOf c) (16 * k) 16 with _ | blk <;> simp only [hblk] at h
  · cases h
  · by_cases hk : s.kind = .predictive
    · rw [if_pos hk] at h
      rcases hd : pDecodeBlock (s.hist c) blk with _ | ⟨out, hist⟩ <;> simp only [hd] at h
      · exact .inl (Work.err.inj h).symm
      · cases h
    · rw [if_neg hk] at h
      rcases hd : Config.adDecode (s.chan c).ast blk with _ | ⟨out, a⟩ <;> simp only [hd] at h
      · exact .inr (Work.err.inj h).symm
      · cases h

theorem encBlock_eq_err {c k : Nat} {s : State} {e : ErrInfo} (h : encBlock c k s = .err e) :
    e = .at .adaptiveError c k := by
  unfold encBlock at h
  by_cases hk : s.kind = .predictive
  · rw [if_pos hk] at h
    rcases hx : Mem.getRange s.sram (s.sampleIndex c (30 * k)) 30 with _ | x <;> simp only [hx] at h <;> cases h
  · rw [if_neg hk] at h
    rcases hx : Mem.getRange s.sram (s.sampleIndex c (Config.spbA * k)) Config.spbA with _ | x <;> simp only [hx] at h
    · cases h
    · rcases he : Config.adEncode (s.chan c).ast x with _ | ⟨b, a⟩ <;> simp only [he] at h
      · exact (Work.err.inj h).symm
      · cases h

/-- An error of the block loops is an error of some block. -/
theorem forChannels_eq_err (f : Nat → Nat → State → Work) (P : ErrInfo → Prop)
    (block : ∀ c k s e, f c k s = .err e → P e) :
    ∀ (plan : List (Nat × Nat)) (s : State) (e : ErrInfo), forChannels f plan s = .err e → P e := by
  have blocks : ∀ c n k s e, forBlocks (f c) n k s = .err e → P e := by
    intro c n
    induction n with
    | zero => intro k s e h; cases h
    | succ n ih =>
      intro k s e h
      rcases Work.andThen_eq_err h with h | ⟨u, _, h⟩
      · exact block _ _ _ _ h
      · exact ih _ _ _ h
  intro plan
  induction plan with
  | nil => intro s e h; cases h
  | cons p plan ih =>
    intro s e h
    rcases Work.andThen_eq_err h with h | ⟨u, _, h⟩
    · rcases Work.andThen_eq_err h with h | ⟨v, _, h⟩
      · exact blocks _ _ _ _ _ h
      · cases h
    · exact ih _ _ h

/-- A DEC writes channel slots and SRAM, and nothing else, before its status (R236). -/
theorem decChannels_frame {plan : List (Nat × Nat)} {s t : State} (h : forChannels decBlock plan s = .ok t) :
    t = { s with ch := t.ch, sram := t.sram } := by
  refine forChannels_induct (fun s t => t = { s with ch := t.ch, sram := t.sram }) decBlock
    (fun _ => rfl) (fun s t u h1 h2 => ?_) (fun c k s t h => ?_) (fun _ _ _ => rfl) plan s t h
  · rw [h1] at h2; exact h2
  · obtain ⟨blk, -, ⟨-, out, hist, -, rfl⟩ | ⟨-, out, a, -, rfl⟩⟩ := decBlock_eq_ok h <;> rfl

/-- An ENC writes channel slots and CHB, and nothing else, before its status (R240). -/
theorem encChannels_frame {plan : List (Nat × Nat)} {s t : State} (h : forChannels encBlock plan s = .ok t) :
    t = { s with ch := t.ch, chb := t.chb } := by
  refine forChannels_induct (fun s t => t = { s with ch := t.ch, chb := t.chb }) encBlock
    (fun _ => rfl) (fun s t u h1 h2 => ?_) (fun c k s t h => ?_) (fun _ _ _ => rfl) plan s t h
  · rw [h1] at h2; exact h2
  · obtain ⟨-, x, -, rfl⟩ | ⟨-, x, b, a, -, -, rfl⟩ := encBlock_eq_ok h <;> rfl

/-! ## The plan -/

/-- The checks of R231 pass exactly in the states that `CodecReady` names, and the plan then holds each selected channel with its
count. -/
theorem resolveCount_eq (s : State) (cnt : Count) (c : Nat) :
    (s.fits cnt c → s.resolveCount cnt c = .ok (s.countFor cnt c)) ∧
    (¬ s.fits cnt c → s.resolveCount cnt c = .error (.at .cursorOverrun c (s.cursorOf c))) := by
  unfold State.resolveCount State.fits State.countFor State.cursorOf
  cases cnt <;> dsimp only <;> refine ⟨fun h => ?_, fun h => ?_⟩
  · rw [if_neg (by omega), if_neg (by omega)]
  · rw [if_pos (by omega)]
  · rw [if_neg (by omega), if_neg (by omega)]
  · split
    · rfl
    · rw [if_pos (by omega)]

theorem resolveCounts_ok {s : State} {cnt : Count} {cs : List Nat} (h : ∀ c ∈ cs, s.fits cnt c) :
    s.resolveCounts cnt cs = .ok (cs.map (fun c => (c, s.countFor cnt c))) := by
  induction cs with
  | nil => rfl
  | cons c cs ih =>
    rw [State.resolveCounts, (resolveCount_eq s cnt c).1 (h c (by simp)), ih (fun d hd => h d (by simp [hd]))]
    rfl

theorem resolveCounts_error {s : State} {cnt : Count} {before after : List Nat} {c : Nat} (h : ∀ d ∈ before, s.fits cnt d)
    (hc : ¬ s.fits cnt c) :
    s.resolveCounts cnt (before ++ c :: after) = .error (.at .cursorOverrun c (s.cursorOf c)) := by
  induction before with
  | nil => rw [List.nil_append, State.resolveCounts, (resolveCount_eq s cnt c).2 hc]
  | cons d before ih =>
    rw [List.cons_append, State.resolveCounts, (resolveCount_eq s cnt d).1 (h d (by simp)),
      ih (fun x hx => h x (by simp [hx]))]

/-- A plan was made only of channels that fit. -/
theorem fits_of_resolveCounts {s : State} {cnt : Count} {cs : List Nat} {plan : List (Nat × Nat)}
    (h : s.resolveCounts cnt cs = .ok plan) : ∀ c ∈ cs, s.fits cnt c := by
  induction cs generalizing plan with
  | nil => simp
  | cons c cs ih =>
    rw [State.resolveCounts] at h
    by_cases hf : s.fits cnt c
    · rw [(resolveCount_eq s cnt c).1 hf] at h
      rcases hr : s.resolveCounts cnt cs with e | p
      · simp [hr] at h
      · intro d hd
        rcases List.mem_cons.1 hd with rfl | hd
        · exact hf
        · exact ih hr d hd
    · simp [(resolveCount_eq s cnt c).2 hf] at h

theorem selectChannels_eq (s : State) (sel : ChanSel) :
    ((∀ c ∈ s.selected sel, c < s.nch) → s.selectChannels sel = .ok (s.selected sel)) ∧
    (∀ c, sel = .one c → s.nch ≤ c → s.selectChannels sel = .error (.at .badChannel c 0)) := by
  cases sel with
  | all => simp [State.selectChannels, State.selected]
  | one c =>
    refine ⟨fun h => ?_, fun d hd hn => ?_⟩
    · rw [State.selectChannels, if_pos (h c (by simp [State.selected]))]; rfl
    · cases hd; rw [State.selectChannels, if_neg (by omega)]

theorem codecUsable_iff (s : State) : s.codecUsable = true ↔
    (1 ≤ s.nch ∧ s.kind ≠ .none ∧ s.len ≤ s.params.bramSize ∧ s.nch * s.nsamp ≤ s.params.sramWords) := by
  simp only [State.codecUsable, Bool.and_eq_true, decide_eq_true_eq]
  tauto

/-- Ready means planned. -/
theorem codecPlan_of_ready {s : State} {sel : ChanSel} {cnt : Count} (h : s.CodecReady sel cnt) :
    s.codecPlan sel cnt = .ok ((s.selected sel).map (fun c => (c, s.countFor cnt c))) := by
  rw [State.codecPlan, if_pos ((codecUsable_iff s).2 ⟨h.configured.1, h.configured.2, h.bramHolds, h.sramHolds⟩),
    (selectChannels_eq s sel).1 h.channelsExist]
  simp only [h.imageValid, if_true]
  exact resolveCounts_ok h.countsFit

/-- Planned means ready. -/
theorem ready_of_codecPlan {s : State} {sel : ChanSel} {cnt : Count} {plan : List (Nat × Nat)}
    (h : s.codecPlan sel cnt = .ok plan) : s.CodecReady sel cnt := by
  rw [State.codecPlan] at h
  split at h
  · next hu =>
    have hu' := (codecUsable_iff s).1 hu
    by_cases hsel : ∀ c ∈ s.selected sel, c < s.nch
    · rw [(selectChannels_eq s sel).1 hsel] at h
      simp only at h
      split at h
      · next hv => exact ⟨⟨hu'.1, hu'.2.1⟩, hu'.2.2.1, hu'.2.2.2, hsel, hv, fits_of_resolveCounts h⟩
      · cases h
    · cases sel with
      | all => exact absurd (by simp [State.selected]) hsel
      | one c =>
        rw [(selectChannels_eq s (.one c)).2 c rfl (by simpa [State.selected] using hsel)] at h
        cases h
  · cases h

/-- The errors that the checks end in. -/
theorem codecPlan_error_code {s : State} {sel : ChanSel} {cnt : Count} {e : ErrInfo} (h : s.codecPlan sel cnt = .error e) :
    e.code ≠ .ok := by
  have counts : ∀ cs e, s.resolveCounts cnt cs = .error e → e.code ≠ .ok := by
    intro cs
    induction cs with
    | nil => intro e h; cases h
    | cons c cs ih =>
      intro e h
      rw [State.resolveCounts] at h
      by_cases hf : s.fits cnt c
      · rw [(resolveCount_eq s cnt c).1 hf] at h
        rcases hr : s.resolveCounts cnt cs with e' | p
        · simp only [hr] at h; cases h; exact ih _ hr
        · simp [hr] at h
      · rw [(resolveCount_eq s cnt c).2 hf] at h
        cases h; simp [ErrInfo.at]
  rw [State.codecPlan] at h
  split at h
  · split at h
    · next e' hs =>
      cases h
      cases sel with
      | all => cases hs
      | one c =>
        rw [State.selectChannels] at hs
        split at hs <;> cases hs
        simp [ErrInfo.at]
    · split at h
      · exact counts _ _ h
      · cases h; simp [ErrInfo.plain]
  · cases h; simp [ErrInfo.plain]

/-! ## One command -/

/-- A codec command answers a next state in two ways: every planned block done and committed, or an error reported and nothing
else (R237). -/
theorem codecCommand_eq_next {f : Nat → Nat → State → Work} {sel : ChanSel} {cnt : Count} {s t : State}
    (h : codecCommand f sel cnt s = .next t) :
    (∃ plan u, s.codecPlan sel cnt = .ok plan ∧ forChannels f plan s = .ok u ∧ t = u.complete) ∨
    (∃ e, t = s.errorCompletion e ∧
      (s.codecPlan sel cnt = .error e ∨ ∃ plan, s.codecPlan sel cnt = .ok plan ∧ forChannels f plan s = .err e)) := by
  rw [codecCommand] at h
  split at h
  · next e he => cases h; exact .inr ⟨e, rfl, .inl he⟩
  · next plan hp =>
    rcases Work.commit_eq_next h with ⟨u, hu, rfl⟩ | ⟨e, he, rfl⟩
    · exact .inl ⟨plan, u, hp, hu, rfl⟩
    · exact .inr ⟨e, rfl, .inr ⟨plan, hp, he⟩⟩

/-- What a command can do when it answers a next state: its own effect completed, or an error completion with a code other than OK. -/
theorem exec_cases {i : Instr} {s t : State} (h : exec i s = .next t) :
    (∃ u, t = u.complete ∧
      ((i = .nop ∧ u = s) ∨
       (i = .chreset ∧ u = { s with ch := List.replicate s.params.nchMax Chan.fresh }) ∨
       (i = .deintl ∧ s.interleaverUsable = true ∧
         u = { s with chb := deinterleave s.bram s.nch s.sliceLen, chv := true }) ∨
       (i = .intl ∧ s.interleaverUsable = true ∧ s.chv = true ∧
         u = { s with bram := interleave s.chb s.bram s.nch s.sliceLen }) ∨
       (∃ sel cnt plan, i = .dec sel cnt ∧ s.codecPlan sel cnt = .ok plan ∧ forChannels decBlock plan s = .ok u) ∨
       (∃ sel cnt plan, i = .enc sel cnt ∧ s.codecPlan sel cnt = .ok plan ∧ forChannels encBlock plan s = .ok u))) ∨
    (∃ e, e.code ≠ .ok ∧ t = s.errorCompletion e) := by
  have codec : ∀ (f : Nat → Nat → State → Work) sel cnt (hf : ∀ c k s e, f c k s = .err e → e.code ≠ .ok),
      codecCommand f sel cnt s = .next t →
      (∃ plan u, s.codecPlan sel cnt = .ok plan ∧ forChannels f plan s = .ok u ∧ t = u.complete) ∨
      (∃ e : ErrInfo, e.code ≠ .ok ∧ t = s.errorCompletion e) := by
    intro f sel cnt hf h
    rcases codecCommand_eq_next h with h | ⟨e, rfl, he | ⟨plan, -, he⟩⟩
    · exact .inl h
    · exact .inr ⟨e, codecPlan_error_code he, rfl⟩
    · exact .inr ⟨e, forChannels_eq_err f _ hf plan s e he, rfl⟩
  cases i with
  | nop => cases h; exact .inl ⟨s, rfl, .inl ⟨rfl, rfl⟩⟩
  | chreset => cases h; exact .inl ⟨_, rfl, .inr (.inl ⟨rfl, rfl⟩)⟩
  | deintl =>
    rw [exec, execDeintl] at h
    split at h
    · next hu => cases h; exact .inl ⟨_, rfl, .inr (.inr (.inl ⟨rfl, hu, rfl⟩))⟩
    · cases h; exact .inr ⟨_, by simp [ErrInfo.plain], rfl⟩
  | intl =>
    rw [exec, execIntl] at h
    split at h
    · next hu =>
      split at h
      · next hv => cases h; exact .inl ⟨_, rfl, .inr (.inr (.inr (.inl ⟨rfl, hu, hv, rfl⟩)))⟩
      · cases h; exact .inr ⟨_, by simp [ErrInfo.plain], rfl⟩
    · cases h; exact .inr ⟨_, by simp [ErrInfo.plain], rfl⟩
  | dec sel cnt =>
    rcases codec decBlock sel cnt (fun c k s e he => by
        rcases decBlock_eq_err he with rfl | rfl <;> simp [ErrInfo.at]) h with ⟨plan, u, hp, hu, rfl⟩ | h
    · exact .inl ⟨u, rfl, .inr (.inr (.inr (.inr (.inl ⟨sel, cnt, plan, rfl, hp, hu⟩))))⟩
    · exact .inr h
  | enc sel cnt =>
    rcases codec encBlock sel cnt (fun c k s e he => by
        rw [encBlock_eq_err he]; simp [ErrInfo.at]) h with ⟨plan, u, hp, hu, rfl⟩ | h
    · exact .inl ⟨u, rfl, .inr (.inr (.inr (.inr (.inr ⟨sel, cnt, plan, rfl, hp, hu⟩))))⟩
    · exact .inr h

/-- No command is refused. -/
theorem exec_ne_refused (i : Instr) (s : State) (r : Refusal) : exec i s ≠ .refused r := by
  have codec : ∀ (f : Nat → Nat → State → Work) sel cnt, codecCommand f sel cnt s ≠ .refused r := by
    intro f sel cnt
    rw [codecCommand]
    split
    · simp
    · exact Work.commit_ne_refused _ _ _
  cases i with
  | nop => simp [exec, execNop]
  | chreset => simp [exec, execChreset]
  | deintl => rw [exec, execDeintl]; split <;> simp
  | intl => rw [exec, execIntl]; split <;> [split <;> simp; simp]
  | dec sel cnt => exact codec _ _ _
  | enc sel cnt => exact codec _ _ _

/-! ## One step -/

/-- A run whose first step answers a next state goes on from there. -/
theorem run_next {n : Nat} {s t : State} (h : step s = .next t) : Sys2Proof.core.run (n + 1) s = Sys2Proof.core.run n t := by
  have h' : Sys2Proof.core.step s = .next t := h
  simp only [Host.Core.run, h']

/-- Which agent a step belongs to, and what it does. -/
theorem step_cases {s t : State} (h : step s = .next t) :
    s.fault = none ∧
    ((s.busy = true ∧ coreStep s.afterTurn = .next t) ∨
     (∃ a ops, s.script = .access a :: ops ∧ hostAccess a { s.afterTurn with script := ops } = .next t) ∨
     (∃ ops, s.script = .wait :: ops ∧ s.busy = false ∧ t = { s with script := ops }) ∨
     (s.busy = false ∧ s.script = [] ∧ t = s)) := by
  have hf : s.fault = none := by
    rcases hf : s.fault with _ | f
    · rfl
    · simp [step, hf] at h
  refine ⟨hf, ?_⟩
  rw [step] at h
  simp only [hf] at h
  by_cases hb : s.busy = true
  · by_cases hc : s.contended = true
    · have hh : s.hostEnabled = true := by
        simp only [State.contended, Bool.and_eq_true] at hc; exact hc.2
      rcases hsch : s.schedule with _ | ⟨g | g, sch⟩
      · have ht : s.turn = some .core := by simp [State.turn, hc, hsch]
        simp only [ht] at h
        exact .inl ⟨hb, h⟩
      · have ht : s.turn = some .host := by simp [State.turn, hc, hsch]
        have hsc : s.afterTurn.script = s.script := by rw [State.afterTurn]; split <;> rfl
        simp only [ht] at h
        rw [hostStep, hsc] at h
        rcases hs : s.script with _ | ⟨a | _, ops⟩
        · simp [State.hostEnabled, hs] at hh
        · simp only [hs] at h
          exact .inr (.inl ⟨a, ops, rfl, h⟩)
        · simp [State.hostEnabled, hs, hb] at hh
      · have ht : s.turn = some .core := by simp [State.turn, hc, hsch]
        simp only [ht] at h
        exact .inl ⟨hb, h⟩
    · have ht : s.turn = some .core := by simp [State.turn, hc, State.coreEnabled, hb]
      simp only [ht] at h
      exact .inl ⟨hb, h⟩
  · have hb' : s.busy = false := by simpa using hb
    have hnc : s.contended = false := by simp [State.contended, State.coreEnabled, hb']
    have ha : s.afterTurn = s := by simp [State.afterTurn, hnc]
    rcases hs : s.script with _ | ⟨a | _, ops⟩
    · have ht : s.turn = none := by simp [State.turn, hnc, State.coreEnabled, State.hostEnabled, hb', hs]
      simp only [ht] at h
      exact .inr (.inr (.inr ⟨hb', rfl, (Host.Outcome.next.inj h).symm⟩))
    · have ht : s.turn = some .host := by simp [State.turn, hnc, State.coreEnabled, State.hostEnabled, hb', hs]
      simp only [ht, ha, hostStep, hs] at h
      exact .inr (.inl ⟨a, ops, rfl, by rw [ha]; exact h⟩)
    · have ht : s.turn = some .host := by simp [State.turn, hnc, State.coreEnabled, State.hostEnabled, hb', hs]
      simp only [ht, ha, hostStep, hs] at h
      exact .inr (.inr (.inl ⟨ops, rfl, hb', (Host.Outcome.next.inj h).symm⟩))

end Sys2Proof.Machine
end

