-- ==== Sys2Proof/Laws/Codec.lean ====
section
/-! SUPPORT. What the codecs yield, and what the block loops of DEC and ENC come to in closed form. -/

namespace Sys2Proof.Machine

/-! ## Sixteen-bit values -/

theorem wrap16_range (v : Int) : -32768 ≤ wrap16 v ∧ wrap16 v ≤ 32767 := by
  unfold wrap16; omega

/-- A value in range comes back from its pattern. -/
theorem toInt_toSample {v : Int} (h : -32768 ≤ v) (h' : v ≤ 32767) : (toSample v).toInt = v := by
  rw [toSample, BitVec.toInt_ofInt]
  exact Int.bmod_eq_of_le (by norm_num; omega) (by norm_num; omega)

@[simp] theorem toSample_toInt (x : Sample) : toSample x.toInt = x := by simp [toSample]

/-- A history pair that a register pair can hold. -/
def InRange (h : Int × Int) : Prop := -32768 ≤ h.1 ∧ h.1 ≤ 32767 ∧ -32768 ≤ h.2 ∧ h.2 ≤ 32767

theorem pushHistory_inRange (h : Int × Int) (r : Int) : InRange (pushHistory h r) :=
  ⟨(wrap16_range _).1, (wrap16_range _).2, (wrap16_range _).1, (wrap16_range _).2⟩

theorem hist_inRange (s : State) (c : Nat) : InRange (s.hist c) := by
  have h0 := BitVec.toInt_lt (x := (s.chan c).hist0)
  have h1 := BitVec.le_toInt (x := (s.chan c).hist0)
  have h2 := BitVec.toInt_lt (x := (s.chan c).hist1)
  have h3 := BitVec.le_toInt (x := (s.chan c).hist1)
  simp only [InRange, State.hist]
  norm_num at h0 h1 h2 h3
  omega

/-! ## Decoding -/

theorem decodeCodes_length (c1 c2 : Int) (sc : Nat) (h : Int × Int) (codes : List Int) :
    (decodeCodes c1 c2 sc h codes).1.length = codes.length := by
  induction codes generalizing h with
  | nil => rfl
  | cons k codes ih => simp [decodeCodes, ih]

/-- The history after decoding is in range, wherever the one before was. -/
theorem decodeCodes_inRange (c1 c2 : Int) (sc : Nat) {h : Int × Int} (hh : InRange h) (codes : List Int) :
    InRange (decodeCodes c1 c2 sc h codes).2 := by
  induction codes generalizing h with
  | nil => exact hh
  | cons k codes ih => exact ih (pushHistory_inRange _ _)

/-- A decoded block has 30 outputs and leaves a history in range. -/
theorem pDecodeBlock_spec {h h' : Int × Int} {b : Vector Byte 16} {outs : List Int} (hh : InRange h)
    (hd : pDecodeBlock h b = some (outs, h')) : outs.length = 30 ∧ InRange h' := by
  rw [pDecodeBlock] at hd
  rcases hc : coefficients (coefIndexOf b) with _ | ⟨c1, c2⟩
  · simp [hc] at hd
  · simp only [hc, Option.some.injEq] at hd
    have h1 := decodeCodes_length c1 c2 (scaleOf b) h ((List.range samplesPerPredictiveBlock).map (codeAt b))
    have h2 := decodeCodes_inRange c1 c2 (scaleOf b) hh ((List.range samplesPerPredictiveBlock).map (codeAt b))
    rw [hd] at h1 h2
    exact ⟨by simpa [samplesPerPredictiveBlock] using h1, h2⟩

theorem decodeBlocks_spec {h h' : Int × Int} {bs : List (Vector Byte 16)} {outs : List Int} (hh : InRange h)
    (hd : decodeBlocks h bs = some (outs, h')) : outs.length = 30 * bs.length ∧ InRange h' := by
  induction bs generalizing h outs with
  | nil => cases hd; exact ⟨rfl, hh⟩
  | cons b bs ih =>
    rw [decodeBlocks] at hd
    rcases h1 : pDecodeBlock h b with _ | ⟨o, g⟩ <;> simp only [h1] at hd
    · cases hd
    · obtain ⟨ho, hg⟩ := pDecodeBlock_spec hh h1
      rcases h2 : decodeBlocks g bs with _ | ⟨os, g'⟩ <;> simp only [h2] at hd
      · cases hd
      · cases hd
        obtain ⟨hos, hg'⟩ := ih hg h2
        exact ⟨by simp [ho, hos]; ring, hg'⟩

/-! ## Runs of cells -/

theorem rangesAt_length {w : Nat} {m : Mem w} {size a n : Nat} {vs : List (Vector (BitVec w) size)}
    (h : rangesAt m size a n = some vs) : vs.length = n := by
  induction n generalizing a vs with
  | zero => cases h; rfl
  | succ n ih =>
    rw [rangesAt] at h
    split at h
    · next v us hv hu => cases h; simp [ih hu]
    · cases h

/-- A run of groups is the first group and the run after it. -/
theorem rangesAt_succ {w : Nat} {m : Mem w} {size a n : Nat} {vs : List (Vector (BitVec w) size)}
    (h : rangesAt m size a (n + 1) = some vs) :
    ∃ v us, vs = v :: us ∧ Mem.getRange m a size = some v ∧ rangesAt m size (a + size) n = some us := by
  rw [rangesAt] at h
  split at h
  · next v us hv hu => cases h; exact ⟨v, us, rfl, hv, hu⟩
  · cases h

theorem Mem.setRange_append {w : Nat} (m : Mem w) (a : Nat) (xs ys : List (BitVec w)) :
    Mem.setRange m a (xs ++ ys) = Mem.setRange (Mem.setRange m a xs) (a + xs.length) ys := by
  induction xs generalizing m a with
  | nil => rfl
  | cons x xs ih => simp only [List.cons_append, Mem.setRange, ih, List.length_cons]; congr 1; omega

/-! ## Channel slots -/

theorem State.setChan_self {s : State} {c : Nat} (h : c < s.ch.length) : s.setChan c (s.chan c) = s := by
  simp [State.setChan, State.chan, h]

theorem State.chan_eq_of_ch {s t : State} (h : t.ch = s.ch) : t.chan = s.chan := by
  funext c; exact State.chan_congr h c

/-! ## One block in closed form -/

theorem decBlock_predictive {s : State} {c k : Nat} {b : Vector Byte 16} (hk : s.kind = .predictive)
    (hb : Mem.getRange (s.chbOf c) (16 * k) 16 = some b) :
    decBlock c k s = match pDecodeBlock (s.hist c) b with
      | none => .err (.at .invalidBlock c k)
      | some (out, h) => .ok ((s.setHist c h).writeSram (s.sampleIndex c (30 * k)) (out.map toSample)) := by
  unfold decBlock
  rcases hd : pDecodeBlock (s.hist c) b with _ | ⟨out, h⟩ <;> simp only [hb, if_pos hk, hd]

theorem decBlock_adaptive {s : State} {c k : Nat} {b : Vector Byte 16} (hk : s.kind = .adaptive)
    (hb : Mem.getRange (s.chbOf c) (16 * k) 16 = some b) :
    decBlock c k s = match Config.adDecode (s.chan c).ast b with
      | none => .err (.at .adaptiveError c k)
      | some (out, a) => .ok ((s.setAst c a).writeSram (s.sampleIndex c (Config.spbA * k)) out.toList) := by
  unfold decBlock
  rcases hd : Config.adDecode (s.chan c).ast b with _ | ⟨out, a⟩ <;>
    simp only [hb, if_neg (show ¬ s.kind = .predictive by simp [hk]), hd]

theorem decBlock_unwritten {s : State} {c k : Nat} (hb : Mem.getRange (s.chbOf c) (16 * k) 16 = none) :
    decBlock c k s = .fault (.blockUnwritten c k) := by
  unfold decBlock
  simp only [hb]

theorem encBlock_predictive {s : State} {c k : Nat} {x : Vector Sample 30} (hk : s.kind = .predictive)
    (hx : Mem.getRange s.sram (s.sampleIndex c (30 * k)) 30 = some x) :
    encBlock c k s = .ok ((s.setHist c (pEncodeBlock (s.hist c) (signedSamples x)).hist).writeChb c (16 * k)
      (pEncodeBlock (s.hist c) (signedSamples x)).block.toList) := by
  unfold encBlock
  simp only [hx, if_pos hk]
  rfl

theorem encBlock_adaptive {s : State} {c k : Nat} {x : Vector Sample Config.spbA} (hk : s.kind = .adaptive)
    (hx : Mem.getRange s.sram (s.sampleIndex c (Config.spbA * k)) Config.spbA = some x) :
    encBlock c k s = match Config.adEncode (s.chan c).ast x with
      | none => .err (.at .adaptiveError c k)
      | some (b, a) => .ok ((s.setAst c a).writeChb c (16 * k) b.toList) := by
  unfold encBlock
  rcases he : Config.adEncode (s.chan c).ast x with _ | ⟨b, a⟩ <;>
    simp only [hx, if_neg (show ¬ s.kind = .predictive by simp [hk]), he]

theorem encBlock_unwritten {s : State} {c k : Nat} (hk : s.kind = .predictive)
    (hx : Mem.getRange s.sram (s.sampleIndex c (30 * k)) 30 = none) :
    encBlock c k s = .fault (.samplesUnwritten c k) := by
  unfold encBlock
  simp only [hx, if_pos hk]

theorem encBlock_unwritten_adaptive {s : State} {c k : Nat} (hk : s.kind = .adaptive)
    (hx : Mem.getRange s.sram (s.sampleIndex c (Config.spbA * k)) Config.spbA = none) :
    encBlock c k s = .fault (.samplesUnwritten c k) := by
  unfold encBlock
  simp only [hx, if_neg (show ¬ s.kind = .predictive by simp [hk])]

/-! ## The blocks of one channel in closed form -/

theorem forBlocks_dec_predictive {c : Nat} (n : Nat) : ∀ {s : State} {k : Nat} {bs : List (Vector Byte 16)} {outs : List Int}
    {last : Int × Int}, c < s.ch.length → s.kind = .predictive → rangesAt (s.chbOf c) 16 (16 * k) n = some bs →
    decodeBlocks (s.hist c) bs = some (outs, last) →
    forBlocks (decBlock c) n k s =
      .ok ((s.setHist c last).writeSram (s.sampleIndex c (30 * k)) (outs.map toSample)) := by
  induction n with
  | zero =>
    intro s k bs outs last hc hk hb hd
    cases hb; cases hd
    simp [forBlocks, State.setHist, State.hist, State.writeSram, Mem.setRange, State.setChan_self hc]
  | succ n ih =>
    intro s k bs outs last hc hk hb hd
    obtain ⟨b, bs, rfl, hb, hbs⟩ := rangesAt_succ hb
    rw [decodeBlocks] at hd
    rcases h1 : pDecodeBlock (s.hist c) b with _ | ⟨o, g⟩ <;> simp only [h1] at hd
    · cases hd
    · obtain ⟨ho, hg⟩ := pDecodeBlock_spec (hist_inRange s c) h1
      rcases h2 : decodeBlocks g bs with _ | ⟨os, g'⟩ <;> simp only [h2] at hd
      · cases hd
      · cases hd
        rw [forBlocks, decBlock_predictive hk hb]
        simp only [h1, Work.andThen_ok]
        have hhist : ((s.setHist c g).writeSram (s.sampleIndex c (30 * k)) (o.map toSample)).hist c = g := by
          have : ((s.setHist c g).writeSram (s.sampleIndex c (30 * k)) (o.map toSample)).chan c
              = { s.chan c with hist0 := toSample g.1, hist1 := toSample g.2 } := State.chan_setChan_same _ hc
          simp only [State.hist, this]
          rw [toInt_toSample hg.1 hg.2.1, toInt_toSample hg.2.2.1 hg.2.2.2]
        rw [ih (s := (s.setHist c g).writeSram (s.sampleIndex c (30 * k)) (o.map toSample)) (k := k + 1) (bs := bs)
          (outs := os) (last := last) (by simpa using hc) hk hbs (by rw [hhist]; exact h2)]
        congr 1
        have hch : ((s.setHist c g).writeSram (s.sampleIndex c (30 * k)) (o.map toSample)).setHist c last
            = (s.setHist c last).writeSram (s.sampleIndex c (30 * k)) (o.map toSample) := by
          simp only [State.setHist, State.setChan, State.writeSram, State.chan]
          congr 1
          simp [hc]
        rw [hch]
        simp only [State.writeSram]
        congr 1
        rw [List.map_append, Mem.setRange_append]
        congr 1
        simp only [List.length_map, ho, State.sampleIndex]
        have : State.nsamp ({ s.setHist c g with sram := Mem.setRange (s.setHist c g).sram (c * s.nsamp + 30 * k) (o.map toSample) })
            = s.nsamp := rfl
        rw [this]
        omega

/-- The codecs' histories fit their registers, so a register pair holds them exactly. -/
theorem hist_setHist {s : State} {c : Nat} {h : Int × Int} (hc : c < s.ch.length) (hh : InRange h) : (s.setHist c h).hist c = h := by
  have : (s.setHist c h).chan c = { s.chan c with hist0 := toSample h.1, hist1 := toSample h.2 } :=
    State.chan_setChan_same _ hc
  simp only [State.hist, this]
  rw [toInt_toSample hh.1 hh.2.1, toInt_toSample hh.2.2.1 hh.2.2.2]

theorem setHist_setHist {s : State} {c : Nat} (g h : Int × Int) (hc : c < s.ch.length) :
    (s.setHist c g).setHist c h = s.setHist c h := by
  simp only [State.setHist, State.setChan, State.chan]
  congr 1
  simp [hc]

theorem setAst_setAst {s : State} {c : Nat} (a b : AdState) (hc : c < s.ch.length) : (s.setAst c a).setAst c b = s.setAst c b := by
  simp only [State.setAst, State.setChan, State.chan]
  congr 1
  simp [hc]

theorem forBlocks_dec_adaptive {c : Nat} (n : Nat) : ∀ {s : State} {k : Nat} {bs : List (Vector Byte 16)} {outs : List Sample}
    {last : AdState}, c < s.ch.length → s.kind = .adaptive → rangesAt (s.chbOf c) 16 (16 * k) n = some bs →
    adDecodeBlocks (s.chan c).ast bs = some (outs, last) →
    forBlocks (decBlock c) n k s = .ok ((s.setAst c last).writeSram (s.sampleIndex c (Config.spbA * k)) outs) := by
  induction n with
  | zero =>
    intro s k bs outs last hc hk hb hd
    cases hb; cases hd
    simp [forBlocks, State.setAst, State.writeSram, Mem.setRange, State.setChan_self hc]
  | succ n ih =>
    intro s k bs outs last hc hk hb hd
    obtain ⟨b, bs, rfl, hb, hbs⟩ := rangesAt_succ hb
    rw [adDecodeBlocks] at hd
    rcases h1 : Config.adDecode (s.chan c).ast b with _ | ⟨o, g⟩ <;> simp only [h1] at hd
    · cases hd
    · rcases h2 : adDecodeBlocks g bs with _ | ⟨os, g'⟩ <;> simp only [h2] at hd
      · cases hd
      · cases hd
        rw [forBlocks, decBlock_adaptive hk hb]
        simp only [h1, Work.andThen_ok]
        have hast : (((s.setAst c g).writeSram (s.sampleIndex c (Config.spbA * k)) o.toList).chan c).ast = g := by
          have : ((s.setAst c g).writeSram (s.sampleIndex c (Config.spbA * k)) o.toList).chan c
              = { s.chan c with ast := g } := State.chan_setChan_same _ hc
          rw [this]
        rw [ih (s := (s.setAst c g).writeSram (s.sampleIndex c (Config.spbA * k)) o.toList) (k := k + 1) (bs := bs)
          (outs := os) (last := last) (by simpa using hc) hk hbs (by rw [hast]; exact h2)]
        congr 1
        have hch : ((s.setAst c g).writeSram (s.sampleIndex c (Config.spbA * k)) o.toList).setAst c last
            = (s.setAst c last).writeSram (s.sampleIndex c (Config.spbA * k)) o.toList := by
          have := setAst_setAst (s := s) g last hc
          simp only [State.setAst, State.setChan, State.writeSram, State.chan] at this ⊢
          simpa using this
        rw [hch]
        simp only [State.writeSram]
        congr 1
        rw [Mem.setRange_append]
        congr 1
        simp only [Vector.length_toList, State.sampleIndex]
        have : State.nsamp ({ s.setAst c g with sram := Mem.setRange (s.setAst c g).sram (c * s.nsamp + Config.spbA * k) o.toList })
            = s.nsamp := rfl
        rw [this, Nat.mul_add, Nat.mul_one, Nat.add_assoc]

/-! ## Encoding -/

theorem encodeSample_inRange (x : Int) (h : Int × Int) (c1 c2 : Int) (sc : Nat) : InRange (encodeSample x h c1 c2 sc).hist :=
  pushHistory_inRange _ _

theorem Trial.run_inRange {c1 c2 : Int} {best : Option Trial} {xs : List Int} {t u : Trial} (ht : InRange t.hist)
    (h : Trial.run c1 c2 best t xs = some u) : InRange u.hist := by
  induction xs generalizing t with
  | nil => cases h; exact ht
  | cons x xs ih =>
    rw [Trial.run] at h
    split at h
    · cases h
    · exact ih (encodeSample_inRange _ _ _ _ _) h

theorem tryCandidate_inRange {h : Int × Int} {xs : List Int} {best : Option Trial} {cand : Nat × Nat} {t : Trial} (hh : InRange h)
    (ht : tryCandidate h xs best cand = some t) : InRange t.hist := by
  rw [tryCandidate] at ht
  split at ht
  · cases ht
  · exact Trial.run_inRange (t := Trial.start cand.1 cand.2 h) hh ht

theorem searchFrom_inRange {h : Int × Int} {xs : List Int} (hh : InRange h) (cands : List (Nat × Nat)) {best : Option Trial} {t : Trial}
    (hb : ∀ b, best = some b → InRange b.hist) (ht : searchFrom h xs best cands = some t) : InRange t.hist := by
  induction cands generalizing best with
  | nil => exact hb t ht
  | cons cand cands ih =>
    rw [searchFrom] at ht
    rcases hc : tryCandidate h xs best cand with _ | u <;> simp only [hc] at ht
    · exact ih hb ht
    · have hbetter : InRange (better best u).hist := by
        unfold better
        split
        · exact tryCandidate_inRange hh hc
        · next b => split <;> [exact tryCandidate_inRange hh hc; exact hb b rfl]
      split at ht
      · cases ht; exact hbetter
      · exact ih (fun b h => by cases h; exact hbetter) ht

/-- The committed state of the encoder is in range. -/
theorem pEncodeBlock_inRange {h : Int × Int} (hh : InRange h) (xs : List Int) : InRange (pEncodeBlock h xs).hist := by
  show InRange (winner h xs).hist
  rw [winner]
  rcases hs : searchFrom h (padded xs) none candidates with _ | t
  · exact hh
  · exact searchFrom_inRange hh candidates (fun b h => by cases h) hs

theorem pEncodeBlock_block_length (h : Int × Int) (xs : List Int) : (pEncodeBlock h xs).block.toList.length = 16 := by simp

theorem encodeBlocks_spec {h : Int × Int} (hh : InRange h) (xs : List (List Int)) :
    InRange (encodeBlocks h xs).hist ∧ (encodeBlocks h xs).bytes.length = 16 * xs.length := by
  induction xs generalizing h with
  | nil => exact ⟨hh, rfl⟩
  | cons x xs ih =>
    obtain ⟨h1, h2⟩ := ih (pEncodeBlock_inRange hh x)
    refine ⟨h1, ?_⟩
    simp only [encodeBlocks, List.length_append, h2, pEncodeBlock_block_length, List.length_cons]
    ring

theorem writeChb_writeChb {s : State} {c : Nat} (a : Nat) (xs ys : List Byte) (hc : c < s.chb.length) :
    (s.writeChb c a xs).writeChb c (a + xs.length) ys = s.writeChb c a (xs ++ ys) := by
  simp only [State.writeChb, State.chbOf]
  congr 1
  simp [hc, Mem.setRange_append]

theorem writeChb_nil {s : State} {c : Nat} (a : Nat) (hc : c < s.chb.length) : s.writeChb c a [] = s := by
  simp [State.writeChb, State.chbOf, Mem.setRange, hc]

theorem forBlocks_enc_predictive {c : Nat} (n : Nat) : ∀ {s : State} {k : Nat} {xs : List (Vector Sample 30)},
    c < s.ch.length → c < s.chb.length → s.kind = .predictive → rangesAt s.sram 30 (s.sampleIndex c (30 * k)) n = some xs →
    forBlocks (encBlock c) n k s =
      .ok ((s.setHist c (encodeBlocks (s.hist c) (xs.map signedSamples)).hist).writeChb c (16 * k)
        (encodeBlocks (s.hist c) (xs.map signedSamples)).bytes) := by
  induction n with
  | zero =>
    intro s k xs hc hb hk hx
    cases hx
    simp [forBlocks, encodeBlocks, State.setHist, State.hist, State.setChan_self hc, writeChb_nil _ hb]
  | succ n ih =>
    intro s k xs hc hb hk hx
    obtain ⟨x, xs, rfl, hx, hxs⟩ := rangesAt_succ hx
    rw [forBlocks, encBlock_predictive hk hx, Work.andThen_ok]
    have hr := pEncodeBlock_inRange (hist_inRange s c) (signedSamples x)
    have hl := pEncodeBlock_block_length (s.hist c) (signedSamples x)
    generalize he : pEncodeBlock (s.hist c) (signedSamples x) = e at hr hl
    have hhist : ((s.setHist c e.hist).writeChb c (16 * k) e.block.toList).hist c = e.hist := hist_setHist hc hr
    have hidx : ((s.setHist c e.hist).writeChb c (16 * k) e.block.toList).sampleIndex c (30 * (k + 1))
        = s.sampleIndex c (30 * k) + 30 := by
      show c * s.nsamp + 30 * (k + 1) = c * s.nsamp + 30 * k + 30
      omega
    rw [ih (s := (s.setHist c e.hist).writeChb c (16 * k) e.block.toList) (k := k + 1) (xs := xs) (by simpa using hc)
      (by simpa using hb) hk (by rw [hidx]; exact hxs), hhist]
    simp only [List.map_cons, encodeBlocks, he]
    congr 1
    have hch : ∀ h, ((s.setHist c e.hist).writeChb c (16 * k) e.block.toList).setHist c h
        = (s.setHist c h).writeChb c (16 * k) e.block.toList := by
      intro h
      have := setHist_setHist (s := s) e.hist h hc
      simp only [State.setHist, State.setChan, State.writeChb, State.chan, State.chbOf] at this ⊢
      have h1 := congrArg State.ch this
      simp only at h1
      simp only [h1]
    rw [hch, show 16 * (k + 1) = 16 * k + e.block.toList.length by rw [hl]; ring, writeChb_writeChb _ _ _ (by simpa using hb)]

theorem forBlocks_enc_adaptive {c : Nat} (n : Nat) : ∀ {s : State} {k : Nat} {xs : List (Vector Sample Config.spbA)}
    {bytes : List Byte} {last : AdState},
    c < s.ch.length → c < s.chb.length → s.kind = .adaptive →
    rangesAt s.sram Config.spbA (s.sampleIndex c (Config.spbA * k)) n = some xs →
    adEncodeBlocks (s.chan c).ast xs = some (bytes, last) →
    forBlocks (encBlock c) n k s = .ok ((s.setAst c last).writeChb c (16 * k) bytes) := by
  induction n with
  | zero =>
    intro s k xs bytes last hc hb hk hx he
    cases hx; cases he
    simp [forBlocks, State.setAst, State.setChan_self hc, writeChb_nil _ hb]
  | succ n ih =>
    intro s k xs bytes last hc hb hk hx he
    obtain ⟨x, xs, rfl, hx, hxs⟩ := rangesAt_succ hx
    rw [adEncodeBlocks] at he
    rcases h1 : Config.adEncode (s.chan c).ast x with _ | ⟨b, g⟩ <;> simp only [h1] at he
    · cases he
    · rcases h2 : adEncodeBlocks g xs with _ | ⟨bs, g'⟩ <;> simp only [h2] at he
      · cases he
      · cases he
        rw [forBlocks, encBlock_adaptive hk hx]
        simp only [h1, Work.andThen_ok]
        have hast : (((s.setAst c g).writeChb c (16 * k) b.toList).chan c).ast = g := by
          have : ((s.setAst c g).writeChb c (16 * k) b.toList).chan c = { s.chan c with ast := g } :=
            State.chan_setChan_same _ hc
          rw [this]
        have hidx : ((s.setAst c g).writeChb c (16 * k) b.toList).sampleIndex c (Config.spbA * (k + 1))
            = s.sampleIndex c (Config.spbA * k) + Config.spbA := by
          show c * s.nsamp + Config.spbA * (k + 1) = c * s.nsamp + Config.spbA * k + Config.spbA
          rw [Nat.mul_add, Nat.mul_one, Nat.add_assoc]
        rw [ih (s := (s.setAst c g).writeChb c (16 * k) b.toList) (k := k + 1) (xs := xs) (bytes := bs) (last := last)
          (by simpa using hc) (by simpa using hb) hk (by rw [hidx]; exact hxs) (by rw [hast]; exact h2)]
        congr 1
        have hch : ((s.setAst c g).writeChb c (16 * k) b.toList).setAst c last
            = (s.setAst c last).writeChb c (16 * k) b.toList := by
          have := setAst_setAst (s := s) g last hc
          simp only [State.setAst, State.setChan, State.writeChb, State.chan, State.chbOf] at this ⊢
          have h1 := congrArg State.ch this
          simp only at h1
          simp only [h1]
        rw [hch, show 16 * (k + 1) = 16 * k + b.toList.length by simp; ring, writeChb_writeChb _ _ _ (by simpa using hb)]

/-! ## The planned channels in closed form -/

/-- Where each planned channel, from any state that agrees on it, ends with its own slot and its own run of SRAM words, the plan ends
with all of them. -/
theorem forChannels_dec {s : State} {x : Nat → Chan} {base : Nat → Nat} {xs : Nat → List Sample} (plan : List (Nat × Nat))
    (nodup : (plan.map Prod.fst).Nodup) (slots : ∀ p ∈ plan, p.1 < s.ch.length)
    (done : ∀ p ∈ plan, ∀ u, u = { s with ch := u.ch, sram := u.sram } → u.ch.length = s.ch.length → u.chan p.1 = s.chan p.1 →
      forChannel decBlock p.1 p.2 u =
        .ok { u with ch := u.ch.set p.1 (x p.1), sram := Mem.setRange u.sram (base p.1) (xs p.1) }) :
    ∃ t, forChannels decBlock plan s = .ok t ∧ t = { s with ch := t.ch, sram := t.sram } ∧ t.ch.length = s.ch.length ∧
      (∀ p ∈ plan, t.chan p.1 = x p.1) ∧ (∀ c, c ∉ plan.map Prod.fst → t.chan c = s.chan c) ∧
      t.sram = plan.foldl (fun m p => Mem.setRange m (base p.1) (xs p.1)) s.sram := by
  suffices H : ∀ (plan : List (Nat × Nat)) (v : State), (plan.map Prod.fst).Nodup → (∀ p ∈ plan, p.1 < s.ch.length) →
      (∀ p ∈ plan, ∀ u, u = { s with ch := u.ch, sram := u.sram } → u.ch.length = s.ch.length → u.chan p.1 = s.chan p.1 →
        forChannel decBlock p.1 p.2 u =
          .ok { u with ch := u.ch.set p.1 (x p.1), sram := Mem.setRange u.sram (base p.1) (xs p.1) }) →
      v = { s with ch := v.ch, sram := v.sram } → v.ch.length = s.ch.length → (∀ p ∈ plan, v.chan p.1 = s.chan p.1) →
      ∃ t, forChannels decBlock plan v = .ok t ∧ t = { s with ch := t.ch, sram := t.sram } ∧ t.ch.length = s.ch.length ∧
        (∀ p ∈ plan, t.chan p.1 = x p.1) ∧ (∀ c, c ∉ plan.map Prod.fst → t.chan c = v.chan c) ∧
        t.sram = plan.foldl (fun m p => Mem.setRange m (base p.1) (xs p.1)) v.sram from
    H plan s nodup slots done rfl rfl (fun _ _ => rfl)
  intro plan
  induction plan with
  | nil => intro v _ _ _ hv hl _; exact ⟨v, rfl, hv, hl, by simp, by simp, rfl⟩
  | cons p plan ih =>
    intro v nodup slots done hv hl hch
    obtain ⟨hp, nodup⟩ := List.nodup_cons.1 nodup
    have h1 := done p (by simp) v hv hl (hch p (by simp))
    have hpl : p.1 < v.ch.length := hl ▸ slots p (by simp)
    obtain ⟨t, ht, h2, h3, h4, h5, h6⟩ := ih { v with ch := v.ch.set p.1 (x p.1), sram := Mem.setRange v.sram (base p.1) (xs p.1) }
      nodup (fun q hq => slots q (by simp [hq])) (fun q hq => done q (by simp [hq])) (by rw [hv])
      (by simpa using hl) (fun q hq => by
        have hne : q.1 ≠ p.1 := fun h => hp (h ▸ List.mem_map_of_mem hq)
        rw [← hch q (by simp [hq])]
        exact State.chan_setChan_other v (x p.1) hne)
    refine ⟨t, by rw [forChannels, h1]; exact ht, h2, h3, fun q hq => ?_, fun c hc => ?_, h6⟩
    · rcases List.mem_cons.1 hq with rfl | hq
      · rw [h5 q.1 hp]; exact State.chan_setChan_same (s := v) (x q.1) hpl
      · exact h4 q hq
    · simp only [List.map_cons, List.mem_cons, not_or] at hc
      rw [h5 c hc.2]
      exact State.chan_setChan_other v (x p.1) hc.1

/-- The same for ENC, where each channel ends with its own slot and its own channel array. -/
theorem forChannels_enc {s : State} {x : Nat → Chan} {m : Nat → Mem 8} (plan : List (Nat × Nat))
    (nodup : (plan.map Prod.fst).Nodup) (slots : ∀ p ∈ plan, p.1 < s.ch.length ∧ p.1 < s.chb.length)
    (done : ∀ p ∈ plan, ∀ u, u = { s with ch := u.ch, chb := u.chb } → u.ch.length = s.ch.length → u.chb.length = s.chb.length →
      u.chan p.1 = s.chan p.1 → u.chbOf p.1 = s.chbOf p.1 →
      forChannel encBlock p.1 p.2 u = .ok { u with ch := u.ch.set p.1 (x p.1), chb := u.chb.set p.1 (m p.1) }) :
    ∃ t, forChannels encBlock plan s = .ok t ∧ t = { s with ch := t.ch, chb := t.chb } ∧ t.ch.length = s.ch.length ∧
      t.chb.length = s.chb.length ∧ (∀ p ∈ plan, t.chan p.1 = x p.1 ∧ t.chbOf p.1 = m p.1) ∧
      (∀ c, c ∉ plan.map Prod.fst → t.chan c = s.chan c ∧ t.chbOf c = s.chbOf c) := by
  suffices H : ∀ (plan : List (Nat × Nat)) (v : State), (plan.map Prod.fst).Nodup →
      (∀ p ∈ plan, p.1 < s.ch.length ∧ p.1 < s.chb.length) →
      (∀ p ∈ plan, ∀ u, u = { s with ch := u.ch, chb := u.chb } → u.ch.length = s.ch.length → u.chb.length = s.chb.length →
        u.chan p.1 = s.chan p.1 → u.chbOf p.1 = s.chbOf p.1 →
        forChannel encBlock p.1 p.2 u = .ok { u with ch := u.ch.set p.1 (x p.1), chb := u.chb.set p.1 (m p.1) }) →
      v = { s with ch := v.ch, chb := v.chb } → v.ch.length = s.ch.length → v.chb.length = s.chb.length →
      (∀ p ∈ plan, v.chan p.1 = s.chan p.1 ∧ v.chbOf p.1 = s.chbOf p.1) →
      ∃ t, forChannels encBlock plan v = .ok t ∧ t = { s with ch := t.ch, chb := t.chb } ∧ t.ch.length = s.ch.length ∧
        t.chb.length = s.chb.length ∧ (∀ p ∈ plan, t.chan p.1 = x p.1 ∧ t.chbOf p.1 = m p.1) ∧
        (∀ c, c ∉ plan.map Prod.fst → t.chan c = v.chan c ∧ t.chbOf c = v.chbOf c) from
    H plan s nodup slots done rfl rfl rfl (fun _ _ => ⟨rfl, rfl⟩)
  intro plan
  induction plan with
  | nil => intro v _ _ _ hv hl hb _; exact ⟨v, rfl, hv, hl, hb, by simp, by simp⟩
  | cons p plan ih =>
    intro v nodup slots done hv hl hb hch
    obtain ⟨hp, nodup⟩ := List.nodup_cons.1 nodup
    have h1 := done p (by simp) v hv hl hb (hch p (by simp)).1 (hch p (by simp)).2
    have hpl : p.1 < v.ch.length := hl ▸ (slots p (by simp)).1
    have hpb : p.1 < v.chb.length := hb ▸ (slots p (by simp)).2
    have other : ∀ c, c ≠ p.1 → ∀ y : Mem 8, State.chbOf { v with ch := v.ch.set p.1 (x p.1), chb := v.chb.set p.1 y } c = v.chbOf c := by
      intro c hc y
      simp [State.chbOf, List.getD_eq_getElem?_getD, hc.symm]
    obtain ⟨t, ht, h2, h3, h4, h5, h6⟩ := ih { v with ch := v.ch.set p.1 (x p.1), chb := v.chb.set p.1 (m p.1) }
      nodup (fun q hq => slots q (by simp [hq])) (fun q hq => done q (by simp [hq])) (by rw [hv])
      (by simpa using hl) (by simpa using hb) (fun q hq => by
        have hne : q.1 ≠ p.1 := fun h => hp (h ▸ List.mem_map_of_mem hq)
        rw [← (hch q (by simp [hq])).1, ← (hch q (by simp [hq])).2]
        exact ⟨State.chan_setChan_other v (x p.1) hne, other _ hne _⟩)
    refine ⟨t, by rw [forChannels, h1]; exact ht, h2, h3, h4, fun q hq => ?_, fun c hc => ?_⟩
    · rcases List.mem_cons.1 hq with rfl | hq
      · obtain ⟨h7, h8⟩ := h6 q.1 hp
        exact ⟨h7.trans (State.chan_setChan_same (s := v) (x q.1) hpl), h8.trans (by simp [State.chbOf, hpb])⟩
      · exact h5 q hq
    · simp only [List.map_cons, List.mem_cons, not_or] at hc
      obtain ⟨h7, h8⟩ := h6 c hc.2
      exact ⟨h7.trans (State.chan_setChan_other v (x p.1) hc.1), h8.trans (other c hc.1 _)⟩

/-- Reading outside every run that was written. -/
theorem get_runs_outside {w : Nat} {base : Nat → Nat} {xs : Nat → List (BitVec w)} (plan : List (Nat × Nat)) (m : Mem w) {a : Nat}
    (h : ∀ p ∈ plan, a < base p.1 ∨ base p.1 + (xs p.1).length ≤ a) :
    Mem.get (plan.foldl (fun m p => Mem.setRange m (base p.1) (xs p.1)) m) a = Mem.get m a := by
  induction plan generalizing m with
  | nil => rfl
  | cons p plan ih =>
    rw [List.foldl_cons, ih _ (fun q hq => h q (by simp [hq])), Mem.get_setRange_outside _ _ _ (h p (by simp))]

/-- Reading inside one of several runs that do not meet. -/
theorem get_runs_inside {w : Nat} {base : Nat → Nat} {xs : Nat → List (BitVec w)} (plan : List (Nat × Nat)) (m : Mem w)
    (nodup : (plan.map Prod.fst).Nodup)
    (apart : ∀ p ∈ plan, ∀ q ∈ plan, p.1 ≠ q.1 →
      base p.1 + (xs p.1).length ≤ base q.1 ∨ base q.1 + (xs q.1).length ≤ base p.1)
    {p : Nat × Nat} (hp : p ∈ plan) {i : Nat} (hi : i < (xs p.1).length) :
    Mem.get (plan.foldl (fun m p => Mem.setRange m (base p.1) (xs p.1)) m) (base p.1 + i) = some (xs p.1)[i] := by
  induction plan generalizing m with
  | nil => simp at hp
  | cons q plan ih =>
    obtain ⟨hq, nodup⟩ := List.nodup_cons.1 nodup
    rw [List.foldl_cons]
    rcases List.mem_cons.1 hp with rfl | hp
    · rw [get_runs_outside plan _ (fun r hr => ?_), Mem.get_setRange_inside _ _ _ hi]
      have hne : p.1 ≠ r.1 := fun h => hq (h ▸ List.mem_map_of_mem hr)
      rcases apart p (by simp) r (by simp [hr]) hne with h | h <;> omega
    · exact ih _ nodup (fun p hp q hq => apart p (by simp [hp]) q (by simp [hq])) hp

end Sys2Proof.Machine
end

