-- ==== Sys2Proof/Laws/PerInstr.lean ====
section
/-! SUPPORT. What holds of every command as syntax, one lemma per constructor: its word keeps RSV at 0 and stands in its own row of
the opcode table (30_encoding.md R90, R91). -/

namespace Sys2Proof.Laws.EncodesInItsRow

/-- The word of a command has RSV = 0 and is one of the words of the table row that carries the command's mnemonic. -/
def Statement (i : Instr) : Prop :=
  rsvField (encode i) = 0#4 ∧ ∃ r ∈ opcodeTable, r.mnemonic = i.mnemonic ∧ r.hits (encode i) = true

theorem nop : Statement .nop := by unfold Statement; decide

theorem chreset : Statement .chreset := by unfold Statement; decide

theorem deintl : Statement .deintl := by unfold Statement; decide

theorem intl : Statement .intl := by unfold Statement; decide

/-- The low byte of a command word is OP with RSV = 0. -/
theorem low_byte (count : BitVec 16) (ch : BitVec 8) (op : BitVec 4) :
    commandWord count ch op &&& 0xFF#32 = BitVec.setWidth 32 op ∧ rsvField (commandWord count ch op) = 0#4 := by
  have h : (commandWord count ch op).toNat = count.toNat * 65536 + ch.toNat * 256 + op.toNat := by
    have h1 := ch.isLt
    have h2 := op.isLt
    unfold commandWord
    rw [BitVec.toNat_append, BitVec.toNat_append, BitVec.toNat_append, ← Nat.shiftLeft_add_eq_or_of_lt (by simpa using h2),
      ← Nat.shiftLeft_add_eq_or_of_lt (by simp), ← Nat.shiftLeft_add_eq_or_of_lt (by simpa using h1)]
    simp [Nat.shiftLeft_eq]
    ring
  have hop := op.isLt
  constructor
  · apply BitVec.eq_of_toNat_eq
    have hm := Nat.and_two_pow_sub_one_eq_mod (commandWord count ch op).toNat 8
    simp only [BitVec.toNat_and, BitVec.toNat_setWidth]
    simp at hm ⊢
    rw [hm, h]
    omega
  · apply BitVec.eq_of_toNat_eq
    simp only [rsvField, BitVec.extractLsb'_toNat, h, Nat.shiftRight_eq_div_pow]
    simp
    omega

theorem dec (sel : ChanSel) (cnt : Count) : Statement (.dec sel cnt) := by
  obtain ⟨h1, h2⟩ := low_byte cnt.field sel.field 0x4#4
  exact ⟨h2, { mnemonic := "DEC", mask := 0x000000FF#32, pattern := 0x00000004#32 }, by decide, rfl,
    by simp only [OpcodeRow.hits, encode, h1]; decide⟩

theorem enc (sel : ChanSel) (cnt : Count) : Statement (.enc sel cnt) := by
  obtain ⟨h1, h2⟩ := low_byte cnt.field sel.field 0x5#4
  exact ⟨h2, { mnemonic := "ENC", mask := 0x000000FF#32, pattern := 0x00000005#32 }, by decide, rfl,
    by simp only [OpcodeRow.hits, encode, h1]; decide⟩

end Sys2Proof.Laws.EncodesInItsRow
end

