-- ==== Sys2Proof/Laws/Stops.lean ====
section
/-! SUPPORT. How a DEC or ENC ends at the first block that does not end well, with the channels and blocks before it done. -/
namespace Sys2Proof.Machine

theorem Work.andThen_assoc (w : Work) (f g : State → Work) : (w.andThen f).andThen g = w.andThen (fun s => (f s).andThen g) := by
  cases w <;> rfl

/-- A run of blocks in two parts. -/
theorem forBlocks_add (f : Nat → State → Work) (n m k : Nat) (s : State) :
    forBlocks f (n + m) k s = (forBlocks f n k s).andThen (forBlocks f m (k + n)) := by
  induction n generalizing k s with
  | zero => simp [forBlocks]
  | succ n ih =>
    rw [Nat.add_right_comm, forBlocks, forBlocks, Work.andThen_assoc]
    congr 1
    funext t
    rw [ih, Nat.add_assoc k 1 n, Nat.add_comm 1 n]

/-- A plan in two parts. -/
theorem forChannels_append (f : Nat → Nat → State → Work) (p q : List (Nat × Nat)) (s : State) :
    forChannels f (p ++ q) s = (forChannels f p s).andThen (forChannels f q) := by
  induction p generalizing s with
  | nil => rfl
  | cons a p ih =>
    rw [List.cons_append, forChannels, forChannels, Work.andThen_assoc]
    congr 1
    funext t
    exact ih t

/-- Work that does not end well. -/
def Work.stops : Work → Bool
  | .ok _ => false
  | _ => true

theorem Work.andThen_stops {w : Work} (h : w.stops = true) (f : State → Work) : w.andThen f = w := by
  cases w <;> first | rfl | cases h

/-- A codec command ends as the first block that does not end well: the channels before it done (`u`), and `j` blocks of its own
channel done (`v`). -/
theorem codecCommand_stops {f : Nat → Nat → State → Work} {s u v : State} {sel : ChanSel} {cnt : Count} {before after : List Nat}
    {c j : Nat} {w : Work} (ready : s.CodecReady sel cnt) (sel_eq : s.selected sel = before ++ c :: after)
    (hj : j < s.countFor cnt c) (hu : forChannels f (before.map (fun d => (d, s.countFor cnt d))) s = .ok u)
    (huc : u.chan c = s.chan c) (hv : forBlocks (f c) j (s.cursorOf c) u = .ok v) (hw : f c (s.cursorOf c + j) v = w)
    (stops : w.stops = true) : codecCommand f sel cnt s = w.commit s := by
  have blocks : forBlocks (f c) (s.countFor cnt c) (s.cursorOf c) u = w := by
    obtain ⟨m, hm⟩ := Nat.exists_eq_add_of_lt hj
    rw [hm, Nat.add_assoc, forBlocks_add, hv, Work.andThen_ok, forBlocks, hw, Work.andThen_stops stops]
  have channel : forChannel f c (s.countFor cnt c) u = w := by
    have hcur : (u.chan c).cursor.toNat = s.cursorOf c := by rw [huc]; rfl
    rw [forChannel, hcur]
    simp only [blocks, Work.andThen_stops stops]
  rw [codecCommand, codecPlan_of_ready ready]
  simp only [sel_eq, List.map_append, List.map_cons, forChannels_append, hu, Work.andThen_ok, forChannels, channel,
    Work.andThen_stops stops]

theorem selected_nodup (s : State) (sel : ChanSel) : (s.selected sel).Nodup := by
  cases sel <;> simp [State.selected, List.nodup_range]

/-- The channels before the first that stops: no repeats, and the one that stops is none of them. -/
theorem before_of_selected {s : State} {sel : ChanSel} {before after : List Nat} {c : Nat}
    (h : s.selected sel = before ++ c :: after) : before.Nodup ∧ c ∉ before := by
  have hn := selected_nodup s sel
  rw [h, List.nodup_append] at hn
  exact ⟨hn.1, fun hc => hn.2.2 c hc c (by simp) rfl⟩

/-- Every selected channel has a slot and, once CHB is valid, an array. -/
theorem slots_of_ready {s : State} {sel : ChanSel} {cnt : Count} (inv : s.Inv) (ready : s.CodecReady sel cnt) :
    ∀ c ∈ s.selected sel, c < s.ch.length ∧ c < s.chb.length := by
  intro c hc
  have h1 := ready.channelsExist c hc
  have h2 := inv.slots
  have h3 := inv.channels
  have h4 := (inv.image ready.imageValid).2.1
  omega

/-- `j` blocks of a DEC whose blocks decode, from any state that agrees with `s` on the channel. -/
theorem forBlocks_dec_of_decodesTo {s u : State} {c j : Nat} (hc : c < s.ch.length) (h : s.decodesTo c j)
    (hu : u = { s with ch := u.ch, sram := u.sram }) (hl : u.ch.length = s.ch.length) (huc : u.chan c = s.chan c) :
    ∃ (y : Chan) (a : Nat) (xs : List Sample), y.cursor = (s.chan c).cursor ∧
      forBlocks (decBlock c) j (s.cursorOf c) u = .ok ((u.setChan c y).writeSram a xs) := by
  obtain ⟨bs, hbs, h⟩ := h
  have hub : u.chbOf c = s.chbOf c := by rw [hu]; rfl
  have huk : u.kind = s.kind := by rw [hu]
  have huh : u.hist c = s.hist c := by simp only [State.hist, huc]
  rcases hk : s.kind with _ | _ | _ <;> simp only [hk] at h
  · obtain ⟨⟨outs, last⟩, hd⟩ := Option.isSome_iff_exists.1 h
    refine ⟨_, _, _, ?_, forBlocks_dec_adaptive j (hl ▸ hc) (huk.trans hk) (hub ▸ hbs) (by rw [huc]; exact hd)⟩
    rw [huc]
  · obtain ⟨⟨outs, last⟩, hd⟩ := Option.isSome_iff_exists.1 h
    refine ⟨_, _, _, ?_, forBlocks_dec_predictive j (hl ▸ hc) (huk.trans hk) (hub ▸ hbs) (by rw [huh]; exact hd)⟩
    rw [huc]

/-- The channels of a DEC before the one that stops: they end well, and leave every other slot. -/
theorem forChannels_dec_of_decodesTo {s : State} {cnt : Count} {before : List Nat} (nodup : before.Nodup)
    (slots : ∀ d ∈ before, d < s.ch.length) (h : ∀ d ∈ before, s.decodesTo d (s.countFor cnt d)) :
    ∃ u, forChannels decBlock (before.map (fun d => (d, s.countFor cnt d))) s = .ok u ∧
      u = { s with ch := u.ch, sram := u.sram } ∧ u.ch.length = s.ch.length ∧ ∀ c, c ∉ before → u.chan c = s.chan c := by
  suffices H : ∀ v : State, v = { s with ch := v.ch, sram := v.sram } → v.ch.length = s.ch.length →
      (∀ d ∈ before, v.chan d = s.chan d) →
      ∃ u, forChannels decBlock (before.map (fun d => (d, s.countFor cnt d))) v = .ok u ∧
        u = { s with ch := u.ch, sram := u.sram } ∧ u.ch.length = s.ch.length ∧ ∀ c, c ∉ before → u.chan c = v.chan c from
    H s rfl rfl (fun _ _ => rfl)
  induction before with
  | nil => intro v hv hl _; exact ⟨v, rfl, hv, hl, fun _ _ => rfl⟩
  | cons d before ih =>
    intro v hv hl hch
    obtain ⟨hd, nodup⟩ := List.nodup_cons.1 nodup
    have hds := slots d (by simp)
    obtain ⟨y, a, xs, -, hb⟩ := forBlocks_dec_of_decodesTo hds (h d (by simp)) hv hl (hch d (by simp))
    have hcur : (v.chan d).cursor.toNat = s.cursorOf d := by rw [hch d (by simp)]; rfl
    obtain ⟨u, hu, h1, h2, h3⟩ := ih nodup (fun e he => slots e (by simp [he])) (fun e he => h e (by simp [he]))
      (((v.setChan d y).writeSram a xs).setCursor d (s.cursorOf d + s.countFor cnt d)) (by rw [hv]; rfl)
      (by simpa [State.setCursor, State.setChan, State.writeSram] using hl) (fun e he => by
        have hne : e ≠ d := fun h => hd (h ▸ he)
        rw [← hch e (by simp [he]), State.setCursor, State.chan_setChan_other _ _ hne]
        exact State.chan_setChan_other v y hne)
    refine ⟨u, ?_, h1, h2, fun c hc => ?_⟩
    · rw [List.map_cons, forChannels, forChannel, hcur]
      simp only [hb, Work.andThen_ok]
      exact hu
    · simp only [List.mem_cons, not_or] at hc
      rw [h3 c hc.2, State.setCursor, State.chan_setChan_other _ _ hc.1]
      exact State.chan_setChan_other v y hc.1

/-- `j` blocks of an ENC whose blocks encode, from any state that agrees with `s` on the channel. -/
theorem forBlocks_enc_of_encodesTo {s u : State} {c j : Nat} (hc : c < s.ch.length ∧ c < s.chb.length) (h : s.encodesTo c j)
    (hu : u = { s with ch := u.ch, chb := u.chb }) (hl : u.ch.length = s.ch.length) (hlb : u.chb.length = s.chb.length)
    (huc : u.chan c = s.chan c) :
    ∃ (y : Chan) (a : Nat) (xs : List Byte), y.cursor = (s.chan c).cursor ∧
      forBlocks (encBlock c) j (s.cursorOf c) u = .ok ((u.setChan c y).writeChb c a xs) := by
  have hun : ∀ i, u.sampleIndex c i = s.sampleIndex c i := by rw [hu]; exact fun _ => rfl
  have hus : u.sram = s.sram := by rw [hu]
  have huk : u.kind = s.kind := by rw [hu]
  rcases hk : s.kind with _ | _ | _ <;> simp only [State.encodesTo, hk] at h
  · obtain ⟨xs, hx, h⟩ := h
    obtain ⟨⟨bytes, last⟩, hd⟩ := Option.isSome_iff_exists.1 h
    refine ⟨_, _, _, ?_, forBlocks_enc_adaptive j (hl ▸ hc.1) (hlb ▸ hc.2) (huk.trans hk) (by rw [hus, hun]; exact hx)
      (by rw [huc]; exact hd)⟩
    rw [huc]
  · obtain ⟨xs, hx⟩ := h
    refine ⟨_, _, _, ?_, forBlocks_enc_predictive j (hl ▸ hc.1) (hlb ▸ hc.2) (huk.trans hk) (by rw [hus, hun]; exact hx)⟩
    rw [huc]

/-- The channels of an ENC before the one that stops: they end well, and leave every other slot. -/
theorem forChannels_enc_of_encodesTo {s : State} {cnt : Count} {before : List Nat} (nodup : before.Nodup)
    (slots : ∀ d ∈ before, d < s.ch.length ∧ d < s.chb.length) (h : ∀ d ∈ before, s.encodesTo d (s.countFor cnt d)) :
    ∃ u, forChannels encBlock (before.map (fun d => (d, s.countFor cnt d))) s = .ok u ∧
      u = { s with ch := u.ch, chb := u.chb } ∧ u.ch.length = s.ch.length ∧ u.chb.length = s.chb.length ∧
      ∀ c, c ∉ before → u.chan c = s.chan c := by
  suffices H : ∀ v : State, v = { s with ch := v.ch, chb := v.chb } → v.ch.length = s.ch.length → v.chb.length = s.chb.length →
      (∀ d ∈ before, v.chan d = s.chan d) →
      ∃ u, forChannels encBlock (before.map (fun d => (d, s.countFor cnt d))) v = .ok u ∧
        u = { s with ch := u.ch, chb := u.chb } ∧ u.ch.length = s.ch.length ∧ u.chb.length = s.chb.length ∧
        ∀ c, c ∉ before → u.chan c = v.chan c from
    H s rfl rfl rfl (fun _ _ => rfl)
  induction before with
  | nil => intro v hv hl hb _; exact ⟨v, rfl, hv, hl, hb, fun _ _ => rfl⟩
  | cons d before ih =>
    intro v hv hl hlb hch
    obtain ⟨hd, nodup⟩ := List.nodup_cons.1 nodup
    obtain ⟨y, a, xs, -, hb⟩ := forBlocks_enc_of_encodesTo (slots d (by simp)) (h d (by simp)) hv hl hlb (hch d (by simp))
    have hcur : (v.chan d).cursor.toNat = s.cursorOf d := by rw [hch d (by simp)]; rfl
    obtain ⟨u, hu, h1, h2, h3, h4⟩ := ih nodup (fun e he => slots e (by simp [he])) (fun e he => h e (by simp [he]))
      (((v.setChan d y).writeChb d a xs).setCursor d (s.cursorOf d + s.countFor cnt d)) (by rw [hv]; rfl)
      (by simpa [State.setCursor, State.setChan, State.writeChb] using hl)
      (by simpa [State.setCursor, State.setChan, State.writeChb] using hlb) (fun e he => by
        have hne : e ≠ d := fun h => hd (h ▸ he)
        rw [← hch e (by simp [he]), State.setCursor, State.chan_setChan_other _ _ hne]
        exact State.chan_setChan_other v y hne)
    refine ⟨u, ?_, h1, h2, h3, fun c hc => ?_⟩
    · rw [List.map_cons, forChannels, forChannel, hcur]
      simp only [hb, Work.andThen_ok]
      exact hu
    · simp only [List.mem_cons, not_or] at hc
      rw [h4 c hc.2, State.setCursor, State.chan_setChan_other _ _ hc.1]
      exact State.chan_setChan_other v y hc.1

end Sys2Proof.Machine
end

