-- ==== Sys2Proof/Tests/Slice0.lean ====
section
/-! SUPPORT. Small tests, with expected values from spec/95_test_vectors.md unless a comment says otherwise, and for each obligation a
state and operands that meet all of its hypotheses together. -/

-- One theorem after the other: many at once would each take a thread's stack.
set_option Elab.async false

namespace Sys2Proof.Machine

/-! ## Well-formedness: a term that each check refuses -/

theorem test_wf_refuses_channel_255 : Instr.wf (.dec (.one 255) .rest) = false := by decide
theorem test_wf_refuses_count_0 : Instr.wf (.dec .all (.blocks 0)) = false := by decide
theorem test_wf_refuses_count_65536 : Instr.wf (.enc (.one 0) (.blocks 65536)) = false := by decide
theorem test_wf_accepts_the_ends : Instr.wf (.enc (.one 254) (.blocks 65535)) = true ∧ Instr.wf (.dec (.one 0) (.blocks 1)) = true := by
  decide

/-! ## Decoding: words written out from R90 and R91, COUNT ++ CH ++ RSV ++ OP -/

theorem test_decode_nop :
    decode (0b0000000000000000#16 ++ 0b00000000#8 ++ 0b0000#4 ++ 0b0000#4) = .ok .nop := by decide
theorem test_decode_chreset :
    decode (0b0000000000000000#16 ++ 0b00000000#8 ++ 0b0000#4 ++ 0b0001#4) = .ok .chreset := by decide
theorem test_decode_deintl :
    decode (0b0000000000000000#16 ++ 0b00000000#8 ++ 0b0000#4 ++ 0b0010#4) = .ok .deintl := by decide
theorem test_decode_intl :
    decode (0b0000000000000000#16 ++ 0b00000000#8 ++ 0b0000#4 ++ 0b0011#4) = .ok .intl := by decide
theorem test_decode_dec :
    decode (0b1111111111111111#16 ++ 0b00000011#8 ++ 0b0000#4 ++ 0b0100#4) = .ok (.dec (.one 3) (.blocks 65535)) := by decide
theorem test_decode_enc :
    decode (0b0000000000000010#16 ++ 0b00000001#8 ++ 0b0000#4 ++ 0b0101#4) = .ok (.enc (.one 1) (.blocks 2)) := by decide
theorem test_decode_dec_all_rest : decode 0x0000FF04#32 = .ok (.dec .all .rest) := by decide
theorem test_decode_refuses_by_name :
    decode 0x0000000F#32 = .error .reservedOp ∧ decode 0x00000014#32 = .error .reservedBits ∧
    decode 0x00000100#32 = .error .operandBits ∧ decode 0x0000FF02#32 = .error .operandBits := by decide
theorem test_decode_table_word : decodeTableWord 32 0x00020105 = some (.enc (.one 1) (.blocks 2)) ∧ decodeTableWord 8 0xFF05 =
    some (.enc (.one 0) .rest) := by decide

/-! ## Small states -/

/-- The state an outcome leaves. -/
def after (o : Host.Outcome State Fault Refusal) : State :=
  match o with
  | .next t => t
  | _ => State.reset

/-- The outcome is a next state. -/
def goesOn (o : Host.Outcome State Fault Refusal) : Bool :=
  match o with
  | .next _ => true
  | _ => false

/-- The fault an outcome is. -/
def faultOf (o : Host.Outcome State Fault Refusal) : Option Fault :=
  match o with
  | .fault f => some f
  | _ => none

theorem eq_fault_of_faultOf {o : Host.Outcome State Fault Refusal} {f : Fault} (h : faultOf o = some f) : o = .fault f := by
  cases o <;> first | (cases h; rfl) | cases h

theorem eq_next_of_goesOn {o : Host.Outcome State Fault Refusal} (h : goesOn o = true) : o = .next (after o) := by
  cases o <;> first | rfl | cases h

/-- One channel of one PREDICTIVE block: CFG = 0x201, RAWLEN = 16, the given bytes in BRAM and CHB, the given samples in SRAM. -/
def oneBlock (bytes : List Byte) (samples : List Int) : State :=
  { State.reset with
    chCount := 1#8
    kind := .predictive
    rawLen := 16#32
    chv := true
    bram := Mem.setRange [] 0 bytes
    chb := [Mem.setRange [] 0 bytes]
    sram := Mem.setRange [] 0 (samples.map toSample) }

/-- The corrected zero block (V1), and 30 samples of silence. -/
def zeroState : State := oneBlock (List.replicate 16 0x80#8) (List.replicate 30 0)

/-- The literal block of the source's section 8, with coefficient index 8 (V2). -/
def badState : State := oneBlock (List.replicate 15 0x88#8 ++ [0x00#8]) []

/-- Two channels of one block each, with the first channel's cursor moved past the end of its slice. -/
def twoState : State :=
  { State.reset with
    chCount := 2#8
    kind := .predictive
    rawLen := 32#32
    chv := true
    chb := [Mem.setRange [] 0 (List.replicate 16 0x80#8), Mem.setRange [] 0 (List.replicate 16 0x80#8)] }

/-- One channel of one ADAPTIVE block, at the given cursor, with as many samples as the block can hold (SPB_A is at most 32). -/
def adaptiveState (cursor : Word) : State :=
  { zeroState with
    kind := .adaptive
    ch := zeroState.ch.set 0 { Chan.fresh with cursor := cursor }
    sram := Mem.setRange [] 0 (List.replicate 32 0#16) }

/-- An issued command. -/
def issued (s : State) (w : Word) : State := { s with latch := w, busy := true }

/-! ## One step of each command, and of the port -/

theorem test_nop_clears_the_report :
    (after (exec .nop { zeroState with err := true, errCode := .badChannel, errCh := 5#8 })).statusWord = 4#32 := by decide
theorem test_chreset_rewinds :
    ((after (exec .chreset { zeroState with ch := [{ Chan.fresh with cursor := 9#32, hist0 := 7#16 }] })).chan 0).cursor = 0#32 := by
  decide
/-- I1: L = 37 and C = 2 give S = 18; byte 36 is the buffer tail. -/
theorem test_deintl_slices :
    let t := after (exec .deintl { State.reset with chCount := 2#8, rawLen := 37#32, bram := [(17, 0x11#8), (18, 0x12#8), (36, 0x24#8)] })
    t.chb = [[(17, 0x11#8)], [(0, 0x12#8)]] ∧ t.chv = true := by decide
theorem test_intl_keeps_the_tail :
    (after (exec .intl { State.reset with
        chCount := 2#8, rawLen := 37#32, chv := true, chb := [[(17, 0xAA#8)], [(0, 0xBB#8)]],
        bram := [(3, 0x03#8), (36, 0x24#8)] })).bram = [(17, 0xAA#8), (18, 0xBB#8), (36, 0x24#8)] := by decide
/-- Dc, first row: `87 80 ×14, 89` from (0, 0) gives 3584 and then zeros. -/
theorem test_dec_first_output :
    Mem.get (after (exec (.dec (.one 0) (.blocks 1)) (oneBlock (0x87#8 :: List.replicate 14 0x80#8 ++ [0x89#8]) []))).sram 0
      = some 3584#16 := by decide +kernel
theorem test_dec_bad_block_is_reported : (after (exec (.dec .all .rest) badState)).statusWord = 0x66#32 := by decide +kernel
/-- E3: 30 samples of 1000 encode to `F7 ×15, 87`. -/
theorem test_enc_1000 :
    (after (exec (.enc (.one 0) (.blocks 1)) (oneBlock [] (List.replicate 30 1000)))).chb
      = [Mem.setRange [] 0 (List.replicate 15 0xF7#8 ++ [0x87#8])] := by decide +kernel
/-- E8: the zero stop at candidate (0, 6). -/
theorem test_enc_256 :
    (pEncodeBlock (0, 0) (List.replicate 30 256)).block = (Vector.replicate 15 0xC4#8).push 0x86#8 ∧
    (pEncodeBlock (0, 0) (List.replicate 30 256)).hist = (16384, 16384) := by decide +kernel
/-- V-D6. -/
theorem test_decode_block_vd6 :
    (pDecodeBlock (0, 0) #v[0xA1#8, 0xC3#8, 0xE5#8, 0x07#8, 0x29#8, 0x4B#8, 0x6D#8, 0x8F#8, 0x71#8, 0x62#8, 0x53#8, 0x44#8, 0x35#8,
      0x26#8, 0x07#8, 0xA2#8]).map (fun r => (r.1.take 6, r.2)) = some ([0, 0, 0, 64, 64, 128], (-7016, -6630)) := by decide +kernel
/-- X5 to X8: KIND 3, CHCOUNT 0 and CHCOUNT 5 are rejected with CONFIG_ERROR, and 0x202 is accepted. -/
theorem test_cfg_writes :
    (writeReg State.reset 0x10 0x300#32).statusWord = 0x22#32 ∧ (writeReg State.reset 0x10 0x200#32).statusWord = 0x22#32 ∧
    (writeReg State.reset 0x10 0x205#32).statusWord = 0x22#32 ∧ readReg (writeReg State.reset 0x10 0x205#32) 0x10 = 0#32 ∧
    readReg (writeReg State.reset 0x10 0x202#32) 0x10 = 0x202#32 := by decide
/-- G1 to G3. -/
theorem test_window :
    readReg { State.reset with ch := [{ Chan.fresh with hist0 := (-7016 : Sample) }] } 0x28 = 0xFFFFE498#32 ∧
    readReg (writeReg State.reset 0x28 0x00018000#32) 0x28 = 0xFFFF8000#32 ∧
    readReg (writeReg State.reset 0x2C 0x12347FFF#32) 0x2C = 32767#32 := by decide
/-- G5. -/
theorem test_sizes :
    let s : State := { State.reset with chCount := 1#8, kind := .adaptive, rawLen := 0xFFFFFFFF#32 }
    readReg s 0x18 = 0xFFFFFFFF#32 ∧ readReg s 0x1C = 0x0FFFFFFF#32 ∧ readReg s 0x20 = 0xFFFFFFFE#32 := by decide +kernel
/-- R117, L1-1: byte_size 0x300 and two channels give 480 PREDICTIVE and 512 ADAPTIVE samples. -/
theorem test_worked_sample_count :
    samplesIn .predictive 0x200 2 = 480 ∧ samplesIn .adaptive 0x200 2 = 512 ∧
    readReg { State.reset with chCount := 2#8, kind := .predictive, rawLen := 0x200#32 } 0x20 = 480#32 := by decide +kernel
/-- Section 2.8. -/
theorem test_coding_bytes :
    rateOf 0xB4#8 = some .hz32728 ∧ codingOf 0x72#8 = some .adaptive ∧ rateOf 0xBD#8 = some .hz32728 ∧ rateOf 0xB6#8 = none ∧
    rateOf 0xB0#8 = none ∧ codingOf 0x34#8 = none := by decide
/-- R121: how commands are spelled. -/
theorem test_spelling : Instr.spelling (.dec .all .rest) = "DEC ALL, REST" ∧ Instr.spelling .chreset = "CHRESET" := by decide
/-- P5: the host's write before the core's step is a fault; after it, the write clears CHV. -/
theorem test_p5 :
    faultOf (step { issued zeroState 2#32 with script := [wrReg 0x14 32#32], schedule := [.host] }) = some .busyAccess ∧
    (after (step { issued zeroState 2#32 with script := [wrReg 0x14 32#32], schedule := [.core] })).busy = false := by
  decide

/-! ## Witnesses -/

/-- The invariant as a check that runs. -/
def invHolds (s : State) : Bool :=
  s.params.legal && decide (s.ch.length = s.params.nchMax) && decide (s.nch ≤ s.params.nchMax) &&
  decide (s.kind = .none ↔ s.chCount = 0#8) && Mem.wf s.bram && Mem.below s.bram s.params.bramSize && Mem.wf s.sram &&
  Mem.below s.sram s.params.sramWords && s.chb.all Mem.wf &&
  decide (s.chv = true → s.interleaverUsable = true ∧ s.chb.length = s.nch ∧ ∀ m ∈ s.chb, Mem.below m s.sliceLen = true) &&
  decide (s.err = false ↔ s.errCode = .ok) && decide (s.err = false → s.errCh = 0#8 ∧ s.errBlk = 0#32)

theorem inv_of_invHolds {s : State} (h : invHolds s = true) : s.Inv := by
  simp only [invHolds, Bool.and_eq_true, decide_eq_true_eq, List.all_eq_true] at h
  obtain ⟨⟨⟨⟨⟨⟨⟨⟨⟨⟨⟨h1, h2⟩, h3⟩, h4⟩, h5⟩, h6⟩, h7⟩, h8⟩, h9⟩, h10⟩, h11⟩, h12⟩ := h
  exact ⟨h1, h2, h3, h4, h5, h6, h7, h8, h9, h10, h11, h12⟩

theorem zeroState_inv : zeroState.Inv := inv_of_invHolds (by decide +kernel)
theorem adaptive_inv : (adaptiveState 1#32).Inv := inv_of_invHolds (by decide +kernel)
theorem adaptive_inv_start : (adaptiveState 0#32).Inv := inv_of_invHolds (by decide +kernel)
theorem badState_inv : badState.Inv := inv_of_invHolds (by decide +kernel)

/-- A state with CHB valid and every cell of it unwritten. -/
def blankState : State := oneBlock [] []

theorem blankState_inv : blankState.Inv := inv_of_invHolds (by decide +kernel)

/-- The same with KIND = ADAPTIVE. -/
def blankAdaptive : State := { blankState with kind := .adaptive }

theorem blankAdaptive_inv : blankAdaptive.Inv := inv_of_invHolds (by decide +kernel)

theorem fits_of_decide {s : State} {cnt : Count} {c : Nat}
    (h : (decide (s.cursorOf c ≤ s.nblk) && decide (s.cursorOf c + s.countFor cnt c ≤ s.nblk)) = true) : s.fits cnt c := by
  simpa [State.fits] using h

theorem ready_one {s : State} {cnt : Count} (h1 : s.nch = 1) (h2 : s.kind ≠ .none) (h3 : s.len ≤ s.params.bramSize)
    (h4 : s.nch * s.nsamp ≤ s.params.sramWords) (h5 : s.chv = true) (h6 : s.fits cnt 0) : s.CodecReady (.one 0) cnt where
  configured := ⟨by omega, h2⟩
  bramHolds := h3
  sramHolds := h4
  channelsExist := by simp [State.selected, h1]
  imageValid := h5
  countsFit := by simpa [State.selected] using h6

theorem zeroState_ready : zeroState.CodecReady (.one 0) (.blocks 1) :=
  ready_one (by decide) (by decide) (by decide) (by decide) (by decide) (fits_of_decide (by decide))
theorem badState_ready : badState.CodecReady (.one 0) (.blocks 1) :=
  ready_one (by decide) (by decide) (by decide) (by decide) (by decide) (fits_of_decide (by decide))
theorem blankState_ready : blankState.CodecReady (.one 0) (.blocks 1) :=
  ready_one (by decide) (by decide) (by decide) (by decide) (by decide) (fits_of_decide (by decide))
theorem blankAdaptive_ready : blankAdaptive.CodecReady (.one 0) (.blocks 1) :=
  ready_one (by decide) (by decide) (by decide) (by decide) (by decide) (fits_of_decide (by decide))
theorem adaptive_ready : (adaptiveState 1#32).CodecReady (.one 0) .rest :=
  ready_one (by decide) (by decide) (by decide) (by decide) (by decide) (fits_of_decide (by decide))
theorem adaptive_ready_start : (adaptiveState 0#32).CodecReady (.one 0) .rest :=
  ready_one (by decide) (by decide) (by decide) (by decide) (by decide) (fits_of_decide (by decide))

/-! ### The command word -/

theorem test_witness_DecodeOfEncodeIsTheInstruction :
    Instr.wf (.dec (.one 254) (.blocks 65535)) = true ∧ Instr.wf (.enc .all .rest) = true ∧ Instr.wf .nop = true := by decide

theorem test_witness_IllegalWordsAreThoseOfTheRule :
    (∃ e, decode 0x6#32 = .error e) ∧ (∃ e, decode 0xF#32 = .error e) ∧ (∃ e, decode 0x14#32 = .error e) ∧
    (∃ e, decode 0x103#32 = .error e) ∧ decode 0x5#32 = .ok (.enc (.one 0) .rest) ∧
    ((issued zeroState 0x6#32).latch = 0x6#32 ∧ ∃ e, decode 0x6#32 = .error e) :=
  ⟨⟨.reservedOp, by decide⟩, ⟨.reservedOp, by decide⟩, ⟨.reservedBits, by decide⟩, ⟨.operandBits, by decide⟩, by decide, rfl,
    .reservedOp, by decide⟩

theorem test_witness_DecoderAgreesWithTheOpcodeTable :
    decode 0xFFFFFF04#32 = .ok (.dec .all (.blocks 65535)) ∧
    { mnemonic := "DEC", mask := 0x000000FF#32, pattern := 0x00000004#32 } ∈ opcodeTable ∧
    OpcodeRow.hits { mnemonic := "DEC", mask := 0x000000FF#32, pattern := 0x00000004#32 } 0xFFFFFF04#32 = true := by decide

theorem test_witness_NibblesAndCodesAreInverse :
    ∃ (b : Vector Byte 16) (j : Nat) (lo hi : Int) (_ : j < 15), -8 ≤ lo ∧ lo ≤ 7 ∧ -8 ≤ hi ∧ hi ≤ 7 ∧
      b[j] = (codeNibble hi ++ codeNibble lo) ^^^ 0x80#8 :=
  ⟨Vector.replicate 16 0xF8#8, 14, -8, 7, by decide, by decide, by decide, by decide, by decide, by decide⟩

/-! ### Steps and runs -/

theorem test_witness_StepRunsTheLatchedCommand :
    (issued zeroState 4#32).fault = none ∧ (issued zeroState 4#32).busy = true ∧
    decode (issued zeroState 4#32).latch = .ok (.dec (.one 0) .rest) ∧
    decode (issued zeroState 6#32).latch = .error .reservedOp ∧ (issued zeroState 4#32).script = [] ∧
    State.script { issued zeroState 4#32 with script := [.wait] } = [.wait] ∧
    State.script { issued zeroState 4#32 with script := [rdReg 4], schedule := [.core] } = [rdReg 4] ∧
    (State.schedule { issued zeroState 4#32 with script := [rdReg 4], schedule := [.core] }).head? ≠ some .host ∧
    (State.schedule { issued zeroState 4#32 with script := [rdReg 4], schedule := [.host] }).head? = some .host := by decide

theorem test_witness_IdleCoreLetsTheHostMove :
    zeroState.fault = none ∧ zeroState.busy = false ∧ zeroState.script = [] ∧
    State.script { zeroState with script := [rdReg 4] } = [rdReg 4] ∧ State.script { zeroState with script := [.wait] } = [.wait] := by
  decide

theorem test_witness_PlacedWordRunsNext : decode 0xFF05#32 = .ok (.enc .all .rest) := by decide

theorem test_witness_FaultedStateHasNoStep :
    State.fault { zeroState with fault := some .badSpace } = some .badSpace ∧
    State.fault { zeroState with script := [rdBram 2 1] } = none ∧
    step { zeroState with script := [rdBram 2 1] } = .fault .bramMisaligned :=
  ⟨rfl, rfl, eq_fault_of_faultOf (by decide)⟩

theorem test_witness_IssuedCommandCompletesOrFaults :
    State.fault { issued zeroState 4#32 with script := [rdReg 4], schedule := [.host] } = none ∧
    State.busy { issued zeroState 4#32 with script := [rdReg 4], schedule := [.host] } = true := by decide

theorem test_witness_ResetLeavesTheStatedState : 3 < Params.ofVectors.nchMax := by decide

theorem test_witness_ResetMeetsTheInvariant :
    Params.legal { nchMax := 1, bramSize := 16, sramWords := 1 } = true ∧
    Params.legal { nchMax := 255, bramSize := 4294967296, sramWords := 4294967296 } = true := by decide

theorem test_witness_StepKeepsTheInvariant : zeroState.Inv ∧ ∃ t, step zeroState = .next t :=
  ⟨zeroState_inv, zeroState, rfl⟩

theorem test_witness_NoStepIsRefused : ∃ t, step zeroState = .next t := ⟨zeroState, rfl⟩

/-! ### Completion -/

theorem test_witness_CompletionsArePrecise :
    (∃ t, exec .intl State.reset = .next t ∧ t.err = true) ∧ (∃ t, exec .nop State.reset = .next t ∧ t.err = false) :=
  ⟨⟨_, rfl, rfl⟩, _, rfl, rfl⟩

theorem test_witness_EachStoreHasItsWriters :
    (∃ t, exec .intl { zeroState with bram := [] } = .next t ∧ t.bram ≠ []) ∧
    (∃ t, exec (.dec (.one 0) .rest) { zeroState with sram := [] } = .next t ∧ t.sram ≠ []) ∧
    (∃ t, exec .deintl { zeroState with chb := [], chv := false } = .next t ∧ t.chb ≠ [] ∧ t.chv ≠ false) ∧
    (∃ t, exec (.enc (.one 0) .rest) { zeroState with chb := [[]] } = .next t ∧ t.chb ≠ [[]]) ∧
    (∃ t, exec .chreset { zeroState with ch := [] } = .next t ∧ t.ch ≠ []) := by
  refine ⟨⟨_, eq_next_of_goesOn ?_, ?_⟩, ⟨_, eq_next_of_goesOn ?_, ?_⟩, ⟨_, eq_next_of_goesOn ?_, ?_, ?_⟩,
    ⟨_, eq_next_of_goesOn ?_, ?_⟩, _, rfl, ?_⟩
  all_goals decide +kernel

/-- Unusable in each of the four ways, each with an otherwise usable state beside its limit; a channel at the limit; CHV = 0; and a
cursor one past the end. -/
theorem test_witness_CodecChecksRunInOrder :
    decode (issued twoState 0xFF04#32).latch = .ok (.dec .all .rest) ∧ decode 0x205#32 = .ok (.enc (.one 2) .rest) ∧
    twoState.codecUsable = true ∧ State.codecUsable { twoState with chCount := 0#8 } = false ∧
    State.codecUsable { twoState with kind := .none } = false ∧ State.codecUsable { twoState with rawLen := 256#32 } = false ∧
    State.codecUsable { twoState with rawLen := 257#32 } = false ∧ State.codecUsable { twoState with rawLen := 128#32 } = true ∧
    twoState.nch ≤ 2 ∧ (∀ c ∈ twoState.selected .all, c < twoState.nch) ∧ State.chv { twoState with chv := false } = false ∧
    State.selected { twoState with ch := [Chan.fresh, { Chan.fresh with cursor := 2#32 }] } .all = [0] ++ 1 :: [] ∧
    State.cursorOf { twoState with ch := [Chan.fresh, { Chan.fresh with cursor := 2#32 }] } 1 = twoState.nblk + 1 ∧
    State.cursorOf { twoState with ch := [Chan.fresh, { Chan.fresh with cursor := 2#32 }] } 0 ≤ twoState.nblk := by decide +kernel

theorem test_witness_InterleaverChecksRunInOrder :
    (∃ e, decode 0x0000FF02#32 = .error e) ∧ decode (issued State.reset 2#32).latch = .ok .deintl ∧
    decode (issued State.reset 3#32).latch = .ok .intl ∧ State.reset.interleaverUsable = false ∧
    State.interleaverUsable { twoState with rawLen := 257#32 } = false ∧
    State.interleaverUsable { twoState with rawLen := 256#32, kind := .none, chv := false } = true ∧ twoState.chv = true :=
  ⟨⟨.operandBits, by decide⟩, by decide, by decide, by decide, by decide, by decide, by decide⟩

/-! ### Control and interleaver -/

theorem test_witness_NopClearsTheReport :
    (∃ t, exec .nop zeroState = .next t) ∧ opField 0x10#32 = 0#4 ∧ (0x10#32 : Word) ≠ 0#32 ∧
    (issued zeroState 0x10#32).latch = 0x10#32 :=
  ⟨⟨_, rfl⟩, by decide, by decide, rfl⟩

theorem test_witness_ChresetMakesEverySlotFresh :
    3 < zeroState.params.nchMax ∧ opField 0x101#32 = 1#4 ∧ (0x101#32 : Word) ≠ 1#32 ∧
    (issued zeroState 0x101#32).latch = 0x101#32 := by decide

/-- C = 1 and C = NCH_MAX; L = BRAM_SIZE is the last length that is usable. The last slice's last byte. -/
theorem test_witness_DeintlCopiesEachSlice :
    (1 ≤ zeroState.nch ∧ zeroState.len ≤ zeroState.params.bramSize) ∧
    (1 ≤ State.nch { State.reset with chCount := 4#8, rawLen := 256#32 } ∧
      State.len { State.reset with chCount := 4#8, rawLen := 256#32 } ≤ State.reset.params.bramSize ∧
      3 < State.nch { State.reset with chCount := 4#8, rawLen := 256#32 } ∧ 63 < 256 / 4) ∧
    ¬ (1 ≤ State.nch { State.reset with chCount := 4#8, rawLen := 257#32 } ∧
      State.len { State.reset with chCount := 4#8, rawLen := 257#32 } ≤ State.reset.params.bramSize) ∧
    ¬ (1 ≤ State.reset.nch ∧ State.reset.len ≤ State.reset.params.bramSize) ∧
    opField 0x10002#32 = 2#4 ∧ (0x10002#32 : Word) ≠ 2#32 ∧ (issued zeroState 0x10002#32).latch = 0x10002#32 := by decide

theorem test_witness_IntlWritesEachSliceBack :
    (1 ≤ zeroState.nch ∧ zeroState.len ≤ zeroState.params.bramSize ∧ zeroState.chv = true) ∧
    ¬ (1 ≤ State.reset.nch ∧ State.reset.len ≤ State.reset.params.bramSize) ∧
    (1 ≤ State.nch { zeroState with chv := false } ∧ State.chv { zeroState with chv := false } = false) ∧
    opField 0x13#32 = 3#4 ∧ (0x13#32 : Word) ≠ 3#32 ∧ (issued zeroState 0x13#32).latch = 0x13#32 := by decide

theorem test_witness_UnmodifiedStreamRoundTrips :
    Mem.wf zeroState.bram = true ∧ 1 ≤ zeroState.nch ∧ zeroState.len ≤ zeroState.params.bramSize ∧
    (∀ i ∈ [Instr.dec .all .rest], ∃ sel cnt, i = .dec sel cnt) ∧
    ∃ t u, exec .deintl zeroState = .next t ∧ execAll [Instr.dec .all .rest] t = .next u := by
  refine ⟨by decide, by decide, by decide, by simp, _, _, eq_next_of_goesOn (by decide), eq_next_of_goesOn (by decide +kernel)⟩

theorem test_witness_IntlThenDeintlKeepsChannels : zeroState.Inv ∧ zeroState.chv = true := ⟨zeroState_inv, rfl⟩

/-! ### The predictive codec -/

/-- The last index that decodes, with the highest scale. -/
theorem test_witness_DecodeFailsOnBadIndexOnly :
    coefIndexOf (Vector.replicate 16 0xCF#8) = 4 ∧
    [((0 : Int), (0 : Int)), (60, 0), (115, -52), (98, -55), (122, -60)][coefIndexOf (Vector.replicate 16 0xCF#8)]? = some (122, -60) ∧
    coefIndexOf (Vector.replicate 16 0xD0#8) = 5 := by decide

theorem test_witness_PredictionAndReconstructionRanges :
    coefficients 4 = some (122, -60) ∧ predict 122 (-60) (32767, -32768) = 93182 ∧
    predict 122 (-60) (-32768, 32767) = -93183 ∧ reconstruct 93182 7 15 = 14773246 ∧ reconstruct (-93183) (-8) 15 = -16870399 := by
  decide

theorem test_witness_OutputsAreMultiplesOf64 : (pDecodeBlock (32767, -32768) (Vector.replicate 16 0xCF#8)).isSome = true := by
  decide +kernel

theorem test_witness_HistoryStaysIn16Bits : (-32768 : Int) ≤ -32768 ∧ (32767 : Int) ≤ 32767 := by decide

theorem test_witness_SearchFindsTheEarliestMinimum :
    (4 < 5 ∧ 11 < 12) ∧ candidates[59]? = some (4, 11) ∧ candidates[0]? = some (0, 0) := by decide

theorem test_witness_EncodedBlockIsAlwaysValid : (List.replicate 30 (1000 : Int)).length ≤ 30 := by decide

theorem test_witness_EncodeThenDecodeIsExact : ([640, -640, 1280] : List Int).length ≤ 30 := by decide

theorem test_witness_ZeroBlockIsSilence : (30 : Nat) ≤ 30 := by decide

/-! ### DEC and ENC -/

theorem test_witness_DecDecodesThePlannedBlocks :
    zeroState.Inv ∧ zeroState.CodecReady (.one 0) (.blocks 1) ∧ zeroState.kind = .predictive ∧
    ∀ c ∈ zeroState.selected (.one 0), ∃ bs, zeroState.blocksToDecode (.blocks 1) c = some bs ∧
      decodeBlocks (zeroState.hist c) bs = some (List.replicate 30 0, (0, 0)) := by
  refine ⟨zeroState_inv, zeroState_ready, rfl, ?_⟩
  intro c hc
  obtain rfl : c = 0 := by simpa [State.selected] using hc
  exact ⟨[Vector.replicate 16 0x80#8], by decide +kernel, by decide +kernel⟩

theorem test_witness_DecStopsAtTheFirstInvalidBlock :
    badState.Inv ∧ badState.CodecReady (.one 0) (.blocks 1) ∧ badState.kind = .predictive ∧
    badState.selected (.one 0) = [] ++ 0 :: [] ∧ 0 < badState.countFor (.blocks 1) 0 ∧
    rangesAt (badState.chbOf 0) 16 (16 * badState.cursorOf 0) 0 = some [] ∧ (decodeBlocks (badState.hist 0) []).isSome = true ∧
    ∃ b, Mem.getRange (badState.chbOf 0) (16 * (badState.cursorOf 0 + 0)) 16 = some b ∧ 4 < coefIndexOf b :=
  ⟨badState_inv, badState_ready, rfl, rfl, by decide, rfl, rfl, (Vector.replicate 15 0x88#8).push 0x00#8, by decide +kernel, by decide⟩

/-- No channel and no block comes before, of either kind. -/
theorem test_witness_DecFaultsOnAnUnwrittenBlock :
    (blankState.Inv ∧ blankState.CodecReady (.one 0) (.blocks 1) ∧ blankState.selected (.one 0) = [] ++ 0 :: [] ∧
      0 < blankState.countFor (.blocks 1) 0 ∧ blankState.decodesTo 0 0 ∧
      ∃ i < 16, Mem.get (blankState.chbOf 0) (16 * (blankState.cursorOf 0 + 0) + i) = none) ∧
    (blankAdaptive.Inv ∧ blankAdaptive.CodecReady (.one 0) (.blocks 1) ∧ blankAdaptive.selected (.one 0) = [] ++ 0 :: [] ∧
      0 < blankAdaptive.countFor (.blocks 1) 0 ∧ blankAdaptive.decodesTo 0 0 ∧
      ∃ i < 16, Mem.get (blankAdaptive.chbOf 0) (16 * (blankAdaptive.cursorOf 0 + 0) + i) = none) :=
  ⟨⟨blankState_inv, blankState_ready, rfl, by decide, ⟨[], rfl, rfl⟩, 15, by decide, by decide⟩,
    blankAdaptive_inv, blankAdaptive_ready, rfl, by decide, ⟨[], rfl, rfl⟩, 0, by decide, by decide⟩

theorem test_witness_EncEncodesThePlannedBlocks :
    zeroState.Inv ∧ zeroState.CodecReady (.one 0) (.blocks 1) ∧ zeroState.kind = .predictive ∧
    ∀ c ∈ zeroState.selected (.one 0), ∃ xs, zeroState.samplesToEncode (.blocks 1) c = some xs ∧
      encodeBlocks (zeroState.hist c) (xs.map signedSamples) =
        { bytes := List.replicate 16 0x80#8, outs := List.replicate 30 0, hist := (0, 0) } := by
  refine ⟨zeroState_inv, zeroState_ready, rfl, ?_⟩
  intro c hc
  obtain rfl : c = 0 := by simpa [State.selected] using hc
  exact ⟨[Vector.replicate 30 0#16], by decide +kernel, by decide +kernel⟩

theorem test_witness_EncFaultsOnUnwrittenSamples :
    (blankState.Inv ∧ blankState.CodecReady (.one 0) (.blocks 1) ∧ blankState.selected (.one 0) = [] ++ 0 :: [] ∧
      0 < blankState.countFor (.blocks 1) 0 ∧ blankState.encodesTo 0 0 ∧
      ∃ i < blankState.samplesPerBlock,
        Mem.get blankState.sram (0 * blankState.nsamp + blankState.samplesPerBlock * (blankState.cursorOf 0 + 0) + i) = none) ∧
    (blankAdaptive.Inv ∧ blankAdaptive.CodecReady (.one 0) (.blocks 1) ∧ blankAdaptive.selected (.one 0) = [] ++ 0 :: [] ∧
      0 < blankAdaptive.countFor (.blocks 1) 0 ∧ blankAdaptive.encodesTo 0 0 ∧
      ∃ i < blankAdaptive.samplesPerBlock,
        Mem.get blankAdaptive.sram
          (0 * blankAdaptive.nsamp + blankAdaptive.samplesPerBlock * (blankAdaptive.cursorOf 0 + 0) + i) = none) :=
  ⟨⟨blankState_inv, blankState_ready, rfl, by decide, ⟨[], rfl⟩, 29, by decide, rfl⟩,
    blankAdaptive_inv, blankAdaptive_ready, rfl, by decide, ⟨[], rfl, rfl⟩, 0, Nat.succ_pos _, rfl⟩

/-- The cursor stands at NBLK, so REST is no block: nothing is asked of the OPEN codec. -/
theorem test_witness_AdaptiveDecRunsTheOpenDecoder :
    (adaptiveState 1#32).Inv ∧ (adaptiveState 1#32).CodecReady (.one 0) .rest ∧ (adaptiveState 1#32).kind = .adaptive ∧
    ∀ c ∈ (adaptiveState 1#32).selected (.one 0), ∃ bs, (adaptiveState 1#32).blocksToDecode .rest c = some bs ∧
      adDecodeBlocks ((adaptiveState 1#32).chan c).ast bs = some ([], ((adaptiveState 1#32).chan c).ast) := by
  refine ⟨adaptive_inv, adaptive_ready, rfl, ?_⟩
  intro c hc
  obtain rfl : c = 0 := by simpa [State.selected] using hc
  refine ⟨[], ?_, rfl⟩
  have h : (adaptiveState 1#32).countFor .rest 0 = 0 := by decide
  rw [State.blocksToDecode, h]
  rfl

theorem test_witness_AdaptiveEncRunsTheOpenEncoder :
    (adaptiveState 1#32).Inv ∧ (adaptiveState 1#32).CodecReady (.one 0) .rest ∧ (adaptiveState 1#32).kind = .adaptive ∧
    ∀ c ∈ (adaptiveState 1#32).selected (.one 0), ∃ xs, (adaptiveState 1#32).adSamplesToEncode .rest c = some xs ∧
      adEncodeBlocks ((adaptiveState 1#32).chan c).ast xs = some ([], ((adaptiveState 1#32).chan c).ast) := by
  refine ⟨adaptive_inv, adaptive_ready, rfl, ?_⟩
  intro c hc
  obtain rfl : c = 0 := by simpa [State.selected] using hc
  refine ⟨[], ?_, rfl⟩
  have h : (adaptiveState 1#32).countFor .rest 0 = 0 := by decide
  rw [State.adSamplesToEncode, h]
  rfl

/-- All but what the OPEN codec answers, which no proof can fix: R214 lets it fail on any block. -/
theorem test_witness_AdaptiveBlockSucceedsOrReports :
    (adaptiveState 0#32).Inv ∧ (adaptiveState 0#32).CodecReady (.one 0) .rest ∧ (adaptiveState 0#32).kind = .adaptive ∧
    (adaptiveState 0#32).selected (.one 0) = [] ++ 0 :: [] ∧ (adaptiveState 0#32).countFor .rest 0 = 1 ∧
    rangesAt ((adaptiveState 0#32).chbOf 0) 16 (16 * (adaptiveState 0#32).cursorOf 0) 0 = some [] ∧
    adDecodeBlocks ((adaptiveState 0#32).chan 0).ast [] = some ([], ((adaptiveState 0#32).chan 0).ast) ∧
    adEncodeBlocks ((adaptiveState 0#32).chan 0).ast [] = some ([], ((adaptiveState 0#32).chan 0).ast) ∧
    (∃ b, Mem.getRange ((adaptiveState 0#32).chbOf 0) (16 * (adaptiveState 0#32).cursorOf 0) 16 = some b) ∧
    ∃ x, Mem.getRange (adaptiveState 0#32).sram
      (0 * (adaptiveState 0#32).nsamp + Config.spbA * (adaptiveState 0#32).cursorOf 0) Config.spbA = some x := by
  refine ⟨adaptive_inv_start, adaptive_ready_start, rfl, rfl, by decide, rfl, rfl, rfl,
    ⟨Vector.replicate 16 0x80#8, by decide +kernel⟩, ?_⟩
  have h0 : (adaptiveState 0#32).cursorOf 0 = 0 := by decide
  have written : ∀ i < 32, (Mem.get (adaptiveState 0#32).sram i).isSome = true := by decide +kernel
  rw [← Option.isSome_iff_exists, Mem.getRange_isSome_iff, h0]
  intro i hi
  have hs : Config.spbA ≤ 32 := by unfold Config.spbA; omega
  simpa using written i (by omega)

/-- The last channel that ALL does not name, and the one beside a single channel. -/
theorem test_witness_ChannelsAreIndependent :
    Instr.dec .all .rest ≠ .chreset ∧ 2 ∉ twoState.selected .all ∧ 1 ∉ twoState.selected (.one 0) ∧
    ∃ t, exec (.dec (.one 0) (.blocks 1)) twoState = .next t :=
  ⟨by decide, by decide, by decide, _, eq_next_of_goesOn (by decide +kernel)⟩

theorem test_witness_KindDecidesWhichStateMoves :
    (∃ t, exec (.dec .all .rest) zeroState = .next t) ∧ zeroState.kind = .predictive ∧
    (∃ t, exec (.dec .all .rest) (adaptiveState 1#32) = .next t) ∧ (adaptiveState 1#32).kind = .adaptive :=
  ⟨⟨_, eq_next_of_goesOn (by decide +kernel)⟩, rfl, ⟨_, eq_next_of_goesOn (by decide +kernel)⟩, rfl⟩

/-- One channel of two zero blocks. -/
def longState : State := { zeroState with rawLen := 32#32, chb := [Mem.setRange [] 0 (List.replicate 32 0x80#8)] }

theorem test_witness_ResumedDecodeContinues :
    longState.Inv ∧ ∃ t u, exec (.dec (.one 0) (.blocks 1)) longState = .next t ∧ t.err = false ∧
      exec (.dec (.one 0) (.blocks 1)) t = .next u ∧ u.err = false :=
  ⟨inv_of_invHolds (by decide +kernel), _, _, eq_next_of_goesOn (by decide +kernel), by decide +kernel,
    eq_next_of_goesOn (by decide +kernel), by decide +kernel⟩

theorem test_witness_EncThenDecReproduces :
    zeroState.Inv ∧ zeroState.CodecReady (.one 0) (.blocks 1) ∧ zeroState.kind = .predictive ∧
    zeroState.samplesToEncode (.blocks 1) 0 = some [Vector.replicate 30 0#16] :=
  ⟨zeroState_inv, zeroState_ready, rfl, by decide +kernel⟩

/-! ### Registers -/

theorem test_witness_CmdWriteIssuesACommand :
    zeroState.busy = false ∧ (issued zeroState 1#32).busy = true ∧ decode 0xFF04#32 = .ok (.dec .all .rest) := by decide

/-- CHCOUNT at both ends of its range and one outside each, for each KIND. -/
theorem test_witness_CfgWriteIsChecked :
    zeroState.busy = false ∧
    (((0x101#32).extractLsb' 0 8).toNat = 1 ∧ (0x101#32).extractLsb' 8 2 = 1#2) ∧
    (((0x204#32).extractLsb' 0 8).toNat = zeroState.params.nchMax ∧ (0x204#32).extractLsb' 8 2 = 2#2) ∧
    ((0x200#32).extractLsb' 0 8).toNat = 0 ∧ ((0x205#32).extractLsb' 0 8).toNat = zeroState.params.nchMax + 1 ∧
    (0x301#32).extractLsb' 8 2 = 3#2 ∧ (0x001#32).extractLsb' 8 2 = 0#2 ∧
    (after (hostAccess { space := .reg, addr := 0x10, width := 4, dir := .write 0xFFFFFE04#32 } zeroState)).err = false ∧
    goesOn (hostAccess { space := .reg, addr := 0x10, width := 4, dir := .write 0xFFFFFE04#32 } zeroState) = true := by decide

theorem test_witness_RawLenIsCheckedAtUse :
    zeroState.busy = false ∧ zeroState.params.bramSize < (State.rawLen { zeroState with rawLen := 257#32 }).toNat := by decide

theorem test_witness_SizeRegistersAreDerived :
    zeroState.kind = .predictive ∧ (adaptiveState 0#32).kind = .adaptive ∧ State.reset.kind = .none ∧
    zeroState.chCount.toNat = 1 ∧ State.reset.chCount.toNat = 0 := by decide

theorem test_witness_WindowShowsTheSelectedSlot :
    State.reset.ch.length = State.reset.params.nchMax ∧
    (State.chSel { State.reset with chSel := 3#8 }).toNat < State.reset.params.nchMax ∧
    State.reset.params.nchMax ≤ (State.chSel { State.reset with chSel := 4#8 }).toNat := by decide

theorem test_witness_RegisterAccessesReachTheRegister :
    zeroState.busy = false ∧ 0 % 4 = 0 ∧ 0xFC % 4 = 0 ∧ 0xFC ≤ 0xFC ∧ 0x34 % 4 = 0 ∧ 0x34 ≤ 0x34 := by decide

/-! ### The port -/

theorem test_witness_BramAccessIsLittleEndian :
    zeroState.busy = false ∧ (252 % 4 = 0 ∧ 252 + 4 ≤ zeroState.params.bramSize) ∧
    (12 % 4 = 0 ∧ ∀ k (h : k < 4), Mem.get zeroState.bram (12 + k) = some (#v[0x80#8, 0x80#8, 0x80#8, 0x80#8])[k]) ∧
    ¬ (256 % 1 = 0 ∧ 256 + 1 ≤ zeroState.params.bramSize) ∧ ¬ (1 % 2 = 0 ∧ 1 + 2 ≤ zeroState.params.bramSize) := by
  refine ⟨by decide, by decide, ⟨by decide, ?_⟩, by decide, by decide⟩
  intro k h
  interval_cases k <;> rfl

theorem test_witness_SramAccessMovesOneWord :
    zeroState.busy = false ∧ 255 < zeroState.params.sramWords ∧ Mem.get zeroState.sram 29 = some 0#16 ∧
    zeroState.params.sramWords ≤ 256 := by decide +kernel

theorem test_witness_AccessesOutsideThePortFault :
    ¬ (4 = 4 ∧ 0x06 % 4 = 0 ∧ 0x06 ≤ 0xFC) ∧ ¬ (4 = 4 ∧ 0x100 % 4 = 0 ∧ 0x100 ≤ 0xFC) ∧
    ¬ (2 = 4 ∧ 0 % 4 = 0 ∧ 0 ≤ 0xFC) ∧ (3 ≠ 1 ∧ 3 ≠ 2 ∧ 3 ≠ 4) ∧ 4 ≠ 2 := by decide

theorem test_witness_BusyAllowsOnlyStatusReads :
    (issued zeroState 2#32).busy = true ∧
    ({ space := .reg, addr := 8, width := 4, dir := .read } : Access) ≠ { space := .reg, addr := 4, width := 4, dir := .read } := by
  decide

theorem test_witness_HostReadOfUnwrittenFaults :
    State.reset.busy = false ∧ 252 % 4 = 0 ∧ 252 + 4 ≤ State.reset.params.bramSize ∧ Mem.get State.reset.bram (252 + 3) = none ∧
    255 < State.reset.params.sramWords ∧ Mem.get State.reset.sram 255 = none ∧ (issued zeroState 2#32).busy = true ∧
    hostAccess { space := .absent 0, addr := 0, width := 3, dir := .read } (issued zeroState 2#32) = .fault .busyAccess :=
  ⟨rfl, rfl, by decide, rfl, by decide, rfl, rfl, eq_fault_of_faultOf (by decide)⟩

theorem test_witness_AccessesHaveOnlyTheirEffect :
    (∃ t, hostAccess { space := .bram, addr := 15, width := 1, dir := .read } zeroState = .next t) ∧
    (∃ t, hostAccess { space := .sram, addr := 255, width := 2, dir := .write 7#32 } zeroState = .next t) :=
  ⟨⟨_, eq_next_of_goesOn (by decide)⟩, _, eq_next_of_goesOn (by decide)⟩

/-! ### The host -/

/-- A stream of one block, one channel. -/
def oneBlockStream : Stream :=
  { header := List.replicate 256 0#8, loopFlag := 0#8, channelCount := 1#8, rate := .hz32728, kind := .predictive, byteSize := 0x110
    loopByteOffset := 0, data := List.replicate 16 0x80#8 }

theorem test_witness_HostProgramLoadsTheCore :
    ∃ s : State, s.fault = none ∧ s.busy = false ∧ s.script = oneBlockStream.programCore ++ [] ∧ oneBlockStream.kind ≠ .none ∧
      1 ≤ oneBlockStream.channelCount.toNat ∧ oneBlockStream.channelCount.toNat ≤ s.params.nchMax ∧ 0x100 ≤ oneBlockStream.byteSize ∧
      oneBlockStream.byteSize < 2 ^ 32 ∧ oneBlockStream.data.length = oneBlockStream.byteSize - 0x100 ∧
      oneBlockStream.data.length ≤ s.params.bramSize :=
  ⟨{ State.reset with script := oneBlockStream.programCore }, rfl, rfl, by simp, by decide, by decide, by decide, by decide, by decide,
    by decide, by decide⟩

theorem test_witness_CodingByteFields :
    0x34 ≤ (List.replicate 0x34 0#8 : List Byte).length ∧ rateOf (byteAt (List.replicate 0x34 0#8) 0x33) = none ∧
    rateOf (byteAt (List.replicate 0x33 0#8 ++ [0x34#8]) 0x33) ≠ none ∧
    codingOf (byteAt (List.replicate 0x33 0#8 ++ [0x34#8]) 0x33) = none := by decide

/-- A buffer with coding byte 0xB4, one channel and byte_size 0x110. -/
def oneBlockBuffer : List Byte :=
  (((List.replicate 0x110 0x80#8).set 0x32 1#8).set 0x33 0xB4#8).set 0x40 0x10#8 |>.set 0x41 0x01#8 |>.set 0x42 0#8 |>.set 0x43 0#8

theorem oneBlockBuffer_reads :
    ∃ st, readContainer (List.replicate 4 0x80#8) oneBlockBuffer = .stream st := by
  have h : (match readContainer (List.replicate 4 0x80#8) oneBlockBuffer with
    | .stream _ => true
    | _ => false) = true := by decide +kernel
  revert h
  cases readContainer (List.replicate 4 0x80#8) oneBlockBuffer with
  | stream st => intro _; exact ⟨st, rfl⟩
  | error e => intro h; cases h
  | noMeaning => intro h; cases h

/-- The idle core of one block, with the host program of `oneBlockStream` for its block data. -/
def gatherState : State := { zeroState with script := oneBlockStream.gather }

theorem test_witness_ContainerWriteUndoesRead :
    (gatherState.fault = none ∧ gatherState.busy = false ∧ gatherState.script = oneBlockStream.gather ++ [] ∧
      oneBlockStream.byteSize = 0x100 + gatherState.len ∧
      ∃ u, exec .intl gatherState = .next u ∧ u.err = false ∧ (List.replicate 16 0x80#8).length = gatherState.len ∧
        ∀ a (h : a < (List.replicate 16 0x80#8).length), Mem.get u.bram a = some (List.replicate 16 0x80#8)[a]) ∧
    ∃ st, readContainer (List.replicate 4 0x80#8) oneBlockBuffer = .stream st :=
  ⟨⟨rfl, rfl, by simp [gatherState], by decide, _, eq_next_of_goesOn (by decide), by decide, by decide, by decide +kernel⟩,
    oneBlockBuffer_reads⟩

end Sys2Proof.Machine
end

/-! SUPPORT. No step is refused, every step keeps the sizes, and a faulted state stays as it is (00_scope.md R6, R13, R19). -/

namespace Sys2Proof.Machine

/-! ## The fault mark -/

theorem step_of_fault {s : State} {f : Fault} (h : s.fault = some f) : step s = .fault f := by
  simp only [step, h]

theorem advance_of_step_fault {s : State} {f : Fault} (h : step s = .fault f) : advance s = { s with fault := some f } := by
  simp only [advance, h]

/-- A state that already has the mark loses nothing by its being set again. -/
theorem State.markFault_of_fault {s : State} {f : Fault} (h : s.fault = some f) : { s with fault := some f } = s := by
  rw [← h]

/-- Settles O9: the mark makes `step` answer its fault, and a faulting step leaves nothing but the mark. -/
theorem faultedStateHasNoStep : Obligations.FaultedStateHasNoStep := by
  intro s f
  refine ⟨fun hmark => ?_, fun _ hstep => ?_⟩
  · have hstep := step_of_fault hmark
    exact ⟨hstep, (advance_of_step_fault hstep).trans (State.markFault_of_fault hmark)⟩
  · have hadv := advance_of_step_fault hstep
    exact ⟨hadv, step_of_fault (by rw [hadv])⟩

/-! ## What a host access can do -/

/-- A REG access that goes on keeps the rule of R65, and reads or writes one register. -/
theorem regAccess_eq_next {s t : State} {addr width : Nat} {dir : Dir} (h : regAccess s addr width dir = .next t) :
    (width = 4 ∧ addr % 4 = 0 ∧ addr ≤ 0xFC) ∧
    ((dir = .read ∧ t = s.answer (readReg s addr)) ∨ ∃ v, dir = .write v ∧ t = writeReg s addr v) := by
  unfold regAccess at h
  split at h
  · next hrule =>
    refine ⟨hrule, ?_⟩
    cases dir with
    | read => cases h; exact .inl ⟨rfl, rfl⟩
    | write v => cases h; exact .inr ⟨v, rfl, rfl⟩
  · cases h

/-- A BRAM access that goes on keeps the rules of R60 and R63, and reads written bytes or writes some. -/
theorem bramAccess_eq_next {s t : State} {addr width : Nat} {dir : Dir} (h : bramAccess s addr width dir = .next t) :
    ((width = 1 ∨ width = 2 ∨ width = 4) ∧ addr % width = 0 ∧ addr + width ≤ s.params.bramSize) ∧
    ((dir = .read ∧ ∃ bs, Mem.getRange s.bram addr width = some bs ∧
        t = s.answer (BitVec.ofNat 32 (littleEndian bs.toList))) ∨
      ∃ v, dir = .write v ∧ t = { s with bram := Mem.setRange s.bram addr (bytesOf width v) }) := by
  unfold bramAccess at h
  split at h
  · cases h
  next hwidth =>
  split at h
  · cases h
  next halign =>
  split at h
  · cases h
  next hrange =>
  refine ⟨⟨not_not.1 hwidth, not_not.1 halign, Nat.le_of_not_lt hrange⟩, ?_⟩
  cases dir with
  | read =>
    rcases hbs : Mem.getRange s.bram addr width with _ | bs <;> simp only [hbs] at h
    · cases h
    · cases h; exact .inl ⟨rfl, bs, rfl, rfl⟩
  | write v => cases h; exact .inr ⟨v, rfl, rfl⟩

/-- An SRAM access that goes on keeps the rules of R60 and R64, and reads a written word or writes one. -/
theorem sramAccess_eq_next {s t : State} {addr width : Nat} {dir : Dir} (h : sramAccess s addr width dir = .next t) :
    (width = 2 ∧ addr < s.params.sramWords) ∧
    ((dir = .read ∧ ∃ v, Mem.get s.sram addr = some v ∧ t = s.answer (v.setWidth 32)) ∨
      ∃ v, dir = .write v ∧ t = { s with sram := Mem.set s.sram addr (v.extractLsb' 0 16) }) := by
  unfold sramAccess at h
  split at h
  · cases h
  next hwidth =>
  split at h
  · cases h
  next hrange =>
  refine ⟨⟨not_not.1 hwidth, Nat.lt_of_not_le hrange⟩, ?_⟩
  cases dir with
  | read =>
    rcases hv : Mem.get s.sram addr with _ | v <;> simp only [hv] at h
    · cases h
    · cases h; exact .inl ⟨rfl, v, rfl, rfl⟩
  | write v => cases h; exact .inr ⟨v, rfl, rfl⟩

/-- An access that goes on is a STATUS read while BUSY = 1 (R70), and it is the access of one of the three spaces. -/
theorem hostAccess_eq_next {a : Access} {s t : State} (h : hostAccess a s = .next t) :
    (s.busy = true → a.isStatusRead = true) ∧
    ((a.space = .reg ∧ regAccess s a.addr a.width a.dir = .next t) ∨
     (a.space = .bram ∧ bramAccess s a.addr a.width a.dir = .next t) ∨
     (a.space = .sram ∧ sramAccess s a.addr a.width a.dir = .next t)) := by
  rw [hostAccess] at h
  split at h
  · cases h
  next hbusy =>
  refine ⟨fun hb => by simpa [hb] using hbusy, ?_⟩
  rcases hspace : a.space with _ | _ | _ | n <;> simp only [hspace] at h
  · exact .inl ⟨rfl, h⟩
  · exact .inr (.inl ⟨rfl, h⟩)
  · exact .inr (.inr ⟨rfl, h⟩)
  · cases h

/-! ## The sizes stay -/

@[simp] theorem writeCfg_params (s : State) (w : Word) : (writeCfg s w).params = s.params := by
  rw [writeCfg]
  split
  · split <;> simp
  · simp

@[simp] theorem writeWindow_params (s : State) (x : Chan) : (writeWindow s x).params = s.params := by
  rw [writeWindow]
  split <;> simp

@[simp] theorem writeReg_params (s : State) (off : Nat) (w : Word) : (writeReg s off w).params = s.params := by
  unfold writeReg
  split <;> simp

@[simp] theorem State.afterTurn_params (s : State) : s.afterTurn.params = s.params := by
  rw [State.afterTurn]
  split <;> rfl

theorem hostAccess_params {a : Access} {s t : State} (h : hostAccess a s = .next t) : t.params = s.params := by
  obtain ⟨-, ⟨-, hreg⟩ | ⟨-, hbram⟩ | ⟨-, hsram⟩⟩ := hostAccess_eq_next h
  · obtain ⟨-, ⟨-, rfl⟩ | ⟨v, -, rfl⟩⟩ := regAccess_eq_next hreg <;> simp
  · obtain ⟨-, ⟨-, bs, -, rfl⟩ | ⟨v, -, rfl⟩⟩ := bramAccess_eq_next hbram <;> simp
  · obtain ⟨-, ⟨-, v, -, rfl⟩ | ⟨v, -, rfl⟩⟩ := sramAccess_eq_next hsram <;> simp

theorem exec_params {i : Instr} {s t : State} (h : exec i s = .next t) : t.params = s.params := by
  obtain ⟨u, rfl, hu⟩ | ⟨e, -, rfl⟩ := exec_cases h
  · rw [State.complete_params]
    obtain ⟨-, rfl⟩ | ⟨-, rfl⟩ | ⟨-, -, rfl⟩ | ⟨-, -, -, rfl⟩ | ⟨_, _, _, -, -, hdec⟩ | ⟨_, _, _, -, -, henc⟩ := hu
    · rfl
    · rfl
    · rfl
    · rfl
    · rw [decChannels_frame hdec]
    · rw [encChannels_frame henc]
  · exact State.errorCompletion_params s e

theorem coreStep_params {s t : State} (h : coreStep s = .next t) : t.params = s.params := by
  rw [coreStep] at h
  split at h
  · exact exec_params h
  · cases h; exact State.errorCompletion_params s _

/-- The sizes belong to the machine, not to its run (R6). -/
theorem step_params {s t : State} (h : step s = .next t) : t.params = s.params := by
  obtain ⟨-, ⟨-, hcore⟩ | ⟨a, ops, -, hhost⟩ | ⟨ops, -, -, rfl⟩ | ⟨-, -, rfl⟩⟩ := step_cases h
  · exact (coreStep_params hcore).trans s.afterTurn_params
  · exact (hostAccess_params hhost).trans s.afterTurn_params
  · rfl
  · rfl

/-! ## No refusal -/

theorem regAccess_ne_refused (s : State) (addr width : Nat) (dir : Dir) (r : Refusal) :
    regAccess s addr width dir ≠ .refused r := by
  unfold regAccess
  split
  · cases dir <;> simp
  · simp

theorem bramAccess_ne_refused (s : State) (addr width : Nat) (dir : Dir) (r : Refusal) :
    bramAccess s addr width dir ≠ .refused r := by
  unfold bramAccess
  split
  · simp
  split
  · simp
  split
  · simp
  cases dir with
  | read => rcases Mem.getRange s.bram addr width with _ | bs <;> simp
  | write v => simp

theorem sramAccess_ne_refused (s : State) (addr width : Nat) (dir : Dir) (r : Refusal) :
    sramAccess s addr width dir ≠ .refused r := by
  unfold sramAccess
  split
  · simp
  split
  · simp
  cases dir with
  | read => rcases Mem.get s.sram addr with _ | v <;> simp
  | write v => simp

theorem hostAccess_ne_refused (a : Access) (s : State) (r : Refusal) : hostAccess a s ≠ .refused r := by
  rw [hostAccess]
  split
  · simp
  cases a.space with
  | reg => exact regAccess_ne_refused _ _ _ _ r
  | bram => exact bramAccess_ne_refused _ _ _ _ r
  | sram => exact sramAccess_ne_refused _ _ _ _ r
  | absent n => simp

theorem hostStep_ne_refused (s : State) (r : Refusal) : hostStep s ≠ .refused r := by
  rw [hostStep]
  split
  · simp
  · exact hostAccess_ne_refused _ _ r
  · simp

/-- An illegal word is no refusal either: it completes as ILLEGAL_CMD (R92). -/
theorem coreStep_ne_refused (s : State) (r : Refusal) : coreStep s ≠ .refused r := by
  rw [coreStep]
  split
  · exact exec_ne_refused _ _ r
  · simp

theorem step_ne_refused (s : State) (r : Refusal) : step s ≠ .refused r := by
  rw [step]
  split
  · simp
  · split
    · exact coreStep_ne_refused _ r
    · exact hostStep_ne_refused _ r
    · simp

/-- Settles O14: whoever moves, core or host, answers a next state or a fault, and no part of the state that a step writes holds
the sizes. -/
theorem noStepIsRefused : Obligations.NoStepIsRefused :=
  fun s => ⟨step_ne_refused s, fun _ => step_params⟩

end Sys2Proof.Machine

/-! SUPPORT. The invariant: each operation on the state keeps it, and so every step does (10_state.md R22, R29, R37, R38, R40;
60_exceptions.md R261 to R263). -/

namespace Sys2Proof.Machine

/-! ## Completions and the host's fields -/

/-- The invariant speaks of no field of the host agent. -/
theorem State.Inv.withScript {s : State} (h : s.Inv) (ops : List HostOp) : State.Inv { s with script := ops } := { h with }

theorem State.Inv.afterTurn {s : State} (h : s.Inv) : s.afterTurn.Inv := by
  rw [State.afterTurn]
  split
  · exact { h with }
  · exact h

theorem State.Inv.answer {s : State} (h : s.Inv) (v : Word) : (s.answer v).Inv := { h with }

/-- A report with a code other than OK agrees with ERR = 1. -/
theorem State.Inv.reportError {s : State} (h : s.Inv) {e : ErrInfo} (he : e.code ≠ .ok) : (s.reportError e).Inv :=
  { h with report := by simpa using he, locus := by simp }

theorem State.Inv.clearError {s : State} (h : s.Inv) : s.clearError.Inv :=
  { h with report := by simp, locus := by simp }

theorem State.Inv.complete {s : State} (h : s.Inv) : s.complete.Inv := { h.clearError with }

theorem State.Inv.errorCompletion {s : State} (h : s.Inv) {e : ErrInfo} (he : e.code ≠ .ok) : (s.errorCompletion e).Inv :=
  { h.reportError he with }

/-! ## Stores -/

theorem State.Inv.setChan {s : State} (h : s.Inv) (c : Nat) (x : Chan) : (s.setChan c x).Inv :=
  { h with slots := by simpa using h.slots }

theorem State.Inv.writeSram {s : State} (h : s.Inv) {a : Nat} {xs : List Sample} (hfit : a + xs.length ≤ s.params.sramWords) :
    (s.writeSram a xs).Inv :=
  { h with
    sramForm := Mem.wf_setRange h.sramForm a xs
    sramSize := Mem.below_setRange h.sramSize xs hfit }

theorem State.Inv.writeBram {s : State} (h : s.Inv) {a : Nat} {bs : List Byte} (hfit : a + bs.length ≤ s.params.bramSize) :
    State.Inv { s with bram := Mem.setRange s.bram a bs } :=
  { h with
    bramForm := Mem.wf_setRange h.bramForm a bs
    bramSize := Mem.below_setRange h.bramSize bs hfit }

/-- The empty array that a channel beyond the last reads meets each predicate that we ask of the channel arrays. -/
theorem State.chbOf_of_forall {s : State} {P : Mem 8 → Prop} (hnil : P []) (h : ∀ m ∈ s.chb, P m) (c : Nat) : P (s.chbOf c) := by
  rw [State.chbOf, List.getD_eq_getElem?_getD]
  rcases hm : s.chb[c]? with _ | m
  · exact hnil
  · exact h m (List.mem_of_getElem? hm)

theorem State.Inv.writeChb {s : State} (h : s.Inv) (c : Nat) {a : Nat} {bs : List Byte} (hfit : a + bs.length ≤ s.sliceLen) :
    (s.writeChb c a bs).Inv :=
  { h with
    chbForm := by
      have hform : Mem.wf (s.chbOf c) = true := State.chbOf_of_forall Mem.wf_nil h.chbForm c
      intro m hm
      rcases List.mem_or_eq_of_mem_set hm with hm | rfl
      · exact h.chbForm m hm
      · exact Mem.wf_setRange hform a bs
    image := by
      intro hv
      obtain ⟨husable, hlen, hbelow⟩ := h.image hv
      have hc : Mem.below (s.chbOf c) s.sliceLen = true :=
        State.chbOf_of_forall (P := fun m => Mem.below m s.sliceLen = true) rfl hbelow c
      refine ⟨husable, List.length_set.trans hlen, fun m hm => ?_⟩
      rcases List.mem_or_eq_of_mem_set hm with hm | rfl
      · exact hbelow m hm
      · exact Mem.below_setRange hc bs hfit }

/-! ## Registers -/

theorem State.Inv.writeCmd {s : State} (h : s.Inv) (w : Word) : (writeCmd s w).Inv := { h with }

theorem State.Inv.writeRawLen {s : State} (h : s.Inv) (w : Word) : (writeRawLen s w).Inv := { h with image := by simp }

/-- What a CFG write may store: CHCOUNT in 1..NCH_MAX and KIND 1 or 2 (R29). -/
def CfgAccepted (s : State) (w : Word) : Prop :=
  1 ≤ (w.extractLsb' 0 8).toNat ∧ (w.extractLsb' 0 8).toNat ≤ s.params.nchMax ∧
    (w.extractLsb' 8 2 = 1#2 ∨ w.extractLsb' 8 2 = 2#2)

theorem writeCfg_of_accepted {s : State} {w : Word} (h : CfgAccepted s w) :
    writeCfg s w = { s with
      chCount := w.extractLsb' 0 8
      kind := if w.extractLsb' 8 2 = 1#2 then .adaptive else .predictive
      chv := false, err := false, errCode := .ok, errCh := 0#8, errBlk := 0#32 } := by
  obtain ⟨hpos, hmax, hb | hb⟩ := h
  · rw [writeCfg, hb]
    exact if_pos ⟨hpos, hmax⟩
  · rw [writeCfg, hb]
    exact if_pos ⟨hpos, hmax⟩

theorem writeCfg_of_not_accepted {s : State} {w : Word} (h : ¬ CfgAccepted s w) :
    writeCfg s w = s.reportError (.plain .configError) := by
  unfold writeCfg
  by_cases hkind : w.extractLsb' 8 2 = 1#2 ∨ w.extractLsb' 8 2 = 2#2
  · have hcount : ¬ (1 ≤ (w.extractLsb' 0 8).toNat ∧ (w.extractLsb' 0 8).toNat ≤ s.params.nchMax) :=
      fun hc => h ⟨hc.1, hc.2, hkind⟩
    simp only [if_neg hcount]
    split <;> rfl
  · obtain ⟨h1, h2⟩ := not_or.1 hkind
    simp [Kind.ofBits, h1, h2]

/-- An accepted write stores a CHCOUNT other than 0 beside a KIND other than NONE, and takes CHV away. -/
theorem State.Inv.writeCfg {s : State} (h : s.Inv) (w : Word) : (writeCfg s w).Inv := by
  by_cases hw : CfgAccepted s w
  · rw [writeCfg_of_accepted hw]
    obtain ⟨hpos, hmax, -⟩ := hw
    have hcount : w.extractLsb' 0 8 ≠ 0#8 := fun h0 => by simp [h0] at hpos
    have hkind : (if w.extractLsb' 8 2 = 1#2 then Kind.adaptive else .predictive) ≠ .none := by split <;> decide
    exact { h with
      channels := hmax, configured := iff_of_false hkind hcount, image := by simp, report := by simp, locus := by simp }
  · rw [writeCfg_of_not_accepted hw]
    exact h.reportError (by decide)

theorem State.Inv.writeWindow {s : State} (h : s.Inv) (x : Chan) : (writeWindow s x).Inv := by
  rw [Machine.writeWindow]
  split
  · exact h.setChan _ _
  · exact h

theorem State.Inv.writeReg {s : State} (h : s.Inv) (off : Nat) (w : Word) : (writeReg s off w).Inv := by
  unfold Machine.writeReg
  split
  · exact h.writeCmd w
  · exact h.writeCfg w
  · exact h.writeRawLen w
  · exact { h with }
  · exact h.writeWindow _
  · exact h.writeWindow _
  · exact h.writeWindow _
  · exact h

/-! ## Host accesses -/

@[simp] theorem bytesOf_length (n : Nat) (v : Word) : (bytesOf n v).length = n := by simp [bytesOf]

theorem State.Inv.hostAccess {a : Access} {s t : State} (hs : s.Inv) (h : hostAccess a s = .next t) : t.Inv := by
  obtain ⟨-, ⟨-, hreg⟩ | ⟨-, hbram⟩ | ⟨-, hsram⟩⟩ := hostAccess_eq_next h
  · obtain ⟨-, ⟨-, rfl⟩ | ⟨v, -, rfl⟩⟩ := regAccess_eq_next hreg
    · exact hs.answer _
    · exact hs.writeReg _ v
  · obtain ⟨⟨-, -, hrange⟩, ⟨-, bs, -, rfl⟩ | ⟨v, -, rfl⟩⟩ := bramAccess_eq_next hbram
    · exact hs.answer _
    · exact hs.writeBram (by simpa using hrange)
  · obtain ⟨⟨-, hrange⟩, ⟨-, v, -, rfl⟩ | ⟨v, -, rfl⟩⟩ := sramAccess_eq_next hsram
    · exact hs.answer _
    · exact hs.writeSram (xs := [v.extractLsb' 0 16]) hrange

/-! ## The commands without blocks -/

theorem State.Inv.freshSlots {s : State} (h : s.Inv) :
    State.Inv { s with ch := List.replicate s.params.nchMax Chan.fresh } :=
  { h with slots := List.length_replicate }

theorem State.Inv.deinterleave {s : State} (h : s.Inv) (husable : s.interleaverUsable = true) :
    State.Inv { s with chb := deinterleave s.bram s.nch s.sliceLen, chv := true } :=
  { h with
    chbForm := wf_deinterleave h.bramForm _ _
    image := fun _ => ⟨husable, deinterleave_length _ _ _, below_deinterleave _ _ _⟩ }

/-- The channel arrays together are no longer than the raw data. -/
theorem nch_mul_sliceLen_le (s : State) : s.nch * s.sliceLen ≤ s.len := by
  rw [State.sliceLen]
  split
  · exact Nat.mul_div_le _ _
  · simp

theorem interleaverUsable_iff (s : State) : s.interleaverUsable = true ↔ 1 ≤ s.nch ∧ s.len ≤ s.params.bramSize := by
  simp [State.interleaverUsable]

theorem State.Inv.interleave {s : State} (h : s.Inv) (husable : s.interleaverUsable = true) :
    State.Inv { s with bram := interleave s.chb s.bram s.nch s.sliceLen } := by
  have hlen : s.len ≤ s.params.bramSize := ((interleaverUsable_iff s).1 husable).2
  exact { h with
    bramForm := wf_interleave h.bramForm h.chbForm _ _
    bramSize := below_interleave h.bramSize ((nch_mul_sliceLen_le s).trans hlen) }

/-! ## Work on one channel -/

/-- `t` is `s` with nothing moved on but slot `c`, SRAM and CHB: what the blocks of channel `c` can do. -/
structure State.WorkedOn (c : Nat) (s t : State) : Prop where
  rest : t = { s with ch := t.ch, sram := t.sram, chb := t.chb }
  slots : ∀ d, d ≠ c → t.chan d = s.chan d

theorem State.WorkedOn.refl (c : Nat) (s : State) : State.WorkedOn c s s := ⟨rfl, fun _ _ => rfl⟩

theorem State.WorkedOn.trans {c : Nat} {s t u : State} (hst : State.WorkedOn c s t) (htu : State.WorkedOn c t u) :
    State.WorkedOn c s u :=
  ⟨by rw [htu.rest, hst.rest], fun d hd => (htu.slots d hd).trans (hst.slots d hd)⟩

theorem State.workedOn_setChan (s : State) (c : Nat) (x : Chan) : State.WorkedOn c s (s.setChan c x) :=
  ⟨rfl, fun _ => State.chan_setChan_other s x⟩

theorem State.workedOn_writeSram (s : State) (c a : Nat) (xs : List Sample) : State.WorkedOn c s (s.writeSram a xs) :=
  ⟨rfl, fun _ _ => rfl⟩

theorem State.workedOn_writeChb (s : State) (c a : Nat) (bs : List Byte) : State.WorkedOn c s (s.writeChb c a bs) :=
  ⟨rfl, fun _ _ => rfl⟩

/-- A block operation that works on its own channel only. -/
def WorksOnItsChannel (f : Nat → Nat → State → Work) : Prop := ∀ c k s t, f c k s = .ok t → State.WorkedOn c s t

theorem decBlock_worksOnItsChannel : WorksOnItsChannel decBlock := by
  intro c k s t h
  obtain ⟨blk, -, ⟨-, out, hist, -, rfl⟩ | ⟨-, out, a, -, rfl⟩⟩ := decBlock_eq_ok h
  · exact (s.workedOn_setChan c _).trans (State.workedOn_writeSram _ c _ _)
  · exact (s.workedOn_setChan c _).trans (State.workedOn_writeSram _ c _ _)

theorem encBlock_worksOnItsChannel : WorksOnItsChannel encBlock := by
  intro c k s t h
  obtain ⟨-, x, -, rfl⟩ | ⟨-, x, b, a, -, -, rfl⟩ := encBlock_eq_ok h
  · exact (s.workedOn_setChan c _).trans (State.workedOn_writeChb _ c _ _)
  · exact (s.workedOn_setChan c _).trans (State.workedOn_writeChb _ c _ _)

/-- A property that each block below `m` keeps is kept by a run of such blocks. -/
theorem forBlocks_induct {f : Nat → State → Work} {P : State → Prop} {m : Nat}
    (block : ∀ j < m, ∀ s t, P s → f j s = .ok t → P t) :
    ∀ {n k : Nat} {s t : State}, k + n ≤ m → P s → forBlocks f n k s = .ok t → P t := by
  intro n
  induction n with
  | zero => intro k s t _ hs h; cases h; exact hs
  | succ n ih =>
    intro k s t hkn hs h
    obtain ⟨u, hu, ht⟩ := Work.andThen_eq_ok h
    exact ih (by omega) (block k (by omega) s u hs hu) ht

/-- A finished channel is a run of its blocks from its cursor on, and then the moved cursor. -/
theorem forChannel_eq_ok {f : Nat → Nat → State → Work} {c n : Nat} {s t : State} (h : forChannel f c n s = .ok t) :
    ∃ u, forBlocks (f c) n (s.cursorOf c) s = .ok u ∧ t = u.setCursor c (s.cursorOf c + n) := by
  obtain ⟨u, hu, ht⟩ := Work.andThen_eq_ok h
  exact ⟨u, hu, (Work.ok.inj ht).symm⟩

theorem forChannel_workedOn {f : Nat → Nat → State → Work} (hf : WorksOnItsChannel f) {c n : Nat} {s t : State}
    (h : forChannel f c n s = .ok t) : State.WorkedOn c s t := by
  obtain ⟨u, hu, rfl⟩ := forChannel_eq_ok h
  have blocks : State.WorkedOn c s u :=
    forBlocks_induct (P := State.WorkedOn c s) (fun j _ v w hv hw => hv.trans (hf c j v w hw)) le_rfl (.refl c s) hu
  exact blocks.trans (u.workedOn_setChan c _)

/-! ## DEC and ENC -/

/-- A working copy of a command whose configuration check has passed (R231). -/
structure State.Working (s : State) : Prop where
  inv : s.Inv
  usable : s.codecUsable = true

/-- Work on one channel leaves the sizes. -/
theorem State.WorkedOn.nch {c : Nat} {s t : State} (h : State.WorkedOn c s t) : t.nch = s.nch := by rw [h.rest]; rfl
theorem State.WorkedOn.nblk {c : Nat} {s t : State} (h : State.WorkedOn c s t) : t.nblk = s.nblk := by rw [h.rest]; rfl

theorem State.WorkedOn.working {c : Nat} {s t : State} (h : State.WorkedOn c s t) (hs : s.Working) (ht : t.Inv) : t.Working :=
  ⟨ht, by rw [h.rest]; exact hs.usable⟩

/-- The samples of a channel's blocks fit into the channel's part of SRAM; for ADAPTIVE because SPB_A is at most 32 (R215). -/
theorem samplesPerBlock_mul_nblk_le {s : State} (hk : s.kind ≠ .none) : s.samplesPerBlock * s.nblk ≤ s.nsamp := by
  rcases hkind : s.kind with _ | _ | _
  · exact absurd hkind hk
  · have hspb : Config.spbA ≤ 32 := Config.spbALessOne.isLt
    calc s.samplesPerBlock * s.nblk = Config.spbA * s.nblk := by simp [State.samplesPerBlock, hkind]
      _ ≤ 32 * s.nblk := Nat.mul_le_mul_right _ hspb
      _ ≤ 2 * s.sliceLen := by rw [State.nblk, blockBytes]; omega
      _ = s.nsamp := by simp [State.nsamp, hkind]
  · simp [State.samplesPerBlock, State.nsamp, hkind, samplesPerPredictiveBlock]

/-- The samples of a block within its channel lie within SRAM. -/
theorem sampleIndex_block_le {s : State} (hs : s.codecUsable = true) {c k : Nat} (hc : c < s.nch) (hk : k < s.nblk) :
    s.sampleIndex c (s.samplesPerBlock * k) + s.samplesPerBlock ≤ s.params.sramWords := by
  obtain ⟨-, hkind, -, hsram⟩ := (codecUsable_iff s).1 hs
  calc s.sampleIndex c (s.samplesPerBlock * k) + s.samplesPerBlock
      = c * s.nsamp + s.samplesPerBlock * (k + 1) := by rw [State.sampleIndex, Nat.mul_add_one, Nat.add_assoc]
    _ ≤ c * s.nsamp + s.samplesPerBlock * s.nblk := by gcongr; exact hk
    _ ≤ c * s.nsamp + s.nsamp := by gcongr; exact samplesPerBlock_mul_nblk_le hkind
    _ = (c + 1) * s.nsamp := (Nat.succ_mul _ _).symm
    _ ≤ s.nch * s.nsamp := by gcongr; exact hc
    _ ≤ s.params.sramWords := hsram

/-- A finished block that lies within its channel keeps the invariant. -/
def BlocksKeepInv (f : Nat → Nat → State → Work) : Prop :=
  ∀ c k s t, s.Working → c < s.nch → k < s.nblk → f c k s = .ok t → t.Inv

theorem decBlock_keepsInv : BlocksKeepInv decBlock := by
  intro c k s t hs hc hk h
  have hfit := sampleIndex_block_le hs.usable hc hk
  obtain ⟨blk, -, ⟨hkind, out, hist, hdec, rfl⟩ | ⟨hkind, out, a, -, rfl⟩⟩ := decBlock_eq_ok h
  · have hout : out.length = 30 := (pDecodeBlock_spec (hist_inRange s c) hdec).1
    rw [State.samplesPerBlock, if_pos hkind] at hfit
    exact (hs.inv.setChan c _).writeSram (by simpa [hout] using hfit)
  · rw [State.samplesPerBlock, if_neg hkind] at hfit
    exact (hs.inv.setChan c _).writeSram (by simpa using hfit)

theorem encBlock_keepsInv : BlocksKeepInv encBlock := by
  intro c k s t hs _ hk h
  have hfit : 16 * k + 16 ≤ s.sliceLen := by rw [State.nblk, blockBytes] at hk; omega
  obtain ⟨-, x, -, rfl⟩ | ⟨-, x, b, a, -, -, rfl⟩ := encBlock_eq_ok h
  · exact (hs.inv.setChan c _).writeChb c (by rw [Vector.length_toList]; exact hfit)
  · exact (hs.inv.setChan c _).writeChb c (by rw [Vector.length_toList]; exact hfit)

theorem forChannel_keepsInv {f : Nat → Nat → State → Work} (hf : WorksOnItsChannel f) (hinv : BlocksKeepInv f) {c n : Nat}
    {s t : State} (hs : s.Working) (hc : c < s.nch) (hn : s.cursorOf c + n ≤ s.nblk) (h : forChannel f c n s = .ok t) :
    t.Inv := by
  obtain ⟨u, hu, rfl⟩ := forChannel_eq_ok h
  have block : ∀ j < s.nblk, ∀ v w, State.WorkedOn c s v ∧ v.Working → f c j v = .ok w →
      State.WorkedOn c s w ∧ w.Working := by
    intro j hj v w ⟨hsv, hv⟩ hw
    have hvw := hf c j v w hw
    exact ⟨hsv.trans hvw, hvw.working hv (hinv c j v w hv (hsv.nch ▸ hc) (hsv.nblk ▸ hj) hw)⟩
  exact (forBlocks_induct block hn ⟨.refl c s, hs⟩ hu).2.inv.setChan c _

/-- The channels of a plan are finished one after the other, and none is moved by the work on another. -/
theorem forChannels_keepsInv {f : Nat → Nat → State → Work} (hf : WorksOnItsChannel f) (hinv : BlocksKeepInv f) :
    ∀ {plan : List (Nat × Nat)} {s t : State}, s.Working → (plan.map Prod.fst).Nodup →
      (∀ p ∈ plan, p.1 < s.nch ∧ s.cursorOf p.1 + p.2 ≤ s.nblk) → forChannels f plan s = .ok t → t.Inv := by
  intro plan
  induction plan with
  | nil => intro s t hs _ _ h; cases h; exact hs.inv
  | cons p plan ih =>
    intro s t hs nodup hfit h
    obtain ⟨hp, nodup⟩ := List.nodup_cons.1 nodup
    obtain ⟨u, hu, ht⟩ := Work.andThen_eq_ok h
    obtain ⟨hc, hn⟩ := hfit p (by simp)
    have hsu := forChannel_workedOn hf hu
    refine ih (hsu.working hs (forChannel_keepsInv hf hinv hs hc hn hu)) nodup (fun q hq => ?_) ht
    have hne : q.1 ≠ p.1 := fun heq => hp (heq ▸ List.mem_map_of_mem hq)
    rw [hsu.nch, hsu.nblk, State.cursorOf, hsu.slots q.1 hne]
    exact hfit q (by simp [hq])

/-- The plan of a command that passes its checks: each selected channel once, with its count. -/
theorem codecPlan_eq_ok {s : State} {sel : ChanSel} {cnt : Count} {plan : List (Nat × Nat)} (h : s.codecPlan sel cnt = .ok plan) :
    plan = (s.selected sel).map (fun c => (c, s.countFor cnt c)) :=
  Except.ok.inj (h.symm.trans (codecPlan_of_ready (ready_of_codecPlan h)))

theorem planned_keepsInv {f : Nat → Nat → State → Work} (hf : WorksOnItsChannel f) (hinv : BlocksKeepInv f) {s t : State}
    {sel : ChanSel} {cnt : Count} {plan : List (Nat × Nat)} (hs : s.Inv) (hplan : s.codecPlan sel cnt = .ok plan)
    (h : forChannels f plan s = .ok t) : t.Inv := by
  have ready := ready_of_codecPlan hplan
  have working : s.Working :=
    ⟨hs, (codecUsable_iff s).2 ⟨ready.configured.1, ready.configured.2, ready.bramHolds, ready.sramHolds⟩⟩
  rw [codecPlan_eq_ok hplan] at h
  refine forChannels_keepsInv hf hinv working ?_ (fun p hp => ?_) h
  · simpa [Function.comp_def] using selected_nodup s sel
  · obtain ⟨c, hc, rfl⟩ := List.mem_map.1 hp
    exact ⟨ready.channelsExist c hc, (ready.countsFit c hc).2⟩

/-! ## Every step -/

theorem State.Inv.exec {i : Instr} {s t : State} (hs : s.Inv) (h : exec i s = .next t) : t.Inv := by
  obtain ⟨u, rfl, hu⟩ | ⟨e, he, rfl⟩ := exec_cases h
  · refine State.Inv.complete ?_
    obtain ⟨-, rfl⟩ | ⟨-, rfl⟩ | ⟨-, husable, rfl⟩ | ⟨-, husable, -, rfl⟩ | ⟨_, _, _, -, hplan, hdec⟩ |
      ⟨_, _, _, -, hplan, henc⟩ := hu
    · exact hs
    · exact hs.freshSlots
    · exact hs.deinterleave husable
    · exact hs.interleave husable
    · exact planned_keepsInv decBlock_worksOnItsChannel decBlock_keepsInv hs hplan hdec
    · exact planned_keepsInv encBlock_worksOnItsChannel encBlock_keepsInv hs hplan henc
  · exact hs.errorCompletion he

theorem State.Inv.coreStep {s t : State} (hs : s.Inv) (h : coreStep s = .next t) : t.Inv := by
  rw [Machine.coreStep] at h
  split at h
  · exact hs.exec h
  · cases h; exact hs.errorCompletion (by decide)

/-- Settles O13: each step is the work of one agent, and each operation that an agent performs keeps the invariant. -/
theorem stepKeepsTheInvariant : Obligations.StepKeepsTheInvariant := by
  intro s t hs h
  obtain ⟨-, ⟨-, hcore⟩ | ⟨a, ops, -, hhost⟩ | ⟨ops, -, -, rfl⟩ | ⟨-, -, rfl⟩⟩ := step_cases h
  · exact hs.afterTurn.coreStep hcore
  · exact (hs.afterTurn.withScript ops).hostAccess hhost
  · exact hs.withScript ops
  · exact hs

end Sys2Proof.Machine

/-! SUPPORT. The slot of a channel that a command does not name is neither read nor written (10_state.md R25). -/

namespace Sys2Proof.Machine

/-! ## What a slot does not decide -/

theorem State.hist_setChan_other (s : State) {c d : Nat} (x : Chan) (h : c ≠ d) : (s.setChan d x).hist c = s.hist c := by
  rw [State.hist, State.hist, State.chan_setChan_other s x h]

theorem State.setHist_setChan_other (s : State) {c d : Nat} (x : Chan) (g : Int × Int) (h : c ≠ d) :
    (s.setChan d x).setHist c g = (s.setHist c g).setChan d x := by
  rw [State.setHist, State.setHist, State.chan_setChan_other s x h, State.setChan_comm s _ _ h]

theorem State.setAst_setChan_other (s : State) {c d : Nat} (x : Chan) (a : AdState) (h : c ≠ d) :
    (s.setChan d x).setAst c a = (s.setAst c a).setChan d x := by
  rw [State.setAst, State.setAst, State.chan_setChan_other s x h, State.setChan_comm s _ _ h]

theorem State.setCursor_setChan_other (s : State) {c d : Nat} (x : Chan) (k : Nat) (h : c ≠ d) :
    (s.setChan d x).setCursor c k = (s.setCursor c k).setChan d x := by
  rw [State.setCursor, State.setCursor, State.chan_setChan_other s x h, State.setChan_comm s _ _ h]

/-! ## Work beside a slot -/

/-- Change the working copy of work that has ended well. -/
def Work.mapOk (g : State → State) : Work → Work
  | .ok s => .ok (g s)
  | .err e => .err e
  | .fault r => .fault r

/-- Work that commutes with a change of the working copy, and goes on with work that does so too. -/
theorem Work.mapOk_andThen {g : State → State} {f : State → Work} (h : ∀ s, f (g s) = (f s).mapOk g) (w : Work) :
    (w.mapOk g).andThen f = (w.andThen f).mapOk g := by
  cases w with
  | ok s => exact h s
  | err e => rfl
  | fault r => rfl

theorem Work.commit_mapOk_setChan (s : State) (d : Nat) (x : Chan) (w : Work) :
    (w.mapOk (fun t => t.setChan d x)).commit (s.setChan d x) = onNext (fun t => t.setChan d x) (w.commit s) := by
  cases w <;> rfl

/-- Work to which slot `d` makes no difference, and which leaves it. -/
def IgnoresSlot (d : Nat) (f : State → Work) : Prop := ∀ s x, f (s.setChan d x) = (f s).mapOk (fun t => t.setChan d x)

theorem IgnoresSlot.andThen {d : Nat} {f g : State → Work} (hf : IgnoresSlot d f) (hg : IgnoresSlot d g) :
    IgnoresSlot d (fun s => (f s).andThen g) := by
  intro s x
  simp only [hf s x]
  exact Work.mapOk_andThen (fun t => hg t x) (f s)

theorem decBlock_ignoresSlot {c d : Nat} (h : c ≠ d) (k : Nat) : IgnoresSlot d (decBlock c k) := by
  intro s x
  have hchb : (s.setChan d x).chbOf c = s.chbOf c := rfl
  unfold decBlock
  rw [hchb, s.hist_setChan_other x h, s.chan_setChan_other x h, State.setChan_kind]
  rcases Mem.getRange (s.chbOf c) (16 * k) 16 with _ | blk
  · rfl
  · by_cases hkind : s.kind = .predictive <;> simp only [hkind, if_true, if_false]
    · rcases pDecodeBlock (s.hist c) blk with _ | ⟨out, g⟩
      · rfl
      · simp only [s.setHist_setChan_other x g h]; rfl
    · rcases Config.adDecode (s.chan c).ast blk with _ | ⟨out, a⟩
      · rfl
      · simp only [s.setAst_setChan_other x a h]; rfl

theorem encBlock_ignoresSlot {c d : Nat} (h : c ≠ d) (k : Nat) : IgnoresSlot d (encBlock c k) := by
  intro s x
  have hindex : ∀ i, (s.setChan d x).sampleIndex c i = s.sampleIndex c i := fun _ => rfl
  unfold encBlock
  simp only [hindex, s.hist_setChan_other x h, s.chan_setChan_other x h, State.setChan_kind, State.setChan_sram]
  by_cases hkind : s.kind = .predictive <;> simp only [hkind, if_true, if_false]
  · rcases Mem.getRange s.sram (s.sampleIndex c (30 * k)) 30 with _ | samples
    · rfl
    · simp only [s.setHist_setChan_other x _ h]; rfl
  · rcases Mem.getRange s.sram (s.sampleIndex c (Config.spbA * k)) Config.spbA with _ | samples
    · rfl
    · dsimp only
      rcases Config.adEncode (s.chan c).ast samples with _ | ⟨b, a⟩
      · rfl
      · simp only [s.setAst_setChan_other x a h]; rfl

/-- A block operation to which no slot but its own channel's makes a difference. -/
def IgnoresOtherSlots (f : Nat → Nat → State → Work) : Prop := ∀ c d k, c ≠ d → IgnoresSlot d (f c k)

theorem forBlocks_ignoresSlot {d : Nat} {f : Nat → State → Work} (hf : ∀ k, IgnoresSlot d (f k)) :
    ∀ n k, IgnoresSlot d (forBlocks f n k) := by
  intro n
  induction n with
  | zero => exact fun _ _ _ => rfl
  | succ n ih => exact fun k => (hf k).andThen (ih (k + 1))

theorem forChannel_ignoresSlot {f : Nat → Nat → State → Work} (hf : IgnoresOtherSlots f) {c d : Nat} (h : c ≠ d) (n : Nat) :
    IgnoresSlot d (forChannel f c n) := by
  intro s x
  unfold forChannel
  rw [s.chan_setChan_other x h]
  have cursor : ∀ k, IgnoresSlot d (fun t => .ok (t.setCursor c k)) := fun k t y => by
    simp only [t.setCursor_setChan_other y k h]; rfl
  exact (forBlocks_ignoresSlot (fun k => hf c d k h) n _).andThen (cursor _) s x

theorem forChannels_ignoresSlot {f : Nat → Nat → State → Work} (hf : IgnoresOtherSlots f) {d : Nat} :
    ∀ {plan : List (Nat × Nat)}, d ∉ plan.map Prod.fst → IgnoresSlot d (forChannels f plan) := by
  intro plan
  induction plan with
  | nil => exact fun _ _ _ => rfl
  | cons p plan ih =>
    intro hd
    obtain ⟨hp, hplan⟩ := List.ne_and_not_mem_of_not_mem_cons hd
    exact (forChannel_ignoresSlot hf (Ne.symm hp) p.2).andThen (ih hplan)

/-! ## Commands -/

theorem resolveCounts_setChan (s : State) {d : Nat} (x : Chan) (cnt : Count) :
    ∀ {cs : List Nat}, d ∉ cs → (s.setChan d x).resolveCounts cnt cs = s.resolveCounts cnt cs := by
  intro cs
  induction cs with
  | nil => exact fun _ => rfl
  | cons c cs ih =>
    intro hd
    obtain ⟨hc, hcs⟩ := List.ne_and_not_mem_of_not_mem_cons hd
    have hcount : (s.setChan d x).resolveCount cnt c = s.resolveCount cnt c := by
      unfold State.resolveCount
      rw [s.chan_setChan_other x (Ne.symm hc)]
      rfl
    rw [State.resolveCounts, State.resolveCounts, hcount, ih hcs]

/-- The channels that a selection yields are the ones the command names. -/
theorem selected_of_selectChannels {s : State} {sel : ChanSel} {cs : List Nat} (h : s.selectChannels sel = .ok cs) :
    cs = s.selected sel := by
  cases sel with
  | all => cases h; rfl
  | one c =>
    rw [State.selectChannels] at h
    split at h <;> cases h
    rfl

theorem codecPlan_setChan {s : State} {d : Nat} (x : Chan) {sel : ChanSel} (cnt : Count) (hd : d ∉ s.selected sel) :
    (s.setChan d x).codecPlan sel cnt = s.codecPlan sel cnt := by
  have husable : (s.setChan d x).codecUsable = s.codecUsable := rfl
  have hselect : (s.setChan d x).selectChannels sel = s.selectChannels sel := by cases sel <;> rfl
  rw [State.codecPlan, State.codecPlan, husable, hselect, State.setChan_chv]
  rcases hcs : s.selectChannels sel with e | cs
  · rfl
  · rw [selected_of_selectChannels hcs]
    simp only [resolveCounts_setChan s x cnt hd]

theorem channels_of_codecPlan {s : State} {sel : ChanSel} {cnt : Count} {plan : List (Nat × Nat)}
    (h : s.codecPlan sel cnt = .ok plan) : plan.map Prod.fst = s.selected sel := by
  rw [codecPlan_eq_ok h]
  simp [Function.comp_def]

theorem codecCommand_setChan {f : Nat → Nat → State → Work} (hf : IgnoresOtherSlots f) {s : State} {d : Nat} (x : Chan)
    {sel : ChanSel} (cnt : Count) (hd : d ∉ s.selected sel) :
    codecCommand f sel cnt (s.setChan d x) = onNext (fun t => t.setChan d x) (codecCommand f sel cnt s) := by
  rw [codecCommand, codecCommand, codecPlan_setChan x cnt hd]
  rcases hplan : s.codecPlan sel cnt with e | plan
  · rfl
  · dsimp only
    rw [forChannels_ignoresSlot hf (channels_of_codecPlan hplan ▸ hd) s x]
    exact Work.commit_mapOk_setChan s d x _

theorem execDeintl_setChan (s : State) (d : Nat) (x : Chan) :
    execDeintl (s.setChan d x) = onNext (fun t => t.setChan d x) (execDeintl s) := by
  have husable : (s.setChan d x).interleaverUsable = s.interleaverUsable := rfl
  rw [execDeintl, execDeintl, husable]
  split <;> rfl

theorem execIntl_setChan (s : State) (d : Nat) (x : Chan) :
    execIntl (s.setChan d x) = onNext (fun t => t.setChan d x) (execIntl s) := by
  have husable : (s.setChan d x).interleaverUsable = s.interleaverUsable := rfl
  rw [execIntl, execIntl, husable, State.setChan_chv]
  split
  · split <;> rfl
  · rfl

/-- Command `i` does not name slot `d`: CHRESET names every slot, DEC and ENC those they select, the others none. -/
def LeavesSlot (i : Instr) (s : State) (d : Nat) : Prop :=
  i ≠ .chreset ∧ ∀ sel cnt, i = .dec sel cnt ∨ i = .enc sel cnt → d ∉ s.selected sel

theorem exec_setChan {i : Instr} {s : State} {d : Nat} (h : LeavesSlot i s d) (x : Chan) :
    exec i (s.setChan d x) = onNext (fun t => t.setChan d x) (exec i s) := by
  obtain ⟨hchreset, hsel⟩ := h
  cases i with
  | nop => rfl
  | chreset => exact absurd rfl hchreset
  | deintl => exact execDeintl_setChan s d x
  | intl => exact execIntl_setChan s d x
  | dec sel cnt => exact codecCommand_setChan (fun c d k h => decBlock_ignoresSlot h k) x cnt (hsel sel cnt (.inl rfl))
  | enc sel cnt => exact codecCommand_setChan (fun c d k h => encBlock_ignoresSlot h k) x cnt (hsel sel cnt (.inr rfl))

theorem forChannels_chan_of_notMem {f : Nat → Nat → State → Work} (hf : WorksOnItsChannel f) {d : Nat} :
    ∀ {plan : List (Nat × Nat)} {s t : State}, d ∉ plan.map Prod.fst → forChannels f plan s = .ok t →
      t.chan d = s.chan d := by
  intro plan
  induction plan with
  | nil => intro s t _ h; cases h; rfl
  | cons p plan ih =>
    intro s t hd h
    obtain ⟨hp, hplan⟩ := List.ne_and_not_mem_of_not_mem_cons hd
    obtain ⟨u, hu, ht⟩ := Work.andThen_eq_ok h
    exact (ih hplan ht).trans ((forChannel_workedOn hf hu).slots d hp)

theorem exec_chan_of_leavesSlot {i : Instr} {s t : State} {d : Nat} (h : LeavesSlot i s d) (ht : exec i s = .next t) :
    t.chan d = s.chan d := by
  obtain ⟨hchreset, hsel⟩ := h
  obtain ⟨u, rfl, hu⟩ | ⟨e, -, rfl⟩ := exec_cases ht
  · rw [State.chan_congr (State.complete_ch u)]
    obtain ⟨-, rfl⟩ | ⟨rfl, -⟩ | ⟨-, -, rfl⟩ | ⟨-, -, -, rfl⟩ | ⟨sel, cnt, plan, rfl, hplan, hdec⟩ |
      ⟨sel, cnt, plan, rfl, hplan, henc⟩ := hu
    · rfl
    · exact absurd rfl hchreset
    · rfl
    · rfl
    · exact forChannels_chan_of_notMem decBlock_worksOnItsChannel
        (channels_of_codecPlan hplan ▸ hsel sel cnt (.inl rfl)) hdec
    · exact forChannels_chan_of_notMem encBlock_worksOnItsChannel
        (channels_of_codecPlan hplan ▸ hsel sel cnt (.inr rfl)) henc
  · exact State.chan_congr (State.errorCompletion_ch s e) d

/-- Settles O41: changing the slot before the command is changing it after, and the command leaves it. -/
theorem channelsAreIndependent : Obligations.ChannelsAreIndependent :=
  fun _ _ _ x hchreset hsel => ⟨exec_setChan ⟨hchreset, hsel⟩ x, fun _ => exec_chan_of_leavesSlot ⟨hchreset, hsel⟩⟩

end Sys2Proof.Machine

/-! SUPPORT. The registers: reset, CMD, CFG, RAWLEN, the size registers, the window and STATUS (10_state.md R26 to R36, R43). -/

namespace Sys2Proof.Machine

/-! ## Reset -/

/-- Every slot is fresh after reset. -/
@[simp] theorem State.chan_resetOf (p : Params) (c : Nat) : (State.resetOf p).chan c = Chan.fresh := by
  rw [State.chan, List.getD_eq_getElem?_getD]
  rcases h : (State.resetOf p).ch[c]? with _ | x
  · rfl
  · exact List.eq_of_mem_replicate (List.mem_of_getElem? h)

@[simp] theorem State.windowRead_zero (s : State) : s.windowRead 0#32 = 0#32 := ite_self _

theorem readReg_resetOf (p : Params) (off : Nat) : readReg (State.resetOf p) off = 0#32 := by
  have hwindow : (State.resetOf p).window = Chan.fresh := State.chan_resetOf p _
  have hstatus : (State.resetOf p).statusWord = 0#32 := by simp [State.statusWord, State.resetOf, ErrCode.bits]
  have hcfg : (State.resetOf p).cfgWord = 0#32 := by simp [State.cfgWord, State.resetOf, Kind.bits]
  have hnblk : (State.resetOf p).nblk = 0 := by simp [State.nblk, State.sliceLen, State.nch, State.resetOf]
  unfold readReg
  rw [hwindow, hstatus, hcfg, hnblk]
  split
  case h_11 | h_12 | h_13 => exact State.windowRead_zero _
  all_goals rfl

/-- Settles O11: the reset state is written out with these values, and the memories list no cell. -/
theorem resetLeavesTheStatedState : Obligations.ResetLeavesTheStatedState := by
  intro p
  refine ⟨readReg_resetOf p, fun c hc => ?_, rfl, rfl, rfl, rfl, fun a => ⟨rfl, rfl, fun c => rfl⟩⟩
  rw [State.chan_resetOf]
  exact ⟨hc.trans_eq List.length_replicate.symm, rfl, rfl, rfl, rfl⟩

/-! ## Writes through the port -/

/-- A legal REG write on an idle core reaches its register (R61). -/
theorem hostAccess_writeReg {s : State} (hb : s.busy = false) {off : Nat} (halign : off % 4 = 0) (hoff : off ≤ 0xFC) (w : Word) :
    hostAccess { space := .reg, addr := off, width := 4, dir := .write w } s = .next (writeReg s off w) := by
  simp [hostAccess, hb, regAccess, halign, hoff]

/-- While BUSY = 1 a write to the port is a fault (R70). -/
theorem hostAccess_write_of_busy {s : State} (hb : s.busy = true) (space : Space) (addr width : Nat) (w : Word) :
    hostAccess { space := space, addr := addr, width := width, dir := .write w } s = .fault .busyAccess := by
  simp [hostAccess, hb, Access.isStatusRead]

/-! ## CMD -/

/-- The core runs the command that LATCH decodes to (R230). -/
theorem coreStep_of_decode {s : State} {i : Instr} (h : decode s.latch = .ok i) : coreStep s = exec i s := by
  rw [coreStep, h]

/-- Settles O45: a CMD write is `writeCmd`, and the core's step is `exec` of the word that it leaves in LATCH. -/
theorem cmdWriteIssuesACommand : Obligations.CmdWriteIssuesACommand := by
  intro s w
  exact ⟨fun hb => hostAccess_writeReg hb rfl (by decide) w, fun hb => ⟨_, hostAccess_write_of_busy hb .reg 0 4 w⟩, rfl,
    fun p => readReg_resetOf p 0, fun i h => coreStep_of_decode h⟩

/-! ## CFG -/

/-- The low ten bits of a word are its fields KIND and CHCOUNT. -/
theorem cfgFields_append (w : Word) : 0#22 ++ w.extractLsb' 8 2 ++ w.extractLsb' 0 8 = w &&& 0x3FF#32 := by
  apply BitVec.eq_of_getLsbD_eq
  intro i _
  have hmask : (0x3FF#32).getLsbD i = decide (i < 10) := by
    rw [BitVec.getLsbD_ofNat, Nat.testBit_two_pow_sub_one (n := 10)]
    simp
    omega
  rw [BitVec.getLsbD_and, hmask]
  simp only [BitVec.getLsbD_append, BitVec.getLsbD_extractLsb']
  by_cases h8 : i < 8
  · simp [h8, show i < 10 by omega]
  · by_cases h10 : i < 10
    · simp [h8, h10, show i - 8 < 2 by omega, show 8 + (i - 8) = i by omega]
    · simp [h8, h10, show ¬ i - 8 < 2 by omega]

theorem cfgWord_writeCfg {s : State} {w : Word} (h : CfgAccepted s w) : (writeCfg s w).cfgWord = w &&& 0x3FF#32 := by
  have hbits : (if w.extractLsb' 8 2 = 1#2 then Kind.adaptive else .predictive).bits = w.extractLsb' 8 2 := by
    obtain ⟨-, -, hb | hb⟩ := h <;> rw [hb] <;> rfl
  rw [writeCfg_of_accepted h, State.cfgWord]
  dsimp only
  rw [hbits, cfgFields_append]

/-- Settles O46: the write ends as an accepted or as a rejected one, and a rejected one has set ERR. -/
theorem cfgWriteIsChecked : Obligations.CfgWriteIsChecked := by
  intro s w hb
  have hwrite : hostAccess { space := .reg, addr := 0x10, width := 4, dir := .write w } s = .next (writeCfg s w) :=
    hostAccess_writeReg hb rfl (by decide) w
  rw [hwrite]
  refine ⟨fun haccept => congrArg _ (writeCfg_of_accepted haccept),
    fun hreject => congrArg _ (writeCfg_of_not_accepted hreject), ?_⟩
  rintro t ht herr
  cases ht
  by_cases haccept : CfgAccepted s w
  · exact cfgWord_writeCfg haccept
  · rw [writeCfg_of_not_accepted haccept] at herr
    cases herr

/-! ## RAWLEN -/

theorem interleaverUsable_of_overlong {s : State} (h : s.params.bramSize < s.len) : s.interleaverUsable = false :=
  Bool.eq_false_iff.2 fun husable => absurd ((interleaverUsable_iff s).1 husable).2 (Nat.not_le.2 h)

theorem codecUsable_of_overlong {s : State} (h : s.params.bramSize < s.len) : s.codecUsable = false := by
  refine Bool.eq_false_iff.2 fun husable => ?_
  obtain ⟨-, -, hlen, -⟩ := (codecUsable_iff s).1 husable
  exact absurd hlen (Nat.not_le.2 h)

theorem codecCommand_of_unusable {s : State} (h : s.codecUsable = false) (f : Nat → Nat → State → Work) (sel : ChanSel)
    (cnt : Count) : codecCommand f sel cnt s = .next (s.errorCompletion (.plain .configError)) := by
  simp [codecCommand, State.codecPlan, h]

/-- Settles O47: each of the four commands makes its own check of the raw length first. -/
theorem rawLenIsCheckedAtUse : Obligations.RawLenIsCheckedAtUse := by
  intro s w
  refine ⟨fun hb => hostAccess_writeReg hb rfl (by decide) w, rfl, fun hlong sel cnt i hi => ?_⟩
  have hinterleaver := interleaverUsable_of_overlong hlong
  have hcodec := codecUsable_of_overlong hlong
  obtain rfl | rfl | rfl | rfl := hi
  · simp [exec, execDeintl, hinterleaver]
  · simp [exec, execIntl, hinterleaver]
  · exact codecCommand_of_unusable hcodec decBlock sel cnt
  · exact codecCommand_of_unusable hcodec encBlock sel cnt

/-! ## The size registers -/

theorem sliceLen_le_len (s : State) : s.sliceLen ≤ s.len := by
  rw [State.sliceLen]
  split
  · exact Nat.div_le_self _ _
  · exact Nat.zero_le _

/-- SLICE and NBLKR read exact numbers, which are no larger than the 32-bit RAWLEN. -/
theorem toNat_readReg_slice (s : State) : (readReg s 0x18).toNat = s.sliceLen := by
  have hlen : s.len < 2 ^ 32 := s.rawLen.isLt
  exact (BitVec.toNat_ofNat _ _).trans (Nat.mod_eq_of_lt ((sliceLen_le_len s).trans_lt hlen))

theorem toNat_readReg_nblk (s : State) : (readReg s 0x1C).toNat = s.nblk := by
  have hlen : s.len < 2 ^ 32 := s.rawLen.isLt
  have hnblk : s.nblk ≤ s.len := (Nat.div_le_self _ _).trans (sliceLen_le_len s)
  exact (BitVec.toNat_ofNat _ _).trans (Nat.mod_eq_of_lt (hnblk.trans_lt hlen))

/-- Settles O48: NSAMPR alone can be too small for its number. -/
theorem sizeRegistersAreDerived : Obligations.SizeRegistersAreDerived := by
  intro s
  rw [toNat_readReg_slice, toNat_readReg_nblk]
  refine ⟨rfl, rfl, fun hk => ?_, fun hk => ?_, fun hk => ?_, BitVec.toNat_ofNat _ _⟩
  · simp only [State.nsamp, hk, samplesPerPredictiveBlock]
  · simp only [State.nsamp, hk]
  · simp only [State.nsamp, hk]

/-! ## The window -/

theorem State.windowOpen_iff (s : State) : s.windowOpen = true ↔ s.chSel.toNat < s.params.nchMax := decide_eq_true_iff

theorem State.windowRead_of_open {s : State} (h : s.windowOpen = true) (v : Word) : s.windowRead v = v := if_pos h

theorem State.windowRead_of_closed {s : State} (h : ¬ s.windowOpen = true) (v : Word) : s.windowRead v = 0#32 := if_neg h

theorem writeWindow_of_open {s : State} (h : s.windowOpen = true) (x : Chan) : writeWindow s x = s.setChan s.chSel.toNat x :=
  if_pos h

theorem writeWindow_of_closed {s : State} (h : ¬ s.windowOpen = true) (x : Chan) : writeWindow s x = s := if_neg h

/-- A window write changes no more than the slots. -/
theorem writeWindow_frame (s : State) (x : Chan) : writeWindow s x = { s with ch := (writeWindow s x).ch } := by
  rw [writeWindow]
  split <;> rfl

/-- An open window updates the slot that CHSEL selects, and no other. -/
theorem chan_writeWindow {s : State} (h : s.windowOpen = true) (hslot : s.chSel.toNat < s.ch.length) (g : Chan → Chan) (c : Nat) :
    (writeWindow s (g s.window)).chan c = if c = s.chSel.toNat then g (s.chan c) else s.chan c := by
  rw [writeWindow_of_open h]
  by_cases hc : c = s.chSel.toNat
  · rw [if_pos hc, hc, State.chan_setChan_same _ hslot, State.window]
  · rw [if_neg hc, s.chan_setChan_other _ hc]

@[simp] theorem writeCfg_ch (s : State) (w : Word) : (writeCfg s w).ch = s.ch := by
  by_cases h : CfgAccepted s w
  · rw [writeCfg_of_accepted h]
  · rw [writeCfg_of_not_accepted h, State.reportError_ch]

/-- Only a window write reaches the slots. -/
theorem writeReg_ch {s : State} {off : Nat} (hwindow : ¬ (off = 0x28 ∨ off = 0x2C ∨ off = 0x30)) (w : Word) :
    (writeReg s off w).ch = s.ch := by
  unfold writeReg
  split
  case h_2 => exact writeCfg_ch s w
  case h_5 | h_6 | h_7 => simp at hwindow
  all_goals rfl

theorem chan_writeReg {s : State} (h : s.windowOpen = true) (hslot : s.chSel.toNat < s.ch.length) (off : Nat) (w : Word) (c : Nat) :
    (writeReg s off w).chan c =
      if c = s.chSel.toNat then
        if off = 0x28 then { s.chan c with hist0 := w.extractLsb' 0 16 }
        else if off = 0x2C then { s.chan c with hist1 := w.extractLsb' 0 16 }
        else if off = 0x30 then { s.chan c with cursor := w }
        else s.chan c
      else s.chan c := by
  by_cases hwindow : off = 0x28 ∨ off = 0x2C ∨ off = 0x30
  · obtain rfl | rfl | rfl := hwindow
    · exact chan_writeWindow h hslot (fun x => { x with hist0 := w.extractLsb' 0 16 }) c
    · exact chan_writeWindow h hslot (fun x => { x with hist1 := w.extractLsb' 0 16 }) c
    · exact chan_writeWindow h hslot (fun x => { x with cursor := w }) c
  · obtain ⟨h0, h1, h2⟩ : off ≠ 0x28 ∧ off ≠ 0x2C ∧ off ≠ 0x30 := by simpa using hwindow
    rw [State.chan_congr (writeReg_ch hwindow w)]
    simp [h0, h1, h2]

/-- Settles O49: below NCH_MAX the window is open and its slot exists; from NCH_MAX on it is closed. -/
theorem windowShowsTheSelectedSlot : Obligations.WindowShowsTheSelectedSlot := by
  intro s w hslots
  refine ⟨rfl, rfl, fun hsel => ?_, fun hsel => ?_⟩
  · have hopen := s.windowOpen_iff.2 hsel
    have hread := State.windowRead_of_open hopen
    refine ⟨?_, ?_, hread _, fun off => chan_writeReg hopen (hsel.trans_eq hslots.symm) off w, ?_⟩
    · exact (congrArg _ (hread _)).trans (BitVec.toInt_signExtend_of_le (by decide))
    · exact (congrArg _ (hread _)).trans (BitVec.toInt_signExtend_of_le (by decide))
    · rintro off (rfl | rfl | rfl) <;> exact writeWindow_frame s _
  · have hclosed := mt s.windowOpen_iff.1 (Nat.not_lt.2 hsel)
    have hread := State.windowRead_of_closed hclosed
    have hwrite := writeWindow_of_closed hclosed
    rintro off (rfl | rfl | rfl) <;> exact ⟨hread _, hwrite _⟩

/-! ## STATUS -/

/-- STATUS bit by bit: BUSY, ERR, CHV, a 0, and ERRCODE above (R28). -/
theorem State.getLsbD_statusWord (s : State) (i : Nat) : s.statusWord.getLsbD i =
    match i with
    | 0 => s.busy
    | 1 => s.err
    | 2 => s.chv
    | 3 => false
    | i + 4 => s.errCode.bits.getLsbD i := by
  rw [State.statusWord]
  simp only [BitVec.getLsbD_append, BitVec.getLsbD_ofBool]
  rcases i with _ | _ | _ | _ | i
  · simp
  · simp
  · simp
  · simp
  · by_cases h : i < 4
    · simp [h]
    · simp [h, BitVec.getLsbD_of_ge s.errCode.bits i (by omega)]

theorem State.extractLsb'_statusWord_errCode (s : State) : s.statusWord.extractLsb' 4 4 = s.errCode.bits := by
  apply BitVec.eq_of_getLsbD_eq
  intro i hi
  rw [BitVec.getLsbD_extractLsb', Nat.add_comm, s.getLsbD_statusWord]
  simp [hi]

theorem State.extractLsb'_statusWord_high (s : State) : s.statusWord.extractLsb' 8 24 = 0#24 := by
  apply BitVec.eq_of_getLsbD_eq
  intro i hi
  rw [BitVec.getLsbD_extractLsb', show 8 + i = (i + 4) + 4 by omega, s.getLsbD_statusWord]
  simp

/-- Settles O51: each field is read off the bits of STATUS, and a code by its number of R261. -/
theorem statusShowsItsFields : Obligations.StatusShowsItsFields := by
  intro s
  have hbit := s.getLsbD_statusWord
  refine ⟨hbit 0, hbit 1, hbit 2, hbit 3, ?_, s.extractLsb'_statusWord_high, rfl, rfl⟩
  have hcode : (readReg s 0x04).extractLsb' 4 4 = s.errCode.bits := s.extractLsb'_statusWord_errCode
  rw [hcode]
  cases s.errCode <;> rfl

end Sys2Proof.Machine

/-! SUPPORT. The memories and the host port: which command writes which store, where DEC and ENC meet an unwritten cell, and what an
access reads, writes and breaks (20_memory.md R61 to R70, R78; 44_commands.md R236, R240). -/

namespace Sys2Proof.Machine

/-! ## Who writes which store -/

/-- Settles O16: the effect of each command, before its status, is written out, and a status touches no store. -/
theorem eachStoreHasItsWriters : Obligations.EachStoreHasItsWriters := by
  intro i s t h
  obtain ⟨u, rfl, hu⟩ | ⟨e, -, rfl⟩ := exec_cases h
  · obtain ⟨rfl, rfl⟩ | ⟨rfl, rfl⟩ | ⟨rfl, -, rfl⟩ | ⟨rfl, -, -, rfl⟩ | ⟨sel, cnt, plan, rfl, -, hdec⟩ |
      ⟨sel, cnt, plan, rfl, -, henc⟩ := hu
    · simp
    · simp
    · simp
    · simp
    · rw [decChannels_frame hdec]; simp
    · rw [encChannels_frame henc]; simp
  · simp

/-! ## Where DEC and ENC meet an unwritten cell -/

/-- A range cannot be read exactly when one of its cells is unwritten. -/
theorem Mem.getRange_eq_none_iff {w : Nat} (m : Mem w) (a n : Nat) :
    Mem.getRange m a n = none ↔ ∃ i < n, Mem.get m (a + i) = none := by
  rw [← Option.not_isSome_iff_eq_none, Mem.getRange_isSome_iff]
  simp

/-- Settles O35: the blocks before leave CHB, so the block is as unwritten when DEC comes to it as it was before. -/
theorem decFaultsOnAnUnwrittenBlock : Obligations.DecFaultsOnAnUnwrittenBlock := by
  intro s sel cnt before after c j inv ready hsel hbefore hj hc hunwritten
  have slots := slots_of_ready inv ready
  obtain ⟨nodup, hnot⟩ := before_of_selected hsel
  obtain ⟨u, hu, hframe, hlen, hother⟩ :=
    forChannels_dec_of_decodesTo nodup (fun d hd => (slots d (by simp [hsel, hd])).1) hbefore
  have huc := hother c hnot
  obtain ⟨y, a, xs, -, hv⟩ := forBlocks_dec_of_decodesTo (slots c (by simp [hsel])).1 hc hframe hlen huc
  have hchb : ((u.setChan c y).writeSram a xs).chbOf c = s.chbOf c := by rw [hframe]; rfl
  have hblock := decBlock_unwritten (hchb ▸ (Mem.getRange_eq_none_iff _ _ _).2 hunwritten)
  exact codecCommand_stops ready hsel hj hu huc hv hblock rfl

/-- A block of either kind with an unwritten input sample (R240). -/
theorem encBlock_of_unwritten_sample {s : State} {c k : Nat} (hk : s.kind ≠ .none)
    (h : ∃ i < s.samplesPerBlock, Mem.get s.sram (s.sampleIndex c (s.samplesPerBlock * k) + i) = none) :
    encBlock c k s = .fault (.samplesUnwritten c k) := by
  rw [← Mem.getRange_eq_none_iff] at h
  rcases hkind : s.kind with _ | _ | _
  · exact absurd hkind hk
  · have hspb : s.samplesPerBlock = Config.spbA := by simp [State.samplesPerBlock, hkind]
    exact encBlock_unwritten_adaptive hkind (hspb ▸ h)
  · have hspb : s.samplesPerBlock = 30 := by simp [State.samplesPerBlock, hkind]
    exact encBlock_unwritten hkind (hspb ▸ h)

/-- Settles O37: the blocks before leave SRAM, so the sample is as unwritten when ENC comes to its block as it was before. -/
theorem encFaultsOnUnwrittenSamples : Obligations.EncFaultsOnUnwrittenSamples := by
  intro s sel cnt before after c j inv ready hsel hbefore hj hc hunwritten
  have slots := slots_of_ready inv ready
  obtain ⟨nodup, hnot⟩ := before_of_selected hsel
  obtain ⟨u, hu, hframe, hlen, hlenb, hother⟩ :=
    forChannels_enc_of_encodesTo nodup (fun d hd => slots d (by simp [hsel, hd])) hbefore
  have huc := hother c hnot
  obtain ⟨y, a, xs, -, hv⟩ := forBlocks_enc_of_encodesTo (slots c (by simp [hsel])) hc hframe hlen hlenb huc
  have hblock : encBlock c (s.cursorOf c + j) ((u.setChan c y).writeChb c a xs) =
      .fault (.samplesUnwritten c (s.cursorOf c + j)) := by
    rw [hframe]
    exact encBlock_of_unwritten_sample ready.configured.2 hunwritten
  exact codecCommand_stops ready hsel hj hu huc hv hblock rfl

/-! ## Accesses by space -/

/-- While BUSY = 0 an access is that of its space. -/
theorem hostAccess_bram {s : State} (hb : s.busy = false) (addr width : Nat) (dir : Dir) :
    hostAccess { space := .bram, addr := addr, width := width, dir := dir } s = bramAccess s addr width dir := by
  simp [hostAccess, hb]

theorem hostAccess_sram {s : State} (hb : s.busy = false) (addr width : Nat) (dir : Dir) :
    hostAccess { space := .sram, addr := addr, width := width, dir := dir } s = sramAccess s addr width dir := by
  simp [hostAccess, hb]

/-- A legal REG read on an idle core answers the register (R61). -/
theorem hostAccess_readReg {s : State} (hb : s.busy = false) {off : Nat} (halign : off % 4 = 0) (hoff : off ≤ 0xFC) :
    hostAccess { space := .reg, addr := off, width := 4, dir := .read } s = .next (s.answer (readReg s off)) := by
  simp [hostAccess, hb, regAccess, halign, hoff]

/-- An access that cannot go on is a fault, since none is refused. -/
theorem hostAccess_fault_of_ne_next {a : Access} {s : State} (h : ∀ t, hostAccess a s ≠ .next t) :
    ∃ f, hostAccess a s = .fault f := by
  rcases hout : hostAccess a s with t | f | r
  · exact absurd hout (h t)
  · exact ⟨f, rfl⟩
  · exact absurd hout (hostAccess_ne_refused a s r)

/-- What a BRAM access that goes on has kept, whatever BUSY is. -/
theorem bramRules_of_hostAccess {s t : State} {addr width : Nat} {dir : Dir}
    (h : hostAccess { space := .bram, addr := addr, width := width, dir := dir } s = .next t) :
    (width = 1 ∨ width = 2 ∨ width = 4) ∧ addr % width = 0 ∧ addr + width ≤ s.params.bramSize := by
  obtain ⟨-, ⟨hspace, -⟩ | ⟨-, hbram⟩ | ⟨hspace, -⟩⟩ := hostAccess_eq_next h
  · cases hspace
  · exact (bramAccess_eq_next hbram).1
  · cases hspace

/-! ## BRAM -/

section

variable {s : State} {addr width : Nat} (hwidth : width = 1 ∨ width = 2 ∨ width = 4) (halign : addr % width = 0)
  (hrange : addr + width ≤ s.params.bramSize)
include hwidth halign hrange

/-- A legal BRAM read answers its bytes if they are written, and a legal write stores its bytes (R63, R68). -/
theorem bramAccess_read_written {bs : Vector Byte width} (h : Mem.getRange s.bram addr width = some bs) :
    bramAccess s addr width .read = .next (s.answer (BitVec.ofNat 32 (littleEndian bs.toList))) := by
  rw [bramAccess, if_neg (not_not.2 hwidth), if_neg (not_not.2 halign), if_neg (Nat.not_lt.2 hrange)]
  simp only [h]

theorem bramAccess_read_unwritten (h : Mem.getRange s.bram addr width = none) :
    bramAccess s addr width .read = .fault .bramUnwritten := by
  rw [bramAccess, if_neg (not_not.2 hwidth), if_neg (not_not.2 halign), if_neg (Nat.not_lt.2 hrange)]
  simp only [h]

theorem bramAccess_write (v : Word) :
    bramAccess s addr width (.write v) = .next { s with bram := Mem.setRange s.bram addr (bytesOf width v) } := by
  rw [bramAccess, if_neg (not_not.2 hwidth), if_neg (not_not.2 halign), if_neg (Nat.not_lt.2 hrange)]

end

/-- A little-endian value as a sum over its bytes. -/
theorem littleEndian_ofFn {n : Nat} (f : Fin n → Byte) : littleEndian (List.ofFn f) = ∑ k, (f k).toNat * 2 ^ (8 * k.val) := by
  induction n with
  | zero => rfl
  | succ n ih =>
    rw [List.ofFn_succ, littleEndian, ih, Fin.sum_univ_succ, Finset.mul_sum]
    simp only [Fin.val_zero, Fin.val_succ, Nat.mul_zero, Nat.pow_zero, Nat.mul_one]
    congr 1
    refine Finset.sum_congr rfl fun k _ => ?_
    rw [Nat.mul_add_one, Nat.pow_add]
    ring

/-- `n` bytes have a value of `8 * n` bits. -/
theorem littleEndian_lt (bs : List Byte) : littleEndian bs < 2 ^ (8 * bs.length) := by
  induction bs with
  | nil => exact Nat.one_pos
  | cons b bs ih =>
    have hb := b.isLt
    rw [littleEndian, List.length_cons, Nat.mul_add_one, Nat.pow_add]
    omega

/-- The value of at most four bytes fits into a word. -/
theorem toNat_ofNat_littleEndian {n : Nat} (hn : n ≤ 4) (bs : Vector Byte n) :
    (BitVec.ofNat 32 (littleEndian bs.toList)).toNat = ∑ k : Fin n, bs[k].toNat * 2 ^ (8 * k.val) := by
  have hbytes : bs.toList = List.ofFn (fun k : Fin n => bs[k]) := List.ext_getElem (by simp) (by simp)
  have hlt : littleEndian bs.toList < 2 ^ 32 :=
    (littleEndian_lt _).trans_le (Nat.pow_le_pow_right (by decide) (by rw [Vector.length_toList]; omega))
  rw [BitVec.toNat_ofNat, Nat.mod_eq_of_lt hlt, hbytes, littleEndian_ofFn]

/-- Settles O52: the bytes of a range are read as one little-endian number, and written one by one. -/
theorem bramAccessIsLittleEndian : Obligations.BramAccessIsLittleEndian := by
  intro s a n v hb hwidth
  refine ⟨fun halign hrange => ⟨fun bs hbs => ?_, ?_⟩, fun hbroken d => ?_⟩
  · have hread := (Mem.getRange_eq_some_iff s.bram a n bs).2 hbs
    rw [hostAccess_bram hb, bramAccess_read_written hwidth halign hrange hread]
    exact ⟨_, rfl, _, rfl, toNat_ofNat_littleEndian (by omega) bs⟩
  · rw [hostAccess_bram hb, bramAccess_write hwidth halign hrange]
    refine ⟨_, rfl, fun k hk => ?_, fun b hout => ?_, rfl⟩
    · rw [Mem.get_setRange_inside s.bram a (bytesOf n v) (by simpa using hk)]
      simp [bytesOf]
    · exact Mem.get_setRange_outside s.bram a (bytesOf n v) (by simpa using hout)
  · exact hostAccess_fault_of_ne_next fun t ht => hbroken (bramRules_of_hostAccess ht).2

/-! ## SRAM -/

/-- A legal SRAM read answers its word if it is written, and a legal write stores one word (R64, R68). -/
theorem sramAccess_read_written {s : State} {addr : Nat} {x : Sample} (hrange : addr < s.params.sramWords)
    (h : Mem.get s.sram addr = some x) : sramAccess s addr 2 .read = .next (s.answer (x.setWidth 32)) := by
  rw [sramAccess, if_neg (not_not.2 rfl), if_neg (Nat.not_le.2 hrange)]
  simp only [h]

theorem sramAccess_read_unwritten {s : State} {addr : Nat} (hrange : addr < s.params.sramWords)
    (h : Mem.get s.sram addr = none) : sramAccess s addr 2 .read = .fault .sramUnwritten := by
  rw [sramAccess, if_neg (not_not.2 rfl), if_neg (Nat.not_le.2 hrange)]
  simp only [h]

theorem sramAccess_write {s : State} {addr : Nat} (hrange : addr < s.params.sramWords) (v : Word) :
    sramAccess s addr 2 (.write v) = .next { s with sram := Mem.set s.sram addr (v.extractLsb' 0 16) } := by
  rw [sramAccess, if_neg (not_not.2 rfl), if_neg (Nat.not_le.2 hrange)]

theorem sramAccess_outside {s : State} {addr : Nat} (hrange : s.params.sramWords ≤ addr) (dir : Dir) :
    sramAccess s addr 2 dir = .fault .sramRange := by
  unfold sramAccess
  rw [if_neg (not_not.2 rfl), if_pos hrange]

/-- Settles O53: a word is read as its pattern, and one cell is written. -/
theorem sramAccessMovesOneWord : Obligations.SramAccessMovesOneWord := by
  intro s a v hb
  refine ⟨fun hrange => ⟨fun x hx => ?_, ?_⟩, fun hrange d => ?_⟩
  · rw [hostAccess_sram hb, sramAccess_read_written hrange hx]
    exact ⟨_, rfl, _, rfl, BitVec.toNat_setWidth_of_le (by decide)⟩
  · rw [hostAccess_sram hb, sramAccess_write hrange]
    exact ⟨_, rfl, Mem.get_set_same _ _ _, fun b hne => Mem.get_set_other _ _ hne, rfl⟩
  · rw [hostAccess_sram hb, sramAccess_outside hrange]

/-! ## What an access leaves -/

@[simp] theorem writeCfg_reads (s : State) (w : Word) : (writeCfg s w).reads = s.reads := by
  by_cases h : CfgAccepted s w
  · rw [writeCfg_of_accepted h]
  · rw [writeCfg_of_not_accepted h, State.reportError_reads]

/-- No register is the host's own list. -/
theorem writeReg_reads (s : State) (off : Nat) (w : Word) : (writeReg s off w).reads = s.reads := by
  unfold writeReg
  split
  case h_2 => exact writeCfg_reads s w
  case h_5 | h_6 | h_7 => rw [writeWindow_frame]
  all_goals rfl

/-- Settles O57: an access that goes on either answers one value, or writes one register, some bytes of BRAM or one word of SRAM. -/
theorem accessesHaveOnlyTheirEffect : Obligations.AccessesHaveOnlyTheirEffect := by
  intro a s t h
  obtain ⟨-, ⟨hspace, hreg⟩ | ⟨hspace, hbram⟩ | ⟨hspace, hsram⟩⟩ := hostAccess_eq_next h
  · obtain ⟨-, ⟨hdir, rfl⟩ | ⟨v, hdir, rfl⟩⟩ := regAccess_eq_next hreg
    · simp [hspace, hdir, State.answer]
    · simp [hspace, hdir, writeReg_reads]
  · obtain ⟨-, ⟨hdir, bs, -, rfl⟩ | ⟨v, hdir, rfl⟩⟩ := bramAccess_eq_next hbram
    · simp [hspace, hdir, State.answer]
    · simp [hspace, hdir]
  · obtain ⟨-, ⟨hdir, v, -, rfl⟩ | ⟨v, hdir, rfl⟩⟩ := sramAccess_eq_next hsram
    · simp [hspace, hdir, State.answer]
    · simp [hspace, hdir]

/-! ## REG -/

/-- Reserved offsets read 0 and ignore writes (R61). -/
theorem readReg_reserved (s : State) {off : Nat} (h : 0x34 ≤ off) : readReg s off = 0#32 := by
  unfold readReg
  split
  case h_14 => rfl
  all_goals simp at h

theorem writeReg_reserved (s : State) {off : Nat} (h : 0x34 ≤ off) (w : Word) : writeReg s off w = s := by
  unfold writeReg
  split
  case h_8 => rfl
  all_goals simp at h

/-- The registers that the host can only read ignore writes (R26). -/
theorem writeReg_readOnly (s : State) {off : Nat}
    (h : off = 0x04 ∨ off = 0x08 ∨ off = 0x0C ∨ off = 0x18 ∨ off = 0x1C ∨ off = 0x20) (w : Word) : writeReg s off w = s := by
  obtain rfl | rfl | rfl | rfl | rfl | rfl := h <;> rfl

/-- Settles O50: the port passes a legal access on to `readReg` and `writeReg`. -/
theorem registerAccessesReachTheRegister : Obligations.RegisterAccessesReachTheRegister :=
  fun s _ w hb halign hoff => ⟨hostAccess_readReg hb halign hoff, hostAccess_writeReg hb halign hoff w,
    fun hreserved => ⟨readReg_reserved s hreserved, writeReg_reserved s hreserved w⟩, fun hro => writeReg_readOnly s hro w⟩

/-! ## Faults -/

/-- Settles O54: an access that goes on is of one of the three spaces and keeps the rule of its space. -/
theorem accessesOutsideThePortFault : Obligations.AccessesOutsideThePortFault := by
  intro s a n d
  refine ⟨fun hrule => ?_, fun k => ?_, fun h1 h2 h4 => ?_, fun hwidth => ?_⟩ <;>
    refine hostAccess_fault_of_ne_next fun t ht => ?_
  · obtain ⟨-, ⟨-, hreg⟩ | ⟨hspace, -⟩ | ⟨hspace, -⟩⟩ := hostAccess_eq_next ht
    · exact hrule (regAccess_eq_next hreg).1
    · cases hspace
    · cases hspace
  · obtain ⟨-, ⟨hspace, -⟩ | ⟨hspace, -⟩ | ⟨hspace, -⟩⟩ := hostAccess_eq_next ht <;> cases hspace
  · obtain ⟨hn | hn | hn, -⟩ := bramRules_of_hostAccess ht
    · exact h1 hn
    · exact h2 hn
    · exact h4 hn
  · obtain ⟨-, ⟨hspace, -⟩ | ⟨hspace, -⟩ | ⟨-, hsram⟩⟩ := hostAccess_eq_next ht
    · cases hspace
    · cases hspace
    · exact hwidth (sramAccess_eq_next hsram).1.1

theorem Access.isStatusRead_iff (a : Access) :
    a.isStatusRead = true ↔ a = { space := .reg, addr := 4, width := 4, dir := .read } := by
  obtain ⟨space, addr, width, dir⟩ := a
  simp [Access.isStatusRead, and_assoc]

/-- A STATUS read is answered, whatever BUSY is (R70). -/
theorem hostAccess_statusRead (s : State) :
    hostAccess { space := .reg, addr := 4, width := 4, dir := .read } s = .next (s.answer s.statusWord) := by
  have hstatus := (Access.isStatusRead_iff { space := .reg, addr := 4, width := 4, dir := .read }).2 rfl
  rw [hostAccess, hstatus, Bool.not_true, Bool.and_false]
  rfl

/-- While BUSY = 1 every other access is a fault, and it is named for BUSY (R70). -/
theorem hostAccess_of_busy {a : Access} {s : State} (hb : s.busy = true)
    (ha : a ≠ { space := .reg, addr := 4, width := 4, dir := .read }) : hostAccess a s = .fault .busyAccess := by
  have hstatus : a.isStatusRead = false := Bool.eq_false_iff.2 (mt a.isStatusRead_iff.1 ha)
  simp [hostAccess, hb, hstatus]

/-- Settles O55: a STATUS read is the one access that the BUSY check lets pass. -/
theorem busyAllowsOnlyStatusReads : Obligations.BusyAllowsOnlyStatusReads :=
  fun s _ hb => ⟨fun ha => ha ▸ hostAccess_statusRead s, fun ha => ⟨_, hostAccess_of_busy hb ha⟩⟩

/-- Settles O56: the read of an unwritten cell comes as far as the cell, and the BUSY check comes first of all. -/
theorem hostReadOfUnwrittenFaults : Obligations.HostReadOfUnwrittenFaults := by
  intro s a n
  refine ⟨fun hb hwidth halign hrange hunwritten => ?_, fun hb hrange hunwritten => ?_, fun hb x f hf => ?_⟩
  · have hread := (Mem.getRange_eq_none_iff s.bram a n).2 hunwritten
    rw [hostAccess_bram hb, bramAccess_read_unwritten hwidth halign hrange hread]
  · rw [hostAccess_sram hb, sramAccess_read_unwritten hrange hunwritten]
  · by_cases hx : x = { space := .reg, addr := 4, width := 4, dir := .read }
    · rw [hx, hostAccess_statusRead] at hf
      cases hf
    · rw [hostAccess_of_busy hb hx] at hf
      cases hf
      rfl

end Sys2Proof.Machine

/-! SUPPORT. The command word: its fields, and that the decoder undoes the encoder and the encoder the decoder (30_encoding.md R90 to
R95). -/

namespace Sys2Proof

/-! ## The fields of a word (R90) -/

section

variable (count : BitVec 16) (ch : BitVec 8) (op : BitVec 4)

@[simp] theorem opField_commandWord : opField (commandWord count ch op) = op :=
  BitVec.extractLsb'_append_eq_right

@[simp] theorem rsvField_commandWord : rsvField (commandWord count ch op) = 0#4 :=
  (BitVec.extractLsb'_append_eq_of_le (by decide)).trans BitVec.extractLsb'_append_eq_right

@[simp] theorem chField_commandWord : chField (commandWord count ch op) = ch := by
  rw [chField, commandWord, BitVec.extractLsb'_append_eq_of_le (by decide), BitVec.extractLsb'_append_eq_of_le (by decide)]
  exact BitVec.extractLsb'_append_eq_right

@[simp] theorem countField_commandWord : countField (commandWord count ch op) = count := by
  rw [countField, commandWord, BitVec.extractLsb'_append_eq_of_le (by decide), BitVec.extractLsb'_append_eq_of_le (by decide)]
  exact BitVec.extractLsb'_append_eq_left

end

/-- A word with RSV = 0 is put together again from its other three fields. -/
theorem commandWord_fields {w : Word} (h : rsvField w = 0#4) : commandWord (countField w) (chField w) (opField w) = w := by
  have hop : rsvField w ++ opField w = w.extractLsb' 0 8 := BitVec.extractLsb'_append_extractLsb'_eq_extractLsb' rfl
  have hch : chField w ++ w.extractLsb' 0 8 = w.extractLsb' 0 16 := BitVec.extractLsb'_append_extractLsb'_eq_extractLsb' rfl
  have hcount : countField w ++ w.extractLsb' 0 16 = w.extractLsb' 0 32 := BitVec.extractLsb'_append_extractLsb'_eq_extractLsb' rfl
  rw [commandWord, ← h, BitVec.append_assoc, BitVec.append_assoc]
  simp [hop, hch, hcount]

/-! ## The operands and their fields (R93, R121) -/

theorem chanOfField_field {sel : ChanSel} (h : sel.wf = true) : chanOfField sel.field = sel := by
  cases sel with
  | all => rfl
  | one c =>
    have hc : c ≤ 254 := of_decide_eq_true h
    have hnat : (BitVec.ofNat 8 c).toNat = c := Nat.mod_eq_of_lt (by omega)
    have hne : BitVec.ofNat 8 c ≠ 0xFF#8 := fun he => by simp [he] at hnat; omega
    rw [ChanSel.field, chanOfField, if_neg hne, hnat]

theorem countOfField_field {cnt : Count} (h : cnt.wf = true) : countOfField cnt.field = cnt := by
  cases cnt with
  | rest => rfl
  | blocks n =>
    obtain ⟨hpos, hmax⟩ : 1 ≤ n ∧ n ≤ 65535 := by simpa [Count.wf] using h
    have hnat : (BitVec.ofNat 16 n).toNat = n := Nat.mod_eq_of_lt (by omega)
    have hne : BitVec.ofNat 16 n ≠ 0#16 := fun he => by simp [he] at hnat; omega
    rw [Count.field, countOfField, if_neg hne, hnat]

/-- Each CH field is an operand that spells it. -/
theorem chanOfField_spells (ch : BitVec 8) : (chanOfField ch).wf = true ∧ (chanOfField ch).field = ch := by
  rw [chanOfField]
  split
  · next hall => exact ⟨rfl, hall.symm⟩
  · next hone =>
    have hne : ch.toNat ≠ 255 := fun he => hone (BitVec.eq_of_toNat_eq he)
    have hlt := ch.isLt
    exact ⟨decide_eq_true (by omega), by simp [ChanSel.field]⟩

/-- Each COUNT field is an operand that spells it. -/
theorem countOfField_spells (n : BitVec 16) : (countOfField n).wf = true ∧ (countOfField n).field = n := by
  rw [countOfField]
  split
  · next hrest => exact ⟨rfl, hrest.symm⟩
  · next hblocks =>
    have hne : n.toNat ≠ 0 := fun he => hblocks (BitVec.eq_of_toNat_eq he)
    have hlt := n.isLt
    exact ⟨by simp [Count.wf]; omega, by simp [Count.field]⟩

/-! ## The decoder -/

/-- Decoding undoes encoding. -/
theorem decode_encode {i : Instr} (h : i.wf = true) : decode (encode i) = .ok i := by
  cases i with
  | nop | chreset | deintl | intl => rfl
  | dec sel cnt | enc sel cnt =>
    obtain ⟨hsel, hcnt⟩ := (Bool.and_eq_true _ _).mp h
    simp [encode, decode, chanOfField_field hsel, countOfField_field hcnt]

/-- Settles O1: each field of the word of a command is read back, and the operand from its field. -/
theorem decodeOfEncodeIsTheInstruction : Obligations.DecodeOfEncodeIsTheInstruction :=
  fun _ h => decode_encode h

/-- A word that is read as a command without operands has CH = 0 and COUNT = 0. -/
theorem withoutOperands_eq_ok {i j : Instr} {w : Word} (h : withoutOperands i w = .ok j) :
    j = i ∧ chField w = 0#8 ∧ countField w = 0#16 := by
  rw [withoutOperands] at h
  split at h
  · next hzero => cases h; exact ⟨rfl, hzero⟩
  · cases h

/-- A word is spelled by the command it decodes to, which is well-formed. -/
theorem encode_of_decode {w : Word} {i : Instr} (h : decode w = .ok i) : i.wf = true ∧ encode i = w := by
  unfold decode at h
  split at h
  · cases h
  next hrsv =>
  have hw := commandWord_fields (not_not.1 hrsv)
  have hopw {k : Nat} (hop : (opField w).toNat = k) : opField w = BitVec.ofNat 4 k := by simp [← hop]
  split at h
  case h_1 hop | h_2 hop | h_3 hop | h_4 hop =>
    obtain ⟨rfl, hch, hcount⟩ := withoutOperands_eq_ok h
    rw [hch, hcount, hopw hop] at hw
    exact ⟨rfl, hw⟩
  case h_5 hop | h_6 hop =>
    cases h
    obtain ⟨hsel, hch⟩ := chanOfField_spells (chField w)
    obtain ⟨hcnt, hcount⟩ := countOfField_spells (countField w)
    rw [hopw hop] at hw
    exact ⟨(Bool.and_eq_true _ _).mpr ⟨hsel, hcnt⟩, by rw [encode, hch, hcount]; exact hw⟩
  case h_7 => cases h

theorem withoutOperands_isError_iff (i : Instr) (w : Word) :
    (∃ e, withoutOperands i w = .error e) ↔ chField w ≠ 0#8 ∨ countField w ≠ 0#16 := by
  rw [withoutOperands]
  split
  · next hzero => simp [hzero]
  · next hoperand => simpa using Decidable.not_and_iff_or_not.1 hoperand

/-- The illegal words (R92). -/
theorem decode_isError_iff (w : Word) :
    (∃ e, decode w = .error e) ↔
      6 ≤ (opField w).toNat ∨ rsvField w ≠ 0#4 ∨ ((opField w).toNat ≤ 3 ∧ (chField w ≠ 0#8 ∨ countField w ≠ 0#16)) := by
  unfold decode
  split
  · next hrsv => exact iff_of_true ⟨_, rfl⟩ (.inr (.inl hrsv))
  next hrsv =>
  split
  case h_1 hop | h_2 hop | h_3 hop | h_4 hop => simp [withoutOperands_isError_iff, hop, hrsv]
  case h_5 hop | h_6 hop => simp [hop, hrsv]
  case h_7 h0 h1 h2 h3 h4 h5 =>
    simp only [imp_false] at h0 h1 h2 h3 h4 h5
    exact iff_of_true ⟨_, rfl⟩ (.inl (by omega))

/-- An illegal word in LATCH ends as ILLEGAL_CMD (R92, R261). -/
theorem coreStep_of_illegal {s : Machine.State} (h : ∃ e, decode s.latch = .error e) : Machine.coreStep s = .next s.illegalCommand := by
  obtain ⟨e, he⟩ := h
  rw [Machine.coreStep, he]

/-- Settles O2: the decoder's errors are R92's cases, and what it accepts, the encoder spells again. -/
theorem illegalWordsAreThoseOfTheRule : Obligations.IllegalWordsAreThoseOfTheRule := by
  intro w
  refine ⟨decode_isError_iff w, fun _ => encode_of_decode, ?_⟩
  rintro s rfl hillegal
  exact coreStep_of_illegal hillegal

/-! ## The opcode table (R91) -/

/-- The word of each command is in the row of its mnemonic. -/
theorem encode_in_row (i : Instr) : ∃ r ∈ opcodeTable, r.hits (encode i) = true ∧ r.mnemonic = i.mnemonic := by
  have hrow : Laws.EncodesInItsRow.Statement i := by
    cases i with
    | nop => exact Laws.EncodesInItsRow.nop
    | chreset => exact Laws.EncodesInItsRow.chreset
    | deintl => exact Laws.EncodesInItsRow.deintl
    | intl => exact Laws.EncodesInItsRow.intl
    | dec sel cnt => exact Laws.EncodesInItsRow.dec sel cnt
    | enc sel cnt => exact Laws.EncodesInItsRow.enc sel cnt
  obtain ⟨-, r, hr, hmnemonic, hhits⟩ := hrow
  exact ⟨r, hr, hhits, hmnemonic⟩

/-- The low byte of a word decides its fields RSV and OP. -/
theorem lowFields_of_mask {w p : Word} (h : w &&& 0xFF#32 = p) : rsvField w = rsvField p ∧ opField w = opField p := by
  rw [← h, rsvField, rsvField, opField, opField, BitVec.extractLsb'_and, BitVec.extractLsb'_and]
  exact ⟨BitVec.and_allOnes.symm, BitVec.and_allOnes.symm⟩

/-- A word of the rows without operands is the row's pattern, and a word of the rows DEC and ENC has that OP and RSV = 0. -/
theorem decode_of_row {r : OpcodeRow} (hr : r ∈ opcodeTable) {w : Word} (h : r.hits w = true) :
    ∃ i, decode w = .ok i ∧ i.mnemonic = r.mnemonic := by
  have hpattern : w &&& r.mask = r.pattern := eq_of_beq h
  have hfull {p : Word} (hp : w &&& 0xFFFFFFFF#32 = p) : w = p := BitVec.and_allOnes.symm.trans hp
  simp only [opcodeTable, List.mem_cons, List.not_mem_nil, or_false] at hr
  obtain rfl | rfl | rfl | rfl | rfl | rfl := hr
  · exact ⟨.nop, by rw [hfull hpattern]; rfl, rfl⟩
  · exact ⟨.chreset, by rw [hfull hpattern]; rfl, rfl⟩
  · exact ⟨.deintl, by rw [hfull hpattern]; rfl, rfl⟩
  · exact ⟨.intl, by rw [hfull hpattern]; rfl, rfl⟩
  · obtain ⟨hrsv, hop⟩ := lowFields_of_mask hpattern
    exact ⟨.dec _ _, by rw [decode, hrsv, hop]; rfl, rfl⟩
  · obtain ⟨hrsv, hop⟩ := lowFields_of_mask hpattern
    exact ⟨.enc _ _, by rw [decode, hrsv, hop]; rfl, rfl⟩

/-- Settles O3: a legal word is the word of its command, which has its row; and each row holds legal words only. -/
theorem decoderAgreesWithTheOpcodeTable : Obligations.DecoderAgreesWithTheOpcodeTable := by
  intro w
  refine ⟨fun i h => ?_, fun r hr hhits => decode_of_row hr hhits⟩
  rw [← (encode_of_decode h).2]
  exact encode_in_row i

/-! ## The examples (R95) -/

/-- Settles O4: the decoder run on each word. -/
theorem exampleWordsDecode : Obligations.ExampleWordsDecode :=
  ⟨rfl, rfl, rfl, rfl, rfl, rfl, rfl, rfl, ⟨.reservedBits, rfl⟩, ⟨.reservedOp, rfl⟩, ⟨.operandBits, rfl⟩⟩

end Sys2Proof

/-! SUPPORT. The block format: the nibbles of a block and their codes, and the range of the decoder's outputs (30_encoding.md R100 to
R105; 41_predictive_decode.md R157). -/

namespace Sys2Proof.Machine

/-! ## Nibbles and codes (R103) -/

theorem sx4_range (n : Int) : -8 ≤ sx4 n ∧ sx4 n ≤ 7 := by
  rw [sx4]
  omega

/-- The nibble of a code is the code modulo 16. -/
theorem toNat_codeNibble (code : Int) : ((codeNibble code).toNat : Int) = code % 16 := by
  rw [codeNibble, BitVec.toNat_ofInt]
  omega

theorem sx4_codeNibble {code : Int} (h : -8 ≤ code) (h' : code ≤ 7) : sx4 (codeNibble code).toNat = code := by
  rw [sx4, toNat_codeNibble]
  omega

theorem codeNibble_sx4 (n : BitVec 4) : codeNibble (sx4 n.toNat) = n := by
  have hn := n.isLt
  have hcode := toNat_codeNibble (sx4 n.toNat)
  apply BitVec.eq_of_toNat_eq
  rw [sx4] at *
  omega

/-! ## Bytes and nibbles (R100) -/

@[simp] theorem biased_biased (b : Byte) : biased (biased b) = b := by
  rw [biased, biased, BitVec.xor_assoc, BitVec.xor_self, BitVec.xor_zero]

section

variable (b : Vector Byte 16) {j : Nat} (hj : j < 16)

/-- The even nibble of a byte is its low one, and the odd nibble its high one. -/
theorem nibble_even : nibble b (2 * j) = (biased b[j]).extractLsb' 0 4 := by
  have hbyte : b[2 * j / 2]? = some b[j] := by rw [Nat.mul_div_cancel_left j (by decide)]; exact Vector.getElem?_eq_getElem hj
  simp only [nibble, hbyte, Option.getD_some, Nat.mul_mod_right, if_true]

theorem nibble_odd : nibble b (2 * j + 1) = (biased b[j]).extractLsb' 4 4 := by
  have hbyte : b[(2 * j + 1) / 2]? = some b[j] := by
    rw [show (2 * j + 1) / 2 = j by omega]; exact Vector.getElem?_eq_getElem hj
  have hodd : (2 * j + 1) % 2 ≠ 0 := by omega
  simp only [nibble, hbyte, Option.getD_some, if_neg hodd]

/-- A byte made of two codes reads back as these. -/
theorem codeAt_of_packed {lo hi : Int} (hlo : -8 ≤ lo) (hlo' : lo ≤ 7) (hhi : -8 ≤ hi) (hhi' : hi ≤ 7)
    (h : b[j] = biased (codeNibble hi ++ codeNibble lo)) : codeAt b (2 * j) = lo ∧ codeAt b (2 * j + 1) = hi := by
  rw [codeAt, codeAt, nibble_even b hj, nibble_odd b hj, h, biased_biased, BitVec.extractLsb'_append_eq_right,
    BitVec.extractLsb'_append_eq_left]
  exact ⟨sx4_codeNibble hlo hlo', sx4_codeNibble hhi hhi'⟩

end

/-- Settles O5: codes and nibbles agree modulo 16, and the bias of a byte is undone by itself. -/
theorem nibblesAndCodesAreInverse : Obligations.NibblesAndCodesAreInverse :=
  ⟨fun n => ⟨(sx4_range _).1, (sx4_range _).2, codeNibble_sx4 n⟩, fun _ => sx4_codeNibble,
    fun b _ _ _ hj hlo hlo' hhi hhi' h => codeAt_of_packed b (Nat.lt_succ_of_lt hj) hlo hlo' hhi hhi' h⟩

/-! ## Outputs (R105, R157) -/

theorem quantize_range (r : Int) : quantize r % 64 = 0 ∧ -32768 ≤ quantize r ∧ quantize r ≤ 32704 := by
  simp only [quantize, clamp16, asr, shl]
  omega

/-- Every output is the quantization of some reconstruction. -/
theorem eq_quantize_of_mem_decodeCodes {c1 c2 : Int} {scale : Nat} {h : Int × Int} {codes : List Int} {o : Int}
    (ho : o ∈ (decodeCodes c1 c2 scale h codes).1) : ∃ r, o = quantize r := by
  induction codes generalizing h with
  | nil => cases ho
  | cons code codes ih =>
    rcases List.mem_cons.1 ho with rfl | ho
    · exact ⟨_, rfl⟩
    · exact ih ho

/-- A block that decodes has a coefficient pair, and its 30 codes are decoded with it. -/
theorem decodeCodes_of_pDecodeBlock {h : Int × Int} {b : Vector Byte 16} {r : List Int × (Int × Int)}
    (hd : pDecodeBlock h b = some r) :
    ∃ c1 c2, r = decodeCodes c1 c2 (scaleOf b) h ((List.range samplesPerPredictiveBlock).map (codeAt b)) := by
  rw [pDecodeBlock] at hd
  split at hd
  · cases hd
  · next c1 c2 _ => cases hd; exact ⟨c1, c2, rfl⟩

/-- Settles O27: one output for each of the 30 codes, each of them quantized. -/
theorem outputsAreMultiplesOf64 : Obligations.OutputsAreMultiplesOf64 := by
  intro h h' b outs hd
  obtain ⟨c1, c2, hr⟩ := decodeCodes_of_pDecodeBlock hd
  obtain rfl : outs = (decodeCodes c1 c2 (scaleOf b) h ((List.range samplesPerPredictiveBlock).map (codeAt b))).1 :=
    congrArg Prod.fst hr
  refine ⟨by simp [decodeCodes_length, samplesPerPredictiveBlock], fun o ho => ?_⟩
  obtain ⟨r, rfl⟩ := eq_quantize_of_mem_decodeCodes ho
  exact quantize_range r

end Sys2Proof.Machine

/-! SUPPORT. The host's moves: one step of an idle or a waiting core, and runs of byte writes and byte reads (00_scope.md R16;
30_encoding.md R122; log 24). -/

namespace Sys2Proof.Machine

/-! ## Who moves -/

/-- With BUSY = 0 a step is the host's; without a program it is the idle step. -/
theorem step_of_idle {s : State} (hf : s.fault = none) (hb : s.busy = false) : step s = hostStep s := by
  have hnc : s.contended = false := by simp [State.contended, State.coreEnabled, hb]
  have hafter : s.afterTurn = s := by simp [State.afterTurn, hnc]
  have hturn : s.turn = if s.hostEnabled then some .host else none := by simp [State.turn, hnc, State.coreEnabled, hb]
  simp only [step, hf, hturn, hafter]
  rcases hs : s.script with _ | ⟨_ | _, ops⟩ <;> simp [State.hostEnabled, hostStep, hs, hb]

/-- With BUSY = 1 and a host that waits, or has no program left, a step is the core's. -/
theorem step_of_busy {s : State} (hf : s.fault = none) (hb : s.busy = true) (hhost : s.hostEnabled = false) :
    step s = coreStep s := by
  have hnc : s.contended = false := by simp [State.contended, hhost]
  have hafter : s.afterTurn = s := by simp [State.afterTurn, hnc]
  have hturn : s.turn = some .core := by simp [State.turn, hnc, State.coreEnabled, hb]
  simp only [step, hf, hturn, hafter]

/-- While the host waits, the core runs the command in LATCH. -/
theorem step_waiting {s : State} {i : Instr} {ops : List HostOp} (hf : s.fault = none) (hb : s.busy = true)
    (hs : s.script = .wait :: ops) (h : decode s.latch = .ok i) : step s = exec i s := by
  have hhost : s.hostEnabled = false := by simp [State.hostEnabled, hs, hb]
  rw [step_of_busy hf hb hhost, coreStep_of_decode h]

section

variable {s : State} (hf : s.fault = none) (hb : s.busy = false) {ops : List HostOp}
include hf hb

theorem step_access {a : Access} (hs : s.script = .access a :: ops) : step s = hostAccess a { s with script := ops } := by
  rw [step_of_idle hf hb, hostStep, hs]

theorem step_wait (hs : s.script = .wait :: ops) : step s = .next { s with script := ops } := by
  rw [step_of_idle hf hb, hostStep, hs]

theorem step_ended (hs : s.script = []) : step s = .next s := by
  rw [step_of_idle hf hb, hostStep, hs]

end

/-- Settles O7: on an idle core a step is the host's next operation. -/
theorem idleCoreLetsTheHostMove : Obligations.IdleCoreLetsTheHostMove :=
  fun _ hf hb => ⟨fun _ _ => step_access hf hb, fun _ => step_wait hf hb, step_ended hf hb⟩

/-! ## Runs -/

theorem SafeRun.refl (s : State) : SafeRun 0 s s := rfl

theorem SafeRun.cons {n : Nat} {s t u : State} (hst : step s = .next t) (htu : SafeRun n t u) : SafeRun (n + 1) s u :=
  (run_next hst).trans htu

section

variable {s : State} (hf : s.fault = none) (hb : s.busy = false) {ops : List HostOp}
include hf hb

/-- `WR32 REG[off], v` on an idle core. -/
theorem step_wrReg {off : Nat} {v : Word} (halign : off % 4 = 0) (hoff : off ≤ 0xFC) (hs : s.script = wrReg off v :: ops) :
    step s = .next (writeReg { s with script := ops } off v) := by
  rw [step_access hf hb hs]
  exact hostAccess_writeReg (s := { s with script := ops }) hb halign hoff v

/-- `WR8 BRAM[a], b` on an idle core. -/
theorem step_wrByte {a : Nat} {b : Byte} (ha : a < s.params.bramSize) (hs : s.script = wrBram 1 a (b.setWidth 32) :: ops) :
    step s = .next { s with bram := Mem.set s.bram a b, script := ops } := by
  have hbyte : bytesOf 1 (b.setWidth 32) = [b] := by
    simp [bytesOf, ← BitVec.setWidth_eq_extractLsb', BitVec.setWidth_setWidth_of_le]
  rw [step_access hf hb hs, hostAccess_bram (s := { s with script := ops }) hb,
    bramAccess_write (.inl rfl) (Nat.mod_one a) (by exact ha), hbyte]
  rfl

/-- `RD8 BRAM[a]` of a written byte on an idle core. -/
theorem step_rdByte {a : Nat} {b : Byte} (ha : a < s.params.bramSize) (hbyte : Mem.get s.bram a = some b)
    (hs : s.script = rdBram 1 a :: ops) : step s = .next { s with script := ops, reads := b.setWidth 32 :: s.reads } := by
  have hrange : Mem.getRange s.bram a 1 = some #v[b] := by simp [Mem.getRange, hbyte]
  have hvalue : BitVec.ofNat 32 (littleEndian [b]) = b.setWidth 32 := by simp [littleEndian]
  rw [step_access hf hb hs, hostAccess_bram (s := { s with script := ops }) hb,
    bramAccess_read_written (s := { s with script := ops }) (.inl rfl) (Nat.mod_one a) ha hrange]
  exact congrArg (fun v => Host.Outcome.next (State.answer { s with script := ops } v)) hvalue

end

/-- `LOADB a, bs` stores the bytes from `a` on, one step each (R122). -/
theorem safeRun_loadb {s : State} {a : Nat} {bs : List Byte} {more : List HostOp} (hf : s.fault = none) (hb : s.busy = false)
    (hs : s.script = loadbOp a bs ++ more) (hfit : a + bs.length ≤ s.params.bramSize) :
    SafeRun bs.length s { s with bram := Mem.setRange s.bram a bs, script := more } := by
  induction bs generalizing s a with
  | nil => rw [← show s.script = more from hs]; exact .refl s
  | cons b bs ih =>
    rw [List.length_cons] at hfit
    exact .cons (step_wrByte hf hb (by omega) hs) (ih (a := a + 1) hf hb rfl (by dsimp only; omega))

/-- Byte reads from `a` on answer the bytes there, one step each, the newest first (log 3, log 24). -/
theorem safeRun_readb {s : State} {a : Nat} {bs : List Byte} {more : List HostOp} (hf : s.fault = none) (hb : s.busy = false)
    (hs : s.script = readbOp a bs.length ++ more) (hfit : a + bs.length ≤ s.params.bramSize)
    (hbytes : ∀ i (h : i < bs.length), Mem.get s.bram (a + i) = some bs[i]) :
    SafeRun bs.length s { s with script := more, reads := (bs.map (·.setWidth 32)).reverse ++ s.reads } := by
  induction bs generalizing s a with
  | nil => rw [← show s.script = more from hs]; exact .refl s
  | cons b bs ih =>
    rw [List.length_cons] at hfit
    have hrest : ∀ i (h : i < bs.length), Mem.get s.bram (a + 1 + i) = some bs[i] := fun i h => by
      rw [Nat.add_assoc, Nat.add_comm 1 i]
      exact hbytes (i + 1) (Nat.succ_lt_succ h)
    have hrun := ih (s := { s with script := readbOp (a + 1) bs.length ++ more, reads := b.setWidth 32 :: s.reads }) (a := a + 1)
      hf hb rfl (by dsimp only; omega) hrest
    rw [List.map_cons, List.reverse_cons, List.append_assoc]
    exact .cons (step_rdByte hf hb (by omega) (hbytes 0 (Nat.succ_pos _)) hs) hrun

/-- The host's last reads are the bytes that it read, in their order. -/
theorem lastReads_of_reads {s : State} {bs : List Byte} {old : List Word}
    (h : s.reads = (bs.map (·.setWidth 32)).reverse ++ old) : s.lastReads bs.length = bs := by
  rw [State.lastReads, h, List.take_left' (by simp), List.reverse_reverse, List.map_map]
  exact List.map_id'' (fun b => by simp) bs

end Sys2Proof.Machine

/-! SUPPORT. The container: the coding byte, the host program that loads a stream, and the one that writes it back (30_encoding.md R110
to R117). -/

namespace Sys2Proof.Machine

/-! ## The coding byte (R113) -/

theorem rateOf_eq_hz32728_iff (cb : Byte) : rateOf cb = some .hz32728 ↔ cb &&& 0x06#8 = 4#8 := by
  rw [rateOf]
  split
  · next h => exact iff_of_true rfl h
  · next h => exact iff_of_false (by split <;> simp) h

theorem rateOf_eq_hz16364_iff (cb : Byte) : rateOf cb = some .hz16364 ↔ cb &&& 0x06#8 = 2#8 := by
  rw [rateOf]
  split
  · next h => simp [h]
  · split <;> simp [*]

theorem codingOf_eq_adaptive_iff (cb : Byte) : codingOf cb = some .adaptive ↔ cb &&& 0xF0#8 = 0x70#8 := by
  rw [codingOf]
  split
  · next h => exact iff_of_true rfl h
  · next h => exact iff_of_false (by split <;> simp) h

theorem codingOf_eq_predictive_iff (cb : Byte) : codingOf cb = some .predictive ↔ cb &&& 0xF0#8 = 0xB0#8 := by
  rw [codingOf]
  split
  · next h => simp [h]
  · split <;> simp [*]

theorem codingOf_ne_none_kind (cb : Byte) : codingOf cb ≠ some .none := by
  rw [codingOf]
  split
  · simp
  · split <;> simp

/-- Masking out bits 0 and 3 leaves both masked fields. -/
theorem rateOf_and_F6 (cb : Byte) : rateOf (cb &&& 0xF6#8) = rateOf cb := by
  have hmask : cb &&& 0xF6#8 &&& 0x06#8 = cb &&& 0x06#8 := BitVec.and_assoc ..
  rw [rateOf, rateOf, hmask]

theorem codingOf_and_F6 (cb : Byte) : codingOf (cb &&& 0xF6#8) = codingOf cb := by
  have hmask : cb &&& 0xF6#8 &&& 0xF0#8 = cb &&& 0xF0#8 := BitVec.and_assoc ..
  rw [codingOf, codingOf, hmask]

/-- Reading a buffer that holds the coding byte and has the right magic comes to the two checks of that byte (R114). -/
theorem readContainer_of_badRate {magic buf : List Byte} (hlen : 0x34 ≤ buf.length) (hmagic : buf.take 4 = magic)
    (hrate : rateOf (byteAt buf 0x33) = none) : readContainer magic buf = .error .unsupportedSampleRate := by
  rw [readContainer, if_neg (by omega), if_neg (not_not.2 hmagic), if_neg (by omega), hrate]

theorem readContainer_of_badCoding {magic buf : List Byte} (hlen : 0x34 ≤ buf.length) (hmagic : buf.take 4 = magic)
    (hrate : rateOf (byteAt buf 0x33) ≠ none) (hcoding : codingOf (byteAt buf 0x33) = none) :
    readContainer magic buf = .error .unsupportedCoding := by
  obtain ⟨r, hr⟩ := Option.ne_none_iff_exists'.1 hrate
  rw [readContainer, if_neg (by omega), if_neg (not_not.2 hmagic), if_neg (by omega), hr, hcoding]

/-- Settles O58: each field is the masked byte compared with its two values. -/
theorem codingByteFields : Obligations.CodingByteFields :=
  ⟨fun cb => ⟨rateOf_eq_hz32728_iff cb, rateOf_eq_hz16364_iff cb, codingOf_eq_adaptive_iff cb, codingOf_eq_predictive_iff cb,
      codingOf_ne_none_kind cb, rfl, rfl, (rateOf_and_F6 cb).symm, (codingOf_and_F6 cb).symm⟩,
    fun _ _ hlen hmagic => ⟨readContainer_of_badRate hlen hmagic, readContainer_of_badCoding hlen hmagic⟩⟩

/-! ## Loading a stream (R112) -/

/-- The CFG word of a stream holds its channel count and its kind. -/
theorem Stream.cfgWord_fields (st : Stream) :
    st.cfgWord.extractLsb' 0 8 = st.channelCount ∧ st.cfgWord.extractLsb' 8 2 = st.kind.bits :=
  ⟨BitVec.extractLsb'_append_eq_right,
    (BitVec.extractLsb'_append_eq_of_le (by decide)).trans BitVec.extractLsb'_append_eq_right⟩

/-- The CFG write of a stream with a kind and a channel count that the core has is accepted. -/
theorem writeCfg_cfgWord {s : State} {st : Stream} (hkind : st.kind ≠ .none) (hpos : 1 ≤ st.channelCount.toNat)
    (hmax : st.channelCount.toNat ≤ s.params.nchMax) :
    writeCfg s st.cfgWord = { s with
      chCount := st.channelCount, kind := st.kind, chv := false, err := false, errCode := .ok, errCh := 0#8, errBlk := 0#32 } := by
  obtain ⟨hcount, hbits⟩ := st.cfgWord_fields
  have hone : st.kind.bits = 1#2 ∨ st.kind.bits = 2#2 := by
    cases hk : st.kind with
    | none => exact absurd hk hkind
    | adaptive => exact .inl rfl
    | predictive => exact .inr rfl
  have hback : (if st.kind.bits = 1#2 then Kind.adaptive else .predictive) = st.kind := by
    cases hk : st.kind with
    | none => exact absurd hk hkind
    | adaptive => rfl
    | predictive => rfl
  have haccept : CfgAccepted s st.cfgWord := by
    rw [CfgAccepted, hcount, hbits]
    exact ⟨hpos, hmax, hone⟩
  rw [writeCfg_of_accepted haccept, hcount, hbits, hback]

/-- The CFG write of a stream on an idle core. -/
theorem step_wrCfg {s : State} {st : Stream} {ops : List HostOp} (hf : s.fault = none) (hb : s.busy = false)
    (hs : s.script = wrReg 0x10 st.cfgWord :: ops) (hkind : st.kind ≠ .none) (hpos : 1 ≤ st.channelCount.toNat)
    (hmax : st.channelCount.toNat ≤ s.params.nchMax) :
    step s = .next { s with
      chCount := st.channelCount, kind := st.kind, chv := false, err := false, errCode := .ok, errCh := 0#8, errBlk := 0#32
      script := ops } :=
  (step_wrReg hf hb rfl (by decide) hs).trans
    (congrArg Host.Outcome.next (writeCfg_cfgWord (s := { s with script := ops }) hkind hpos hmax))

/-- NSAMP is the sample count that the container's formula gives for CFG and RAWLEN (R31, R117). -/
theorem nsamp_eq_samplesIn (s : State) : s.nsamp = samplesIn s.kind s.len s.nch := by
  have hslice : s.sliceLen = s.len / s.nch := by
    rw [State.sliceLen]
    split
    · rfl
    · next h => rw [show s.nch = 0 by omega, Nat.div_zero]
  cases hk : s.kind with
  | none => simp only [State.nsamp, samplesIn, hk]
  | adaptive => simp only [State.nsamp, samplesIn, hk, hslice, Nat.mul_comm]
  | predictive => simp only [State.nsamp, samplesIn, hk, State.nblk, hslice, blockBytes, samplesPerPredictiveBlock, Nat.mul_comm]

/-- What the host program of a stream leaves of an idle core. -/
def State.loadedWith (s : State) (st : Stream) (more : List HostOp) : State :=
  { s with
    chCount := st.channelCount, kind := st.kind, chv := false, err := false, errCode := .ok, errCh := 0#8, errBlk := 0#32
    rawLen := BitVec.ofNat 32 (st.byteSize - 0x100), bram := Mem.setRange s.bram 0 st.data, script := more }

/-- The CFG write, the RAWLEN write and the byte writes of R112, one after the other. -/
theorem safeRun_programCore {s : State} {st : Stream} {more : List HostOp} (hf : s.fault = none) (hb : s.busy = false)
    (hs : s.script = st.programCore ++ more) (hkind : st.kind ≠ .none) (hpos : 1 ≤ st.channelCount.toNat)
    (hmax : st.channelCount.toNat ≤ s.params.nchMax) (hfit : st.data.length ≤ s.params.bramSize) :
    SafeRun (2 + st.data.length) s (s.loadedWith st more) := by
  rw [Nat.add_comm]
  refine .cons (step_wrCfg hf hb hs hkind hpos hmax) (.cons (step_wrReg ?_ ?_ rfl (off := 0x14) (by decide) rfl) ?_)
  · exact hf
  · exact hb
  · exact safeRun_loadb (a := 0) hf hb rfl (by simpa using hfit)

/-- Settles O59: the program's two register writes and its byte writes meet no fault and leave `State.loadedWith`. -/
theorem hostProgramLoadsTheCore : Obligations.HostProgramLoadsTheCore := by
  intro s st more hf hb hs hkind hpos hmax _ hsize _ hfit
  have hlen : (s.loadedWith st more).len = st.byteSize - 0x100 := Nat.mod_eq_of_lt (by omega)
  refine ⟨s.loadedWith st more, ?_, rfl, rfl, hlen, ?_, fun a ha => ?_, fun a ha => ?_, rfl, rfl, rfl, rfl, rfl, rfl⟩
  · exact safeRun_programCore hf hb hs hkind hpos hmax hfit
  · rw [nsamp_eq_samplesIn, hlen]
    rfl
  · have hget := Mem.get_setRange_inside s.bram 0 st.data ha
    rw [Nat.zero_add] at hget
    exact hget
  · exact Mem.get_setRange_outside s.bram 0 st.data (.inr (by omega))

/-! ## Gathering the block data (R116) -/

/-- An INTL that succeeds passed its checks, and wrote the channel arrays back (R132, R134). -/
theorem exec_intl_eq_next {s u : State} (h : exec .intl s = .next u) (herr : u.err = false) :
    s.interleaverUsable = true ∧ s.chv = true ∧ u = { s with bram := interleave s.chb s.bram s.nch s.sliceLen }.complete := by
  rw [exec, execIntl] at h
  split at h
  · next husable =>
    split at h
    · next hchv => cases h; exact ⟨husable, hchv, rfl⟩
    · cases h; cases herr
  · cases h; cases herr

/-- The command word and the host's program do not matter to INTL. -/
theorem exec_intl_issued {s u : State} (h : exec .intl s = .next u) (herr : u.err = false) (w : Word) (ops : List HostOp) :
    exec .intl (writeCmd { s with script := ops } w) = .next { u with latch := w, script := ops } := by
  obtain ⟨husable, hchv, rfl⟩ := exec_intl_eq_next h herr
  exact (if_pos husable).trans (if_pos hchv)

/-- `RUN INTL` on an idle core takes three steps: the CMD write, the command, and the WAIT (R122). -/
theorem safeRun_run_intl {n : Nat} {s u t : State} {ops : List HostOp} (hf : s.fault = none) (hb : s.busy = false)
    (hs : s.script = runOp .intl ++ ops) (h : exec .intl s = .next u) (herr : u.err = false)
    (hrest : SafeRun n { u with latch := encode .intl, script := ops } t) : SafeRun (n + 3) s t := by
  have hu : u.fault = none ∧ u.busy = false := by
    obtain ⟨-, -, rfl⟩ := exec_intl_eq_next h herr
    exact ⟨hf, rfl⟩
  have hdecode : decode (writeCmd { s with script := .wait :: ops } (encode .intl)).latch = .ok .intl := by
    rw [writeCmd_latch]
    exact decode_encode (i := .intl) rfl
  have hcore : step (writeCmd { s with script := .wait :: ops } (encode .intl)) =
      .next { u with latch := encode .intl, script := .wait :: ops } := by
    rw [step_waiting (by exact hf) rfl rfl hdecode, exec_intl_issued h herr]
  have hwait := step_wait (s := { u with latch := encode .intl, script := .wait :: ops }) hu.1 hu.2 rfl
  exact .cons (step_wrReg hf hb (off := 0x00) rfl (by decide) hs) (.cons hcore (.cons hwait hrest))

/-- The host program of R116: INTL, and one read for each byte. -/
theorem safeRun_gather {s u : State} {st : Stream} {bs : List Byte} {more : List HostOp} (hf : s.fault = none) (hb : s.busy = false)
    (hs : s.script = st.gather ++ more) (hsize : st.byteSize = 0x100 + s.len) (h : exec .intl s = .next u) (herr : u.err = false)
    (hlen : bs.length = s.len) (hbytes : ∀ a (h : a < bs.length), Mem.get u.bram a = some bs[a]) :
    SafeRun (3 + s.len) s
      { u with latch := encode .intl, script := more, reads := (bs.map (·.setWidth 32)).reverse ++ u.reads } := by
  obtain ⟨husable, -, hu⟩ := exec_intl_eq_next h herr
  have hreads : st.byteSize - 0x100 = bs.length := by omega
  rw [Stream.gather, hreads, List.append_assoc] at hs
  rw [← hlen, Nat.add_comm]
  refine safeRun_run_intl hf hb hs h herr ?_
  have hfit : bs.length ≤ u.params.bramSize := by
    rw [hlen, exec_params h]
    exact ((interleaverUsable_iff s).1 husable).2
  refine safeRun_readb (s := { u with latch := encode .intl, script := readbOp 0 bs.length ++ more }) (a := 0) ?_ ?_ rfl ?_ ?_
  · rw [hu]; exact hf
  · rw [hu]; rfl
  · simpa using hfit
  · simpa using hbytes

/-! ## Writing what was read (R116) -/

/-- What a buffer that reads as a stream holds. -/
theorem readContainer_eq_stream {magic buf : List Byte} {st : Stream} (h : readContainer magic buf = .stream st) :
    magic = buf.take 4 ∧ 0x100 ≤ st.byteSize ∧ st.byteSize ≤ buf.length ∧
    rateOf (byteAt buf 0x33) = some st.rate ∧ codingOf (byteAt buf 0x33) = some st.kind ∧
    st.header = buf.take 0x100 ∧ st.loopFlag = byteAt buf 0x31 ∧ st.channelCount = byteAt buf 0x32 ∧
    st.data = (buf.take st.byteSize).drop 0x100 := by
  rw [readContainer] at h
  split at h
  · cases h
  split at h
  · cases h
  next hmagic =>
  split at h
  · cases h
  split at h
  · cases h
  · cases h
  next r k hrate hcoding =>
  dsimp only at h
  split at h
  · cases h
  split at h
  · cases h
  next hlong =>
  split at h
  · cases h
  next hshort =>
  cases h
  exact ⟨(not_not.1 hmagic).symm, Nat.le_of_not_lt hshort, Nat.le_of_not_lt hlong, hrate, hcoding, rfl, rfl, rfl, rfl⟩

/-- A byte that reads as a rate and a kind is put together again from them and its bits 0 and 3 (decision D32). -/
theorem codingByte_of_fields {cb : Byte} {r : Rate} {k : Kind} (hr : rateOf cb = some r) (hk : codingOf cb = some k) :
    codingByte cb r k = cb := by
  have hsplit : cb &&& 0x09#8 ||| cb &&& 0x06#8 ||| cb &&& 0xF0#8 = cb := by
    rw [← BitVec.and_or_distrib_left, ← BitVec.and_or_distrib_left]
    exact BitVec.and_allOnes
  unfold codingByte
  conv_rhs => rw [← hsplit]
  congr 2
  · cases r with
    | hz32728 => exact ((rateOf_eq_hz32728_iff cb).1 hr).symm
    | hz16364 => exact ((rateOf_eq_hz16364_iff cb).1 hr).symm
  · cases k with
    | none => exact absurd hk (codingOf_ne_none_kind cb)
    | adaptive => exact ((codingOf_eq_adaptive_iff cb).1 hk).symm
    | predictive => exact ((codingOf_eq_predictive_iff cb).1 hk).symm

/-- The header holds the bytes of the buffer, and storing one of its own bytes changes nothing. -/
theorem byteAt_take {buf : List Byte} {n off : Nat} (h : off < n) : byteAt (buf.take n) off = byteAt buf off := by
  simp [byteAt, List.getD_eq_getElem?_getD, h]

theorem set_byteAt (buf : List Byte) (off : Nat) : buf.set off (byteAt buf off) = buf := by
  rcases Nat.lt_or_ge off buf.length with h | h
  · simp [byteAt, h]
  · exact List.set_eq_of_length_le h

/-- Writing a stream that was read gives the container again. -/
theorem writeContainer_of_readContainer {magic buf : List Byte} {st : Stream} (h : readContainer magic buf = .stream st) :
    writeContainer magic st st.data = buf.take st.byteSize := by
  obtain ⟨hmagic, hshort, -, hrate, hcoding, hheader, hloop, hcount, hdata⟩ := readContainer_eq_stream h
  have hmagic' : magic ++ st.header.drop 4 = buf.take 0x100 := by
    have htag : buf.take 4 = (buf.take 0x100).take 4 := by rw [List.take_take]; rfl
    rw [hmagic, hheader, htag, List.take_append_drop]
  have hcb : codingByte (byteAt st.header 0x33) st.rate st.kind = byteAt buf 0x33 := by
    rw [hheader, byteAt_take (by decide), codingByte_of_fields hrate hcoding]
  have hset {off : Nat} (hoff : off < 0x100) : (buf.take 0x100).set off (byteAt buf off) = buf.take 0x100 := by
    rw [← byteAt_take hoff, set_byteAt]
  have hhead : buf.take 0x100 = (buf.take st.byteSize).take 0x100 := by rw [List.take_take, Nat.min_eq_left hshort]
  simp only [writeContainer, hmagic', hcb, hloop, hcount, hset (off := 0x31) (by decide), hset (off := 0x32) (by decide),
    hset (off := 0x33) (by decide)]
  rw [hdata, hhead, List.take_append_drop]

/-- Settles O60: the host's last reads are BRAM as INTL has left it, and `write` stores in the header what `read` found there. -/
theorem containerWriteUndoesRead : Obligations.ContainerWriteUndoesRead := by
  refine ⟨?_, fun _ _ _ => writeContainer_of_readContainer⟩
  intro s u st magic bs more hf hb hs hsize h herr hlen hbytes
  have hreads : st.byteSize - 0x100 = bs.length := by omega
  exact ⟨_, safeRun_gather hf hb hs hsize h herr hlen hbytes, by rw [Stream.write, hreads, lastReads_of_reads rfl], rfl⟩

end Sys2Proof.Machine

/-! SUPPORT. The words of the commands without operands: each has one word, and every other word with its OP is illegal (30_encoding.md
R91, R92). -/

namespace Sys2Proof

/-- A command is decoded from its own word only. -/
theorem decode_eq_ok_iff {i : Instr} (h : i.wf = true) (w : Word) : decode w = .ok i ↔ w = encode i :=
  ⟨fun hw => (encode_of_decode hw).2.symm, fun hw => hw ▸ decode_encode h⟩

/-- With an OP that takes no operands, a word is illegal unless RSV, CH and COUNT are all 0. -/
theorem decode_isError_of_ne_commandWord {w : Word} {op : BitVec 4} (hop : opField w = op) (hnone : op.toNat ≤ 3)
    (hne : w ≠ commandWord 0#16 0#8 op) : ∃ e, decode w = .error e := by
  by_contra hlegal
  rw [decode_isError_iff, hop] at hlegal
  push Not at hlegal
  obtain ⟨-, hrsv, hoperands⟩ := hlegal
  obtain ⟨hch, hcount⟩ := hoperands hnone
  have hw := commandWord_fields hrsv
  rw [hop, hch, hcount] at hw
  exact hne hw.symm

/-- A word with such an OP that is not the command's own word ends as ILLEGAL_CMD (R92, R261). -/
theorem coreStep_of_ne_commandWord {s : Machine.State} {op : BitVec 4} (hnone : op.toNat ≤ 3) (w : Word) (hop : opField w = op)
    (hne : w ≠ commandWord 0#16 0#8 op) (hlatch : s.latch = w) : Machine.coreStep s = .next s.illegalCommand := by
  subst hlatch
  exact coreStep_of_illegal (decode_isError_of_ne_commandWord hop hnone hne)

end Sys2Proof

/-! SUPPORT. The interleaver: how DEINTL and INTL complete, and that each undoes the other (40_interleaver.md R132 to R137). -/

namespace Sys2Proof.Machine

/-! ## How DEINTL and INTL complete -/

section

variable {s : State}

theorem exec_deintl_of_usable (husable : s.interleaverUsable = true) :
    exec .deintl s = .next { s with chb := deinterleave s.bram s.nch s.sliceLen, chv := true }.complete := if_pos husable

theorem exec_deintl_of_unusable (h : ¬ s.interleaverUsable = true) :
    exec .deintl s = .next (s.errorCompletion (.plain .configError)) := if_neg h

theorem exec_intl_of_ready (husable : s.interleaverUsable = true) (hchv : s.chv = true) :
    exec .intl s = .next { s with bram := interleave s.chb s.bram s.nch s.sliceLen }.complete :=
  (if_pos husable).trans (if_pos hchv)

theorem exec_intl_of_not_ready (husable : s.interleaverUsable = true) (hchv : s.chv = false) :
    exec .intl s = .next (s.errorCompletion (.plain .notReady)) :=
  (if_pos husable).trans (if_neg (Bool.eq_false_iff.1 hchv))

theorem exec_intl_of_unusable (h : ¬ s.interleaverUsable = true) :
    exec .intl s = .next (s.errorCompletion (.plain .configError)) := if_neg h

end

/-- Settles O18: the core's step is the latched command, whose checks are those of R132 and do not read KIND. -/
theorem interleaverChecksRunInOrder : Obligations.InterleaverChecksRunInOrder := by
  intro s
  refine ⟨coreStep_of_illegal, fun hcmd hbad => ?_, fun hintl hgood hchv => ?_, fun k hgood => ?_⟩
  · have hunusable := mt (interleaverUsable_iff s).1 hbad
    obtain hdeintl | hintl := hcmd
    · rw [coreStep_of_decode hdeintl, exec_deintl_of_unusable hunusable]
    · rw [coreStep_of_decode hintl, exec_intl_of_unusable hunusable]
  · rw [coreStep_of_decode hintl, exec_intl_of_not_ready ((interleaverUsable_iff s).2 hgood) hchv]
  · have husable : State.interleaverUsable { s with kind := k } = true := (interleaverUsable_iff _).2 hgood
    exact ⟨⟨_, exec_deintl_of_usable husable, rfl⟩, fun hchv => ⟨_, exec_intl_of_ready husable hchv, rfl⟩⟩

/-! ## DEINTL and INTL cell by cell -/

theorem sliceLen_of_pos {s : State} (h : 1 ≤ s.nch) : s.sliceLen = s.len / s.nch := if_pos h

/-- Settles O21: CHB becomes the slices of BRAM, and DEINTL is spelled by the word 2 alone. -/
theorem deintlCopiesEachSlice : Obligations.DeintlCopiesEachSlice := by
  intro s
  refine ⟨fun hnch hlen => ?_, fun hbad => exec_deintl_of_unusable (mt (interleaverUsable_iff s).1 hbad),
    decode_eq_ok_iff (i := .deintl) rfl, coreStep_of_ne_commandWord (op := 2#4) (by decide)⟩
  rw [← sliceLen_of_pos hnch]
  exact ⟨_, exec_deintl_of_usable ((interleaverUsable_iff s).2 ⟨hnch, hlen⟩), fun c hc j hj => get_deinterleave s.bram hc hj, rfl⟩

/-- Settles O22: BRAM becomes the channel arrays in their slices, followed by its own tail, and INTL is spelled by the word 3 alone. -/
theorem intlWritesEachSliceBack : Obligations.IntlWritesEachSliceBack := by
  intro s
  refine ⟨fun hnch hlen hchv => ?_, fun hbad => exec_intl_of_unusable (mt (interleaverUsable_iff s).1 hbad),
    fun hnch hlen => exec_intl_of_not_ready ((interleaverUsable_iff s).2 ⟨hnch, hlen⟩),
    decode_eq_ok_iff (i := .intl) rfl, coreStep_of_ne_commandWord (op := 3#4) (by decide)⟩
  rw [← sliceLen_of_pos hnch]
  exact ⟨_, exec_intl_of_ready ((interleaverUsable_iff s).2 ⟨hnch, hlen⟩) hchv,
    fun c hc j hj => get_interleave_inside s.chb s.bram hc hj, fun a ha => get_interleave_tail s.chb s.bram ha, rfl⟩

/-! ## The two images undo each other -/

/-- Putting the slices of a memory back where they were taken from changes nothing (R135). -/
theorem interleave_deinterleave {bram : Mem 8} (hbram : Mem.wf bram = true) (n len : Nat) :
    interleave (deinterleave bram n len) bram n len = bram := by
  refine Mem.ext (wf_interleave hbram (wf_deinterleave hbram n len) n len) hbram fun a => ?_
  rcases Nat.lt_or_ge a (n * len) with hslice | htail
  · have hlen : 0 < len := Nat.pos_of_mul_pos_left (Nat.zero_lt_of_lt hslice)
    have hc : a / len < n := Nat.div_lt_of_lt_mul (Nat.mul_comm n len ▸ hslice)
    have hj : a % len < len := Nat.mod_lt a hlen
    rw [← Nat.div_add_mod' a len, get_interleave_inside _ _ hc hj, get_deinterleave bram hc hj]
  · exact get_interleave_tail _ bram htail

/-- The slices of the image of channel arrays are these arrays (R136). -/
theorem deinterleave_interleave {chb : List (Mem 8)} {bram : Mem 8} {n len : Nat} (hbram : Mem.wf bram = true)
    (hform : ∀ m ∈ chb, Mem.wf m = true) (hshape : chb.length = n) (hsize : ∀ m ∈ chb, Mem.below m len = true) :
    deinterleave (interleave chb bram n len) n len = chb := by
  refine List.ext_getElem ((deinterleave_length _ n len).trans hshape.symm) fun c hc hc' => ?_
  have hmem : chb[c] ∈ chb := List.getElem_mem hc'
  have hcn : c < n := hshape ▸ hc'
  have hslice : (deinterleave (interleave chb bram n len) n len)[c] = Mem.slice (interleave chb bram n len) (c * len) len := by
    rw [← deinterleave_getD _ _ hcn, List.getD_eq_getElem _ _ hc]
  rw [hslice]
  refine Mem.ext (Mem.wf_slice (wf_interleave hbram hform n len) _ _) (hform _ hmem) fun j => ?_
  rw [Mem.get_slice]
  split
  · next hj => rw [get_interleave_inside _ _ hcn hj, List.getD_eq_getElem _ _ hc']
  · next hj => exact (Mem.get_of_below (hsize _ hmem) (Nat.le_of_not_lt hj)).symm

/-- Settles O24: the invariant gives CHB the shape (C, S), in which the slices of the written image are the arrays again. -/
theorem intlThenDeintlKeepsChannels : Obligations.IntlThenDeintlKeepsChannels := by
  intro s hs hchv
  obtain ⟨husable, hshape, hsize⟩ := hs.image hchv
  exact ⟨_, _, exec_intl_of_ready husable hchv, exec_deintl_of_usable husable, rfl,
    deinterleave_interleave hs.bramForm hs.chbForm hshape hsize⟩

/-! ## DEC commands between DEINTL and INTL -/

theorem execAll_cons_eq_next {i : Instr} {is : List Instr} {s u : State} (h : execAll (i :: is) s = .next u) :
    ∃ t, exec i s = .next t ∧ execAll is t = .next u := by
  rw [execAll] at h
  split at h
  · next t ht => exact ⟨t, ht, h⟩
  · cases h
  · cases h

/-- A DEC writes channel slots, SRAM and its status, and nothing else, whether it succeeds or not (R236, R237). -/
theorem exec_dec_frame {sel : ChanSel} {cnt : Count} {s t : State} (h : exec (.dec sel cnt) s = .next t) :
    t = { s with ch := t.ch, sram := t.sram, busy := t.busy, err := t.err, errCode := t.errCode, errCh := t.errCh,
                 errBlk := t.errBlk } := by
  rcases codecCommand_eq_next (f := decBlock) h with ⟨plan, u, -, hdec, rfl⟩ | ⟨e, rfl, -⟩
  · rw [decChannels_frame hdec]; rfl
  · rfl

/-- INTL succeeds from `s` and leaves the BRAM image `image`. -/
def State.WritesBack (s : State) (image : Mem 8) : Prop := ∃ v, exec .intl s = .next v ∧ v.err = false ∧ v.bram = image

/-- A DEC changes nothing that INTL reads (R137). -/
theorem State.WritesBack.exec_dec {s t : State} {image : Mem 8} {sel : ChanSel} {cnt : Count} (hs : s.WritesBack image)
    (h : exec (.dec sel cnt) s = .next t) : t.WritesBack image := by
  obtain ⟨v, hv, herr, rfl⟩ := hs
  obtain ⟨husable, hchv, rfl⟩ := exec_intl_eq_next hv herr
  rw [exec_dec_frame h]
  exact ⟨_, exec_intl_of_ready husable hchv, rfl, rfl⟩

theorem State.WritesBack.execAll_dec {image : Mem 8} {decs : List Instr} (hdecs : ∀ i ∈ decs, ∃ sel cnt, i = .dec sel cnt) :
    ∀ {t u : State}, t.WritesBack image → execAll decs t = .next u → u.WritesBack image := by
  induction decs with
  | nil => rintro t u ht ⟨⟩; exact ht
  | cons i is ih =>
    intro t u ht h
    obtain ⟨⟨sel, cnt, rfl⟩, hrest⟩ := List.forall_mem_cons.1 hdecs
    obtain ⟨t', hdec, hmore⟩ := execAll_cons_eq_next h
    exact ih hrest (ht.exec_dec hdec) hmore

/-- Settles O23: INTL would restore BRAM right after DEINTL, and each DEC leaves it so. -/
theorem unmodifiedStreamRoundTrips : Obligations.UnmodifiedStreamRoundTrips := by
  intro s t u decs hbram hnch hlen hdecs hdeintl hrun
  have husable := (interleaverUsable_iff s).2 ⟨hnch, hlen⟩
  have ht : t.WritesBack s.bram := by
    rw [exec_deintl_of_usable husable] at hdeintl
    cases hdeintl
    exact ⟨_, exec_intl_of_ready husable rfl, rfl, interleave_deinterleave hbram _ _⟩
  exact ht.execAll_dec hdecs hrun

end Sys2Proof.Machine

/-! SUPPORT. The predictive decoder: what decides whether a block decodes, the ranges of R153 to R155, and silence
(41_predictive_decode.md R150 to R162; 42_predictive_encode.md R195). -/

namespace Sys2Proof.Machine

/-! ## The header and the coefficient table (R101, R150, R152) -/

theorem scaleOf_eq_mod (b : Vector Byte 16) : scaleOf b = (headerOf b).toNat % 16 := by
  rw [scaleOf, BitVec.extractLsb'_toNat, Nat.shiftRight_zero]

theorem coefIndexOf_eq_div (b : Vector Byte 16) : coefIndexOf b = (headerOf b).toNat / 16 := by
  have hbyte := (headerOf b).isLt
  simp only [coefIndexOf, BitVec.extractLsb'_toNat, Nat.shiftRight_eq_div_pow]
  omega

/-- COEF is the list of R150, and an index past it selects nothing. -/
theorem coefficients_eq_getElem? (ci : Nat) :
    coefficients ci = [((0 : Int), (0 : Int)), (60, 0), (115, -52), (98, -55), (122, -60)][ci]? := by
  match ci with
  | 0 | 1 | 2 | 3 | 4 | _ + 5 => rfl

theorem coefficients_eq_none_iff (ci : Nat) : coefficients ci = none ↔ 4 < ci := by
  rw [coefficients_eq_getElem?, List.getElem?_eq_none_iff]
  exact Nat.succ_le_iff

/-- A block decodes as its coefficient pair says; its scale is not looked at. -/
theorem pDecodeBlock_eq_map (h : Int × Int) (b : Vector Byte 16) :
    pDecodeBlock h b = (coefficients (coefIndexOf b)).map fun p =>
      decodeCodes p.1 p.2 (scaleOf b) h ((List.range samplesPerPredictiveBlock).map (codeAt b)) := by
  rw [pDecodeBlock]
  rcases coefficients (coefIndexOf b) with _ | ⟨c1, c2⟩ <;> rfl

/-- Settles O25: the header's nibbles are its quotient and remainder by 16, and only the table lookup can fail. -/
theorem decodeFailsOnBadIndexOnly : Obligations.DecodeFailsOnBadIndexOnly := by
  intro h b
  refine ⟨scaleOf_eq_mod b, coefIndexOf_eq_div b, ?_, fun c1 c2 hpair => ?_⟩
  · rw [pDecodeBlock_eq_map, Option.map_eq_none_iff, coefficients_eq_none_iff]
  · rw [pDecodeBlock_eq_map, coefficients_eq_getElem?, hpair]
    rfl

/-! ## The prediction, the reconstruction and the history (R153 to R155) -/

/-- Each pair of COEF keeps the weighted sum of a history in range within its bounds. -/
theorem predict_range {ci : Nat} {c1 c2 : Int} {h : Int × Int} (hc : coefficients ci = some (c1, c2)) (hh : InRange h) :
    -93183 ≤ predict c1 c2 h ∧ predict c1 c2 h ≤ 93182 := by
  obtain ⟨h0, h0', h1, h1'⟩ := hh
  have hpair := List.mem_of_getElem? ((coefficients_eq_getElem? ci).symm.trans hc)
  simp only [List.mem_cons, List.not_mem_nil, or_false, Prod.mk.injEq] at hpair
  simp only [predict, asr]
  rcases hpair with ⟨rfl, rfl⟩ | ⟨rfl, rfl⟩ | ⟨rfl, rfl⟩ | ⟨rfl, rfl⟩ | ⟨rfl, rfl⟩ <;> omega

/-- A shifted code is furthest from 0 at the extreme codes and the largest shift. -/
theorem shl_code_range {code : Int} {k n : Nat} (hcode : -8 ≤ code) (hcode' : code ≤ 7) (hk : k ≤ n) :
    -8 * 2 ^ n ≤ shl code k ∧ shl code k ≤ 7 * 2 ^ n := by
  have hpos : (0 : Int) ≤ 2 ^ k := by positivity
  have hpow : (2 : Int) ^ k ≤ 2 ^ n := pow_le_pow_right₀ (by decide) hk
  have hlow : -8 * 2 ^ k ≤ code * 2 ^ k := mul_le_mul_of_nonneg_right hcode hpos
  have hhigh : code * 2 ^ k ≤ 7 * 2 ^ k := mul_le_mul_of_nonneg_right hcode' hpos
  rw [shl]
  omega

/-- Settles O26: the reconstruction is the prediction and a code shifted by at most 21. -/
theorem predictionAndReconstructionRanges : Obligations.PredictionAndReconstructionRanges := by
  intro ci scale c1 c2 h0 h1 code hc hscale h0lo h0hi h1lo h1hi hcode hcode'
  obtain ⟨hpred, hpred'⟩ := predict_range hc (h := (h0, h1)) ⟨h0lo, h0hi, h1lo, h1hi⟩
  obtain ⟨hshl, hshl'⟩ := shl_code_range hcode hcode' (show 6 + scale ≤ 21 by omega)
  refine ⟨hpred, hpred', ?_, ?_⟩ <;> rw [reconstruct] <;> omega

theorem wrap16_sub_emod (v : Int) : (wrap16 v - v) % 65536 = 0 := by
  rw [wrap16]
  omega

/-- Settles O28: each code leaves a history of reduced values. -/
theorem historyStaysIn16Bits : Obligations.HistoryStaysIn16Bits :=
  ⟨fun v => ⟨(wrap16_range v).1, (wrap16_range v).2, wrap16_sub_emod v⟩,
    fun c1 c2 scale _ codes h0 h0' h1 h1' => decodeCodes_inRange c1 c2 scale ⟨h0, h0', h1, h1'⟩ codes⟩

/-! ## Silence (R162, R195)

With the pair (0, 0) the prediction is 0 whatever the history, so that the code 0 reconstructs 0 and the history is pushed out
by zeros. -/

/-- The history after `n` reconstructions of 0. -/
def silentHistory (n : Nat) (h : Int × Int) : Int × Int := (fun g => pushHistory g 0)^[n] h

theorem silentHistory_succ (n : Nat) (h : Int × Int) : silentHistory (n + 1) h = silentHistory n (pushHistory h 0) := rfl

/-- Two zeros fill the history, and more of them keep it. -/
theorem silentHistory_add_two (n : Nat) (h : Int × Int) : silentHistory (n + 2) h = (0, 0) :=
  Function.iterate_fixed (x := ((0 : Int), (0 : Int))) (by decide) n

theorem predict_zero (h : Int × Int) : predict 0 0 h = 0 := by
  simp [predict, asr]

theorem reconstruct_zero (scale : Nat) : reconstruct 0 0 scale = 0 := by
  simp [reconstruct, shl]

theorem decodeCodes_silence (scale n : Nat) (h : Int × Int) :
    decodeCodes 0 0 scale h (List.replicate n 0) = (List.replicate n 0, silentHistory n h) := by
  induction n generalizing h with
  | zero => rfl
  | succ n ih =>
    rw [List.replicate_succ, decodeCodes, predict_zero, reconstruct_zero, ih, silentHistory_succ, show quantize 0 = 0 by decide]

theorem encodeSample_silence (scale : Nat) (h : Int × Int) :
    encodeSample 0 h 0 0 scale = { code := 0, out := 0, hist := pushHistory h 0 } := by
  have hscaled : asr (shl 0 6 - 0) (scale + 6) = 0 := by simp [asr, shl]
  simp only [encodeSample, predict_zero, hscaled, show sx4 (low4 0) = 0 by decide, reconstruct_zero,
    show quantize 0 = 0 by decide]

/-- A trial with the pair (0, 0) encodes silence as codes and outputs 0, without error. -/
theorem Trial.run_silence (n : Nat) (t : Trial) :
    Trial.run 0 0 none t (List.replicate n 0) =
      some { t with codes := t.codes ++ List.replicate n 0, outs := t.outs ++ List.replicate n 0, hist := silentHistory n t.hist } := by
  induction n generalizing t with
  | zero => simp [Trial.run, silentHistory]
  | succ n ih =>
    rw [List.replicate_succ, Trial.run, encodeSample_silence]
    simp [Trial.pruned, ih, Trial.add, silentHistory_succ]

/-- The trial of silence with coefficient index 0 and scale 0. -/
def silentTrial : Trial :=
  { ci := 0, sc := 0, codes := List.replicate 30 0, outs := List.replicate 30 0, total := 0, hist := (0, 0) }

theorem tryCandidate_silence (h : Int × Int) : tryCandidate h (List.replicate 30 0) none (0, 0) = some silentTrial := by
  have hrun := Trial.run_silence 30 (Trial.start 0 0 h)
  rwa [silentHistory_add_two 28] at hrun

theorem padded_silence {n : Nat} (hn : n ≤ 30) : padded (List.replicate n 0) = List.replicate 30 0 := by
  rw [padded, List.length_replicate, List.replicate_append_replicate, samplesPerPredictiveBlock, Nat.add_sub_cancel' hn]

/-- The first candidate has total 0 and ends the search (R188). -/
theorem winner_silence (h : Int × Int) {n : Nat} (hn : n ≤ 30) : winner h (List.replicate n 0) = silentTrial := by
  have hfirst : candidates = (0, 0) :: candidates.tail := by decide
  rw [winner, padded_silence hn, hfirst, searchFrom, tryCandidate_silence]
  rfl

theorem pDecodeBlock_zeroBlock (h : Int × Int) :
    pDecodeBlock h (Vector.replicate 16 0x80#8) = some (List.replicate 30 0, (0, 0)) := by
  have hpair : coefficients (coefIndexOf (Vector.replicate 16 0x80#8)) = some (0, 0) := by decide
  have hcodes : (List.range samplesPerPredictiveBlock).map (codeAt (Vector.replicate 16 0x80#8)) = List.replicate 30 0 := by
    decide
  rw [pDecodeBlock_eq_map, hpair, Option.map_some, hcodes, decodeCodes_silence, silentHistory_add_two 28]

/-- Settles O32: the zero block holds the pair (0, 0) and codes 0, and it is the packed trial of silence. -/
theorem zeroBlockIsSilence : Obligations.ZeroBlockIsSilence := by
  refine ⟨pDecodeBlock_zeroBlock, fun h n hn => ?_⟩
  have hblock : packBlock silentTrial = Vector.replicate 16 0x80#8 := by decide
  simp only [pEncodeBlock, winner_silence h hn, hblock]
  rfl

end Sys2Proof.Machine

/-! SUPPORT. The predictive encoder: a trial in closed form, the pruned search as the arg-min of all unpruned trials, and the block of the
winner read back (42_predictive_encode.md R181 to R194). -/

namespace Sys2Proof.Machine

/-! ## A trial in closed form (R181 to R184, R187) -/

/-- The codes that the encoder chooses for a list of samples. -/
def encodeCodes (c1 c2 : Int) (scale : Nat) (h : Int × Int) : List Int → List Int
  | [] => []
  | x :: xs =>
    let r := encodeSample x h c1 c2 scale
    r.code :: encodeCodes c1 c2 scale r.hist xs

theorem encodeCodes_length (c1 c2 : Int) (scale : Nat) (h : Int × Int) (xs : List Int) :
    (encodeCodes c1 c2 scale h xs).length = xs.length := by
  induction xs generalizing h with
  | nil => rfl
  | cons x xs ih => simp [encodeCodes, ih]

theorem encodeCodes_range {c1 c2 : Int} {scale : Nat} {h : Int × Int} {xs : List Int} {k : Int}
    (hk : k ∈ encodeCodes c1 c2 scale h xs) : -8 ≤ k ∧ k ≤ 7 := by
  induction xs generalizing h with
  | nil => cases hk
  | cons x xs ih =>
    rcases List.mem_cons.1 hk with rfl | hk
    · exact sx4_range _
    · exact ih hk

/-- The encoder reconstructs as the decoder does: a sample's code decodes to its output and its history. -/
theorem decodeCodes_encodeSample (x c1 c2 : Int) (scale : Nat) (h : Int × Int) (codes : List Int) :
    decodeCodes c1 c2 scale h ((encodeSample x h c1 c2 scale).code :: codes) =
      ((encodeSample x h c1 c2 scale).out :: (decodeCodes c1 c2 scale (encodeSample x h c1 c2 scale).hist codes).1,
        (decodeCodes c1 c2 scale (encodeSample x h c1 c2 scale).hist codes).2) := rfl

/-- A trial after some more samples, in terms of the decoder: its outputs, errors and history are those of its decoded codes. -/
def Trial.after (c1 c2 : Int) (t : Trial) (xs : List Int) : Trial :=
  let codes := encodeCodes c1 c2 t.sc t.hist xs
  let decoded := decodeCodes c1 c2 t.sc t.hist codes
  { t with
    codes := t.codes ++ codes
    outs := t.outs ++ decoded.1
    total := t.total + (xs.zipWith (fun x o => (x - o).natAbs) decoded.1).sum
    hist := decoded.2 }

theorem Trial.after_nil (c1 c2 : Int) (t : Trial) : t.after c1 c2 [] = t := by
  simp [Trial.after, encodeCodes, decodeCodes]

theorem Trial.after_cons (c1 c2 : Int) (t : Trial) (x : Int) (xs : List Int) :
    t.after c1 c2 (x :: xs) = (t.add x (encodeSample x t.hist c1 c2 t.sc)).after c1 c2 xs := by
  simp [Trial.after, Trial.add, encodeCodes, decodeCodes_encodeSample, Nat.add_assoc]

/-- Errors are not negative, so a trial that is pruned stays above the best total. -/
theorem Trial.pruned_after {t : Trial} {best : Option Trial} (h : t.pruned best = true) (c1 c2 : Int) (xs : List Int) :
    (t.after c1 c2 xs).pruned best = true := by
  cases best with
  | none => exact h
  | some b => exact decide_eq_true (Nat.lt_add_right _ (of_decide_eq_true h))

/-- Whether a trial completes shows in its total alone. -/
theorem Trial.run_eq_ite {t : Trial} {best : Option Trial} (h : t.pruned best = false) (c1 c2 : Int) (xs : List Int) :
    Trial.run c1 c2 best t xs = if (t.after c1 c2 xs).pruned best then none else some (t.after c1 c2 xs) := by
  induction xs generalizing t with
  | nil => simp [Trial.run, Trial.after_nil, h]
  | cons x xs ih =>
    rw [Trial.run, Trial.after_cons]
    cases hp : (t.add x (encodeSample x t.hist c1 c2 t.sc)).pruned best with
    | true => simp [Trial.pruned_after hp]
    | false => simpa using ih hp

theorem Trial.start_not_pruned (ci sc : Nat) (h : Int × Int) (best : Option Trial) : (Trial.start ci sc h).pruned best = false := by
  cases best with
  | none => rfl
  | some b => exact decide_eq_false (Nat.not_lt_zero b.total)

/-! ## One candidate -/

/-- The unpruned trial of a candidate, for each coefficient index of the table. -/
theorem tryCandidate_unpruned (h : Int × Int) (xs : List Int) (cand : Nat × Nat) :
    tryCandidate h xs none cand =
      (coefficients cand.1).map fun p => (Trial.start cand.1 cand.2 h).after p.1 p.2 xs := by
  rw [tryCandidate]
  rcases coefficients cand.1 with _ | ⟨c1, c2⟩
  · rfl
  · exact Trial.run_eq_ite rfl c1 c2 xs

/-- Pruning drops a trial or leaves it as it is without pruning. -/
theorem tryCandidate_eq_filter (h : Int × Int) (xs : List Int) (best : Option Trial) (cand : Nat × Nat) :
    tryCandidate h xs best cand = (tryCandidate h xs none cand).filter fun t => !t.pruned best := by
  rw [tryCandidate_unpruned, tryCandidate]
  rcases coefficients cand.1 with _ | ⟨c1, c2⟩
  · rfl
  · simp only [Trial.run_eq_ite (Trial.start_not_pruned _ _ _ _), Option.map_some, Option.filter_some]
    cases ((Trial.start cand.1 cand.2 h).after c1 c2 xs).pruned best <;> rfl

/-! ## The search (R185 to R188, R192)

The exhaustive search folds `List.argAux`, the step of Mathlib's `List.argmin`, over all unpruned trials. -/

theorem argAux_eq_better (best : Option Trial) (t : Trial) :
    List.argAux (fun a b : Trial => a.total < b.total) best t = some (better best t) := by
  cases best with
  | none => rfl
  | some b => exact (apply_ite some _ _ _).symm

theorem better_total_le (best : Option Trial) (t : Trial) : (better best t).total ≤ t.total := by
  cases best with
  | none => exact le_rfl
  | some b => rw [better]; split <;> omega

/-- A pruned trial would not have become the best. -/
theorem better_of_pruned {b t : Trial} (h : t.pruned (some b) = true) : better (some b) t = b :=
  if_neg (Nat.lt_asymm (of_decide_eq_true h))

/-- No trial is better than one with total 0. -/
theorem foldl_argAux_of_total_eq_zero {b : Trial} (h : b.total = 0) (ts : List Trial) :
    ts.foldl (List.argAux fun a b : Trial => a.total < b.total) (some b) = some b := by
  induction ts with
  | nil => rfl
  | cons t ts ih =>
    have hkeep : better (some b) t = b := if_neg (by omega)
    rw [List.foldl_cons, argAux_eq_better, hkeep, ih]

/-- The pruning and the stop at 0 change nothing: the search is the exhaustive one. -/
theorem searchFrom_eq_foldl (h : Int × Int) (xs : List Int) (best : Option Trial) (cands : List (Nat × Nat)) :
    searchFrom h xs best cands =
      (cands.filterMap (tryCandidate h xs none)).foldl (List.argAux fun a b : Trial => a.total < b.total) best := by
  induction cands generalizing best with
  | nil => rfl
  | cons cand cands ih =>
    rw [searchFrom, tryCandidate_eq_filter, List.filterMap_cons]
    rcases tryCandidate h xs none cand with _ | t
    · exact ih best
    · rw [List.foldl_cons, argAux_eq_better]
      cases hp : t.pruned best with
      | true =>
        rcases best with _ | b
        · cases hp
        · simp only [Option.filter_some, hp, better_of_pruned hp]
          exact ih (some b)
      | false =>
        simp only [Option.filter_some, hp, Bool.not_false, if_true]
        split
        · next hzero =>
          have hbest : (better best t).total = 0 := Nat.le_zero.1 (hzero ▸ better_total_le best t)
          exact (foldl_argAux_of_total_eq_zero hbest _).symm
        · exact ih _

theorem mem_candidates {cand : Nat × Nat} : cand ∈ candidates ↔ cand.1 < 5 ∧ cand.2 < 12 := by
  obtain ⟨ci, sc⟩ := cand
  simp [candidates]

/-- The unpruned trials of the 60 candidates, in the order of R185. -/
def trials (h : Int × Int) (xs : List Int) : List Trial := candidates.filterMap (tryCandidate h (padded xs) none)

/-- Each candidate has its trial. -/
theorem map_some_trials (h : Int × Int) (xs : List Int) :
    (trials h xs).map some = candidates.map (tryCandidate h (padded xs) none) := by
  rw [trials, List.map_filterMap_some_eq_filter_map_isSome, List.filter_eq_self]
  intro o ho
  obtain ⟨cand, hcand, rfl⟩ := List.mem_map.1 ho
  have htable : coefficients cand.1 ≠ none := by
    rw [Ne, coefficients_eq_none_iff]
    exact Nat.not_lt.2 (Nat.le_of_lt_succ (mem_candidates.1 hcand).1)
  rw [tryCandidate_unpruned, Option.isSome_map]
  exact Option.isSome_iff_ne_none.2 htable

theorem trials_getElem? (h : Int × Int) (xs : List Int) (n : Nat) :
    (trials h xs)[n]?.map some = candidates[n]?.map (tryCandidate h (padded xs) none) := by
  rw [← List.getElem?_map, ← List.getElem?_map, map_some_trials]

theorem trials_argmin (h : Int × Int) (xs : List Int) : (trials h xs).argmin Trial.total = some (winner h xs) := by
  have hsearch : searchFrom h (padded xs) none candidates = (trials h xs).argmin Trial.total := searchFrom_eq_foldl h _ none _
  have hlength : (trials h xs).length = candidates.length := by simpa using congrArg List.length (map_some_trials h xs)
  rw [winner, hsearch]
  cases hmin : (trials h xs).argmin Trial.total with
  | some t => rfl
  | none =>
    rw [List.argmin_eq_none.1 hmin] at hlength
    exact absurd hlength (by decide)

theorem searchFrom_candidates (h : Int × Int) (xs : List Int) :
    searchFrom h (padded xs) none candidates = some (winner h xs) :=
  (searchFrom_eq_foldl h _ none _).trans (trials_argmin h xs)

/-- Settles O29: the winner is the arg-min of all unpruned trials, and of equals `List.argmin` takes the first. -/
theorem searchFindsTheEarliestMinimum : Obligations.SearchFindsTheEarliestMinimum := by
  refine ⟨by decide, fun h xs => ?_⟩
  have hmin : winner h xs ∈ (trials h xs).argmin Trial.total := trials_argmin h xs
  have hwin := trials_getElem? h xs ((trials h xs).idxOf (winner h xs))
  rw [List.getElem?_idxOf (List.argmin_mem hmin), eq_comm, Option.map_some, Option.map_eq_some_iff] at hwin
  obtain ⟨cand, hcand, hwin⟩ := hwin
  refine ⟨_, cand, hcand, hwin, fun m other hother => ?_⟩
  have htrial := trials_getElem? h xs m
  rw [hother, Option.map_some, Option.map_eq_some_iff] at htrial
  obtain ⟨t, ht, htry⟩ := htrial
  have hmem : t ∈ trials h xs := List.mem_of_getElem? ht
  refine ⟨t, htry.symm, List.le_of_mem_argmin hmem hmin, fun hlt => ?_⟩
  by_contra hle
  have hfirst := List.index_of_argmin hmin hmem (Nat.le_of_not_lt hle)
  have hearlier : (trials h xs).idxOf t < m + 1 :=
    (List.mem_take_iff_idxOf_lt hmem).1 (List.mem_of_getElem? ((List.getElem?_take_of_lt m.lt_succ_self).trans ht))
  omega

/-! ## The winner and its block (R189, R193) -/

/-- The winner is the unpruned trial of a candidate with a coefficient pair. -/
theorem winner_eq_after (h : Int × Int) (xs : List Int) :
    ∃ ci sc c1 c2, ci < 5 ∧ sc < 12 ∧ coefficients ci = some (c1, c2) ∧
      winner h xs = (Trial.start ci sc h).after c1 c2 (padded xs) := by
  obtain ⟨⟨ci, sc⟩, hcand, hwin⟩ := List.mem_filterMap.1 (List.argmin_mem (trials_argmin h xs))
  rw [tryCandidate_unpruned, Option.map_eq_some_iff] at hwin
  obtain ⟨⟨c1, c2⟩, hpair, hwin⟩ := hwin
  obtain ⟨hci, hsc⟩ := mem_candidates.1 hcand
  exact ⟨ci, sc, c1, c2, hci, hsc, hpair, hwin.symm⟩

theorem padded_length {xs : List Int} (hxs : xs.length ≤ 30) : (padded xs).length = 30 := by
  simp [padded, samplesPerPredictiveBlock, hxs]

theorem headerOf_packBlock (t : Trial) : headerOf (packBlock t) = BitVec.ofNat 4 t.ci ++ BitVec.ofNat 4 t.sc := by
  simp [headerOf, packBlock]

theorem coefIndexOf_packBlock {t : Trial} (h : t.ci < 16) : coefIndexOf (packBlock t) = t.ci := by
  rw [coefIndexOf, headerOf_packBlock, BitVec.extractLsb'_append_eq_left, BitVec.toNat_ofNat, Nat.mod_eq_of_lt h]

theorem scaleOf_packBlock {t : Trial} (h : t.sc < 16) : scaleOf (packBlock t) = t.sc := by
  rw [scaleOf, headerOf_packBlock, BitVec.extractLsb'_append_eq_right, BitVec.toNat_ofNat, Nat.mod_eq_of_lt h]

theorem packBlock_getElem (t : Trial) {j : Nat} (hj : j < 15) :
    (packBlock t)[j] = biased (codeNibble (t.codes.getD (2 * j + 1) 0) ++ codeNibble (t.codes.getD (2 * j) 0)) := by
  simp [packBlock, hj]

/-- The codes of a packed block are those of its trial, two from each byte. -/
theorem codeAt_packBlock {t : Trial} (hlen : t.codes.length = 30) (hcodes : ∀ k ∈ t.codes, -8 ≤ k ∧ k ≤ 7) :
    (List.range 30).map (codeAt (packBlock t)) = t.codes := by
  have hrange (i : Nat) (hi : i < 30) : -8 ≤ t.codes.getD i 0 ∧ t.codes.getD i 0 ≤ 7 := by
    rw [List.getD_eq_getElem _ _ (hlen ▸ hi)]
    exact hcodes _ (List.getElem_mem _)
  have hpair (j : Nat) (hj : j < 15) : codeAt (packBlock t) (2 * j) = t.codes.getD (2 * j) 0 ∧
      codeAt (packBlock t) (2 * j + 1) = t.codes.getD (2 * j + 1) 0 := by
    obtain ⟨hlo, hlo'⟩ := hrange (2 * j) (by omega)
    obtain ⟨hhi, hhi'⟩ := hrange (2 * j + 1) (by omega)
    exact codeAt_of_packed _ (by omega) hlo hlo' hhi hhi' (packBlock_getElem t hj)
  apply List.ext_getElem (by simp [hlen])
  intro i hi hi'
  obtain ⟨heven, hodd⟩ := hpair (i / 2) (by omega)
  rw [List.getElem_map, List.getElem_range, ← List.getD_eq_getElem _ 0 hi']
  rcases Nat.mod_two_eq_zero_or_one i with hmod | hmod
  · rwa [show 2 * (i / 2) = i by omega] at heven
  · rwa [show 2 * (i / 2) + 1 = i by omega] at hodd

/-- Settles O30: the winner is a completed trial of a candidate, and packing such a trial loses nothing. -/
theorem encodedBlockIsAlwaysValid : Obligations.EncodedBlockIsAlwaysValid := by
  intro h xs hxs
  obtain ⟨ci, sc, c1, c2, hci, hsc, -, hwin⟩ := winner_eq_after h xs
  have hwci : (winner h xs).ci = ci := congrArg Trial.ci hwin
  have hwsc : (winner h xs).sc = sc := congrArg Trial.sc hwin
  have hcodes : (winner h xs).codes = encodeCodes c1 c2 sc h (padded xs) := congrArg Trial.codes hwin
  have hlen : (winner h xs).codes.length = 30 := by rw [hcodes, encodeCodes_length, padded_length hxs]
  have hrange : ∀ k ∈ (winner h xs).codes, -8 ≤ k ∧ k ≤ 7 := fun k hk => encodeCodes_range (hcodes ▸ hk)
  exact ⟨searchFrom_candidates h xs, by omega, by omega, hlen, hrange, coefIndexOf_packBlock (by omega),
    scaleOf_packBlock (by omega), codeAt_packBlock hlen hrange⟩

/-- Settles O31: the block shows the winner's codes, and the winner's outputs, history and total are those of its decoded codes. -/
theorem encodeThenDecodeIsExact : Obligations.EncodeThenDecodeIsExact := by
  intro h xs hxs
  obtain ⟨-, -, -, -, -, hci, hsc, hcodes⟩ := encodedBlockIsAlwaysValid h xs hxs
  obtain ⟨ci, sc, c1, c2, -, -, hpair, hwin⟩ := winner_eq_after h xs
  constructor
  · rw [pDecodeBlock_eq_map, hci, hsc, samplesPerPredictiveBlock, hcodes, pEncodeBlock, hwin]
    simp [Trial.after, Trial.start, hpair]
  · rw [pEncodeBlock, hwin]
    simp [Trial.after, Trial.start]

end Sys2Proof.Machine

/-! SUPPORT. DEC and ENC as wholes: which state of a channel a block moves, what a command comes to when its planned blocks end well,
and the ADAPTIVE commands (43_adaptive.md R212 to R218; 44_commands.md R236, R237, R240). -/

namespace Sys2Proof.Machine

/-! ## Which state of a channel a command moves (R218) -/

/-- Writing slot `c` relates every slot to what it was, if it does so to slot `c`. -/
theorem State.chan_setChan_related {r : Chan → Chan → Prop} (refl : ∀ x, r x x) {s : State} {c : Nat} {x : Chan}
    (h : r (s.chan c) x) (d : Nat) : r (s.chan d) ((s.setChan c x).chan d) := by
  by_cases hd : d = c
  · subst hd
    by_cases hslot : d < s.ch.length
    · rwa [State.chan_setChan_same x hslot]
    · have hnone : s.setChan d x = s := by rw [State.setChan, List.set_eq_of_length_le (not_lt.1 hslot)]
      rw [hnone]
      exact refl _
  · rw [State.chan_setChan_other s x hd]
    exact refl _

/-- `y` has the state of `x` that a command of kind `k` does not move: AST for PREDICTIVE, the history for ADAPTIVE. -/
structure Chan.SameIdleState (k : Kind) (x y : Chan) : Prop where
  ast : k = .predictive → y.ast = x.ast
  hist : k = .adaptive → y.hist0 = x.hist0 ∧ y.hist1 = x.hist1

theorem Chan.SameIdleState.refl (k : Kind) (x : Chan) : Chan.SameIdleState k x x := ⟨fun _ => rfl, fun _ => ⟨rfl, rfl⟩⟩

theorem Chan.SameIdleState.trans {k : Kind} {x y z : Chan} (hxy : Chan.SameIdleState k x y) (hyz : Chan.SameIdleState k y z) :
    Chan.SameIdleState k x z where
  ast hk := (hyz.ast hk).trans (hxy.ast hk)
  hist hk := ⟨(hyz.hist hk).1.trans (hxy.hist hk).1, (hyz.hist hk).2.trans (hxy.hist hk).2⟩

/-- `t` is of the kind of `s`, and its channels have the state that this kind does not move. -/
structure State.KeepsIdleState (s t : State) : Prop where
  kind : t.kind = s.kind
  slots : ∀ c, Chan.SameIdleState s.kind (s.chan c) (t.chan c)

theorem State.KeepsIdleState.refl (s : State) : s.KeepsIdleState s := ⟨rfl, fun _ => .refl _ _⟩

theorem State.KeepsIdleState.trans {s t u : State} (hst : s.KeepsIdleState t) (htu : t.KeepsIdleState u) : s.KeepsIdleState u :=
  ⟨htu.kind.trans hst.kind, fun c => (hst.slots c).trans (hst.kind ▸ htu.slots c)⟩

theorem State.keepsIdleState_setChan {s : State} {c : Nat} {x : Chan} (h : Chan.SameIdleState s.kind (s.chan c) x) :
    s.KeepsIdleState (s.setChan c x) :=
  ⟨rfl, State.chan_setChan_related (.refl _) h⟩

theorem State.keepsIdleState_setCursor (s : State) (c k : Nat) : s.KeepsIdleState (s.setCursor c k) :=
  State.keepsIdleState_setChan ⟨fun _ => rfl, fun _ => ⟨rfl, rfl⟩⟩

theorem State.keepsIdleState_setHist {s : State} (hk : s.kind = .predictive) (c : Nat) (h : Int × Int) :
    s.KeepsIdleState (s.setHist c h) :=
  State.keepsIdleState_setChan ⟨fun _ => rfl, fun ha => by simp [hk] at ha⟩

theorem State.keepsIdleState_setAst {s : State} (hk : s.kind ≠ .predictive) (c : Nat) (a : AdState) :
    s.KeepsIdleState (s.setAst c a) :=
  State.keepsIdleState_setChan ⟨fun hp => absurd hp hk, fun _ => ⟨rfl, rfl⟩⟩

/-- SRAM and CHB hold no state of a channel. -/
theorem State.KeepsIdleState.writeSram {s t : State} (h : s.KeepsIdleState t) (a : Nat) (xs : List Sample) :
    s.KeepsIdleState (t.writeSram a xs) := ⟨h.kind, h.slots⟩

theorem State.KeepsIdleState.writeChb {s t : State} (h : s.KeepsIdleState t) (c a : Nat) (bs : List Byte) :
    s.KeepsIdleState (t.writeChb c a bs) := ⟨h.kind, h.slots⟩

theorem decBlock_keepsIdleState {c k : Nat} {s t : State} (h : decBlock c k s = .ok t) : s.KeepsIdleState t := by
  obtain ⟨blk, -, ⟨hk, out, hist, -, rfl⟩ | ⟨hk, out, a, -, rfl⟩⟩ := decBlock_eq_ok h
  · exact (State.keepsIdleState_setHist hk c hist).writeSram _ _
  · exact (State.keepsIdleState_setAst hk c a).writeSram _ _

theorem encBlock_keepsIdleState {c k : Nat} {s t : State} (h : encBlock c k s = .ok t) : s.KeepsIdleState t := by
  obtain ⟨hk, x, -, rfl⟩ | ⟨hk, x, b, a, -, -, rfl⟩ := encBlock_eq_ok h
  · exact (State.keepsIdleState_setHist hk c _).writeChb _ _ _
  · exact (State.keepsIdleState_setAst hk c a).writeChb _ _ _

/-- A codec command whose blocks keep the idle state keeps it, whether it succeeds or not. -/
theorem codecCommand_keepsIdleState {f : Nat → Nat → State → Work}
    (block : ∀ c k s t, f c k s = .ok t → s.KeepsIdleState t) {sel : ChanSel} {cnt : Count} {s t : State}
    (h : codecCommand f sel cnt s = .next t) : s.KeepsIdleState t := by
  obtain ⟨plan, u, -, hu, rfl⟩ | ⟨e, rfl, -⟩ := codecCommand_eq_next h
  · have hsu : s.KeepsIdleState u :=
      forChannels_induct State.KeepsIdleState f .refl (fun _ _ _ => .trans) block (fun c k s => s.keepsIdleState_setCursor c k)
        plan s u hu
    exact ⟨hsu.kind, hsu.slots⟩
  · exact ⟨rfl, fun _ => .refl _ _⟩

/-- Settles O42: a PREDICTIVE block sets a history, an ADAPTIVE one an adaptive state, and the cursor move neither. -/
theorem kindDecidesWhichStateMoves : Obligations.KindDecidesWhichStateMoves := by
  intro s t sel cnt i hi h
  have hkeeps : s.KeepsIdleState t := by
    rcases hi with rfl | rfl
    · exact codecCommand_keepsIdleState (fun _ _ _ _ => decBlock_keepsIdleState) h
    · exact codecCommand_keepsIdleState (fun _ _ _ _ => encBlock_keepsIdleState) h
  exact ⟨fun hk c => (hkeeps.slots c).ast hk, fun hk c => (hkeeps.slots c).hist hk⟩

/-! ## A DEC or ENC of either kind whose planned blocks all end well (R236, R240) -/

/-- Where the samples of channel `c` from its cursor on begin in SRAM. -/
def State.firstSample (s : State) (c : Nat) : Nat := s.sampleIndex c (s.samplesPerBlock * s.cursorOf c)

/-- The planned blocks of channel `c` give the samples `xs` and leave its slot as `y`, but for the cursor, in every state that the
DEC of other channels can leave of `s`. -/
structure State.DecodesChannel (s : State) (cnt : Count) (c : Nat) (y : Chan) (xs : List Sample) : Prop where
  length : xs.length = s.samplesPerBlock * s.countFor cnt c
  blocks : ∀ u : State, u = { s with ch := u.ch, sram := u.sram } → u.ch.length = s.ch.length → u.chan c = s.chan c →
    forBlocks (decBlock c) (s.countFor cnt c) (s.cursorOf c) u =
      .ok ((u.setChan c y).writeSram (s.firstSample c) xs)

/-- The same for an ENC, whose bytes go to the channel's own array (R240). -/
structure State.EncodesChannel (s : State) (cnt : Count) (c : Nat) (y : Chan) (bs : List Byte) : Prop where
  length : bs.length = 16 * s.countFor cnt c
  blocks : ∀ u : State, u = { s with ch := u.ch, chb := u.chb } → u.ch.length = s.ch.length → u.chb.length = s.chb.length →
    u.chan c = s.chan c →
    forBlocks (encBlock c) (s.countFor cnt c) (s.cursorOf c) u = .ok ((u.setChan c y).writeChb c (16 * s.cursorOf c) bs)

/-- The planned channels, each with its count (R233). -/
def State.plan (s : State) (sel : ChanSel) (cnt : Count) : List (Nat × Nat) :=
  (s.selected sel).map (fun c => (c, s.countFor cnt c))

theorem State.plan_channels (s : State) (sel : ChanSel) (cnt : Count) : (s.plan sel cnt).map Prod.fst = s.selected sel := by
  simp [State.plan, Function.comp_def]

theorem State.plan_nodup (s : State) (sel : ChanSel) (cnt : Count) : ((s.plan sel cnt).map Prod.fst).Nodup :=
  s.plan_channels sel cnt ▸ selected_nodup s sel

theorem State.mem_plan {s : State} {sel : ChanSel} {c : Nat} (h : c ∈ s.selected sel) (cnt : Count) :
    (c, s.countFor cnt c) ∈ s.plan sel cnt := List.mem_map_of_mem h

theorem State.forall_mem_plan {s : State} {sel : ChanSel} {cnt : Count} {P : Nat × Nat → Prop} :
    (∀ p ∈ s.plan sel cnt, P p) ↔ ∀ c ∈ s.selected sel, P (c, s.countFor cnt c) := List.forall_mem_map

/-- Channel slot `y` with the cursor where the command leaves it. -/
def State.slotAfter (s : State) (cnt : Count) (c : Nat) (y : Chan) : Chan :=
  { y with cursor := BitVec.ofNat 32 (s.cursorOf c + s.countFor cnt c) }

/-- A channel is done when its blocks are, and its cursor moved past them. -/
theorem forChannel_of_forBlocks {f : Nat → Nat → State → Work} {c n : Nat} {s t : State}
    (h : forBlocks (f c) n (s.cursorOf c) s = .ok t) : forChannel f c n s = .ok (t.setCursor c (s.cursorOf c + n)) := by
  rw [State.cursorOf] at h
  simp only [forChannel, h, Work.andThen_ok, State.cursorOf]

theorem State.setCursor_setChan_same {s : State} {c : Nat} (hc : c < s.ch.length) (y : Chan) (k : Nat) :
    (s.setChan c y).setCursor c k = s.setChan c { y with cursor := BitVec.ofNat 32 k } := by
  rw [State.setCursor, State.chan_setChan_same y hc, State.setChan_setChan]

theorem State.DecodesChannel.forChannel {s u : State} {cnt : Count} {c : Nat} {y : Chan} {xs : List Sample}
    (h : s.DecodesChannel cnt c y xs) (hc : c < s.ch.length) (hu : u = { s with ch := u.ch, sram := u.sram })
    (hlen : u.ch.length = s.ch.length) (huc : u.chan c = s.chan c) :
    Machine.forChannel decBlock c (s.countFor cnt c) u =
      .ok ((u.setChan c (s.slotAfter cnt c y)).writeSram (s.firstSample c) xs) := by
  have hcur : u.cursorOf c = s.cursorOf c := by rw [State.cursorOf, huc, State.cursorOf]
  rw [forChannel_of_forBlocks (hcur ▸ h.blocks u hu hlen huc), hcur, State.slotAfter,
    ← State.setCursor_setChan_same (hlen ▸ hc)]
  rfl

theorem State.EncodesChannel.forChannel {s u : State} {cnt : Count} {c : Nat} {y : Chan} {bs : List Byte}
    (h : s.EncodesChannel cnt c y bs) (hc : c < s.ch.length) (hu : u = { s with ch := u.ch, chb := u.chb })
    (hlen : u.ch.length = s.ch.length) (hlenb : u.chb.length = s.chb.length) (huc : u.chan c = s.chan c) :
    Machine.forChannel encBlock c (s.countFor cnt c) u =
      .ok ((u.setChan c (s.slotAfter cnt c y)).writeChb c (16 * s.cursorOf c) bs) := by
  have hcur : u.cursorOf c = s.cursorOf c := by rw [State.cursorOf, huc, State.cursorOf]
  rw [forChannel_of_forBlocks (hcur ▸ h.blocks u hu hlen hlenb huc), hcur, State.slotAfter,
    ← State.setCursor_setChan_same (hlen ▸ hc)]
  rfl

/-- A codec command that passes its checks and does its plan succeeds (R263). -/
theorem codecCommand_of_done {f : Nat → Nat → State → Work} {s v : State} {sel : ChanSel} {cnt : Count}
    (ready : s.CodecReady sel cnt) (hv : forChannels f (s.plan sel cnt) s = .ok v) :
    codecCommand f sel cnt s = .next v.complete := by
  rw [State.plan] at hv
  simp only [codecCommand, codecPlan_of_ready ready, hv, Work.commit]

/-- The planned samples of a channel lie within the channel's part of SRAM. -/
theorem plannedSamples_le {s : State} {sel : ChanSel} {cnt : Count} (ready : s.CodecReady sel cnt) {c : Nat}
    (hc : c ∈ s.selected sel) : s.samplesPerBlock * s.cursorOf c + s.samplesPerBlock * s.countFor cnt c ≤ s.nsamp :=
  calc s.samplesPerBlock * s.cursorOf c + s.samplesPerBlock * s.countFor cnt c
      = s.samplesPerBlock * (s.cursorOf c + s.countFor cnt c) := (Nat.mul_add _ _ _).symm
    _ ≤ s.samplesPerBlock * s.nblk := Nat.mul_le_mul_left _ (ready.countsFit c hc).2
    _ ≤ s.nsamp := samplesPerBlock_mul_nblk_le ready.configured.2

/-- A run within the part of one channel ends before the part of a later channel. -/
theorem channelPart_le {n c d a k : Nat} (hcd : c < d) (hc : a + k ≤ n) (b : Nat) : c * n + a + k ≤ d * n + b :=
  calc c * n + a + k ≤ c * n + n := by omega
    _ = (c + 1) * n := (Nat.succ_mul c n).symm
    _ ≤ d * n := Nat.mul_le_mul_right n hcd
    _ ≤ d * n + b := Nat.le_add_right _ _

/-- The planned samples of two channels do not meet. -/
theorem plannedSamples_apart {s : State} {sel : ChanSel} {cnt : Count} (ready : s.CodecReady sel cnt) {c d : Nat}
    (hc : c ∈ s.selected sel) (hd : d ∈ s.selected sel) (hcd : c ≠ d) :
    s.firstSample c + s.samplesPerBlock * s.countFor cnt c ≤ s.firstSample d ∨
      s.firstSample d + s.samplesPerBlock * s.countFor cnt d ≤ s.firstSample c := by
  rcases Nat.lt_or_gt_of_ne hcd with h | h
  · exact .inl (channelPart_le h (plannedSamples_le ready hc) _)
  · exact .inr (channelPart_le h (plannedSamples_le ready hd) _)

/-- A DEC whose selected channels all decode succeeds, and leaves every channel that it does not select, every other sample and
all else. -/
theorem exec_dec_of_decodesChannel {s : State} {sel : ChanSel} {cnt : Count} {y : Nat → Chan} {xs : Nat → List Sample}
    (inv : s.Inv) (ready : s.CodecReady sel cnt) (h : ∀ c ∈ s.selected sel, s.DecodesChannel cnt c (y c) (xs c)) :
    ∃ t, exec (.dec sel cnt) s = .next t ∧
      (∀ c ∈ s.selected sel, t.chan c = s.slotAfter cnt c (y c) ∧
        ∀ i < s.samplesPerBlock * s.countFor cnt c,
          Mem.get t.sram (c * s.nsamp + s.samplesPerBlock * s.cursorOf c + i) = (xs c)[i]?) ∧
      (∀ c, c ∉ s.selected sel → t.chan c = s.chan c) ∧
      (∀ a, (∀ c ∈ s.selected sel, a < c * s.nsamp + s.samplesPerBlock * s.cursorOf c ∨
          c * s.nsamp + s.samplesPerBlock * (s.cursorOf c + s.countFor cnt c) ≤ a) → Mem.get t.sram a = Mem.get s.sram a) ∧
      t = { s with ch := t.ch, sram := t.sram, busy := false, err := false, errCode := .ok, errCh := 0#8, errBlk := 0#32 } := by
  have slots := slots_of_ready inv ready
  obtain ⟨v, hv, hframe, -, hdone, hother, hsram⟩ :=
    forChannels_dec (s := s) (x := fun c => s.slotAfter cnt c (y c)) (xs := xs)
      (base := s.firstSample) (s.plan sel cnt) (s.plan_nodup sel cnt)
      (State.forall_mem_plan.2 fun c hc => (slots c hc).1)
      (State.forall_mem_plan.2 fun c hc u hu hlen huc => (h c hc).forChannel (slots c hc).1 hu hlen huc)
  rw [s.plan_channels] at hother
  refine ⟨v.complete, codecCommand_of_done ready hv, fun c hc => ⟨?_, fun i hi => ?_⟩, hother, fun a ha => ?_, ?_⟩
  · exact hdone _ (State.mem_plan hc cnt)
  · have hlen : i < (xs c).length := (h c hc).length ▸ hi
    rw [State.complete_sram, hsram, List.getElem?_eq_getElem hlen]
    refine get_runs_inside (base := s.firstSample) _ _ (s.plan_nodup sel cnt) ?_ (State.mem_plan hc cnt) hlen
    refine State.forall_mem_plan.2 fun d hd => State.forall_mem_plan.2 fun e he hne => ?_
    rw [(h d hd).length, (h e he).length]
    exact plannedSamples_apart ready hd he hne
  · rw [State.complete_sram, hsram]
    refine get_runs_outside (base := s.firstSample) _ _ (State.forall_mem_plan.2 fun c hc => ?_)
    rw [(h c hc).length]
    simpa only [State.firstSample, State.sampleIndex, Nat.mul_add, Nat.add_assoc] using ha c hc
  · rw [hframe]; rfl

/-- An ENC whose selected channels all encode succeeds, and leaves every channel that it does not select, every other byte of CHB
and all else. -/
theorem exec_enc_of_encodesChannel {s : State} {sel : ChanSel} {cnt : Count} {y : Nat → Chan} {bytes : Nat → List Byte}
    (inv : s.Inv) (ready : s.CodecReady sel cnt) (h : ∀ c ∈ s.selected sel, s.EncodesChannel cnt c (y c) (bytes c)) :
    ∃ t, exec (.enc sel cnt) s = .next t ∧
      (∀ c ∈ s.selected sel, t.chan c = s.slotAfter cnt c (y c) ∧
        (∀ i < 16 * s.countFor cnt c, Mem.get (t.chbOf c) (16 * s.cursorOf c + i) = (bytes c)[i]?) ∧
        (∀ a, a < 16 * s.cursorOf c ∨ 16 * (s.cursorOf c + s.countFor cnt c) ≤ a →
          Mem.get (t.chbOf c) a = Mem.get (s.chbOf c) a)) ∧
      (∀ c, c ∉ s.selected sel → t.chan c = s.chan c ∧ t.chbOf c = s.chbOf c) ∧
      t = { s with ch := t.ch, chb := t.chb, busy := false, err := false, errCode := .ok, errCh := 0#8, errBlk := 0#32 } := by
  have slots := slots_of_ready inv ready
  obtain ⟨v, hv, hframe, -, -, hdone, hother⟩ :=
    forChannels_enc (s := s) (x := fun c => s.slotAfter cnt c (y c))
      (m := fun c => Mem.setRange (s.chbOf c) (16 * s.cursorOf c) (bytes c))
      (s.plan sel cnt) (s.plan_nodup sel cnt)
      (State.forall_mem_plan.2 slots)
      (State.forall_mem_plan.2 fun c hc u hu hlen hlenb huc hub => by
        rw [(h c hc).forChannel (slots c hc).1 hu hlen hlenb huc, ← hub]; rfl)
  rw [s.plan_channels] at hother
  refine ⟨v.complete, codecCommand_of_done ready hv, fun c hc => ?_, hother, ?_⟩
  · obtain ⟨hslot, hchb⟩ := hdone _ (State.mem_plan hc cnt)
    have hchb : v.complete.chbOf c = Mem.setRange (s.chbOf c) (16 * s.cursorOf c) (bytes c) := hchb
    have hlen := (h c hc).length
    refine ⟨hslot, fun i hi => ?_, fun a ha => ?_⟩
    · rw [hchb, Mem.get_setRange_inside _ _ _ (hlen ▸ hi), List.getElem?_eq_getElem]
    · rw [hchb, Mem.get_setRange_outside]
      omega
  · rw [hframe]; rfl

/-! ## The OPEN codec over a run of blocks (R212, R218) -/

theorem adDecodeBlocks_length {bs : List (Vector Byte 16)} {a last : AdState} {outs : List Sample}
    (h : adDecodeBlocks a bs = some (outs, last)) : outs.length = Config.spbA * bs.length := by
  induction bs generalizing a outs with
  | nil => cases h; rfl
  | cons b bs ih =>
    rw [adDecodeBlocks] at h
    split at h
    · cases h
    · split at h
      · cases h
      · next hbs => cases h; simp [ih hbs, Nat.mul_add, Nat.add_comm]

theorem adEncodeBlocks_length {xs : List (Vector Sample Config.spbA)} {a last : AdState} {bytes : List Byte}
    (h : adEncodeBlocks a xs = some (bytes, last)) : bytes.length = 16 * xs.length := by
  induction xs generalizing a bytes with
  | nil => cases h; rfl
  | cons x xs ih =>
    rw [adEncodeBlocks] at h
    split at h
    · cases h
    · split at h
      · cases h
      · next hxs => cases h; simp [ih hxs, Nat.mul_add, Nat.add_comm]

theorem samplesPerBlock_adaptive {s : State} (hk : s.kind = .adaptive) : s.samplesPerBlock = Config.spbA := by
  simp [State.samplesPerBlock, hk]

theorem State.decodesChannel_adaptive {s : State} {cnt : Count} {c : Nat} {bs : List (Vector Byte 16)} {outs : List Sample}
    {last : AdState} (hk : s.kind = .adaptive) (hc : c < s.ch.length) (hbs : s.blocksToDecode cnt c = some bs)
    (hd : adDecodeBlocks (s.chan c).ast bs = some (outs, last)) :
    s.DecodesChannel cnt c { s.chan c with ast := last } outs where
  length := by rw [adDecodeBlocks_length hd, rangesAt_length hbs, samplesPerBlock_adaptive hk]
  blocks u hu hlen huc := by
    have hchb : u.chbOf c = s.chbOf c := by rw [hu]; rfl
    have hindex : ∀ i, u.sampleIndex c i = s.sampleIndex c i := by rw [hu]; exact fun _ => rfl
    rw [forBlocks_dec_adaptive _ (hlen ▸ hc) (by rw [hu]; exact hk) (hchb ▸ hbs) (huc ▸ hd), hindex,
      State.firstSample, samplesPerBlock_adaptive hk, State.setAst, huc]

theorem State.encodesChannel_adaptive {s : State} {cnt : Count} {c : Nat} {xs : List (Vector Sample Config.spbA)}
    {bytes : List Byte} {last : AdState} (hk : s.kind = .adaptive) (hc : c < s.ch.length ∧ c < s.chb.length)
    (hxs : s.adSamplesToEncode cnt c = some xs) (he : adEncodeBlocks (s.chan c).ast xs = some (bytes, last)) :
    s.EncodesChannel cnt c { s.chan c with ast := last } bytes where
  length := by rw [adEncodeBlocks_length he, rangesAt_length hxs]
  blocks u hu hlen hlenb huc := by
    have hsram : u.sram = s.sram := by rw [hu]
    have hindex : ∀ i, u.sampleIndex c i = s.sampleIndex c i := by rw [hu]; exact fun _ => rfl
    rw [forBlocks_enc_adaptive _ (hlen ▸ hc.1) (hlenb ▸ hc.2) (by rw [hu]; exact hk) (by rw [hsram, hindex]; exact hxs)
      (huc ▸ he), State.setAst, huc]

/-- Settles O38: the OPEN decoder's samples are those of `exec_dec_of_decodesChannel`. -/
theorem adaptiveDecRunsTheOpenDecoder : Obligations.AdaptiveDecRunsTheOpenDecoder := by
  intro s sel cnt outs last inv ready hk hcodec
  rw [← samplesPerBlock_adaptive hk]
  refine exec_dec_of_decodesChannel inv ready (y := fun c => { s.chan c with ast := last c }) fun c hc => ?_
  obtain ⟨bs, hbs, hd⟩ := hcodec c hc
  exact State.decodesChannel_adaptive hk (slots_of_ready inv ready c hc).1 hbs hd

/-- Settles O39: the OPEN encoder's bytes are those of `exec_enc_of_encodesChannel`. -/
theorem adaptiveEncRunsTheOpenEncoder : Obligations.AdaptiveEncRunsTheOpenEncoder := by
  intro s sel cnt bytes last inv ready hk hcodec
  refine exec_enc_of_encodesChannel inv ready (y := fun c => { s.chan c with ast := last c }) fun c hc => ?_
  obtain ⟨xs, hxs, he⟩ := hcodec c hc
  exact State.encodesChannel_adaptive hk (slots_of_ready inv ready c hc) hxs he

/-! ## The first block on which the OPEN codec fails (R214, R237, R264) -/

theorem State.ast_setAst_same {s : State} {c : Nat} (hc : c < s.ch.length) (a : AdState) : ((s.setAst c a).chan c).ast = a := by
  rw [State.setAst, State.chan_setChan_same _ hc]

theorem decBlock_of_adDecode_none {s : State} {c k : Nat} {b : Vector Byte 16} (hk : s.kind = .adaptive)
    (hb : Mem.getRange (s.chbOf c) (16 * k) 16 = some b) (hfail : Config.adDecode (s.chan c).ast b = none) :
    decBlock c k s = .err (.at .adaptiveError c k) := by
  rw [decBlock_adaptive hk hb, hfail]

theorem encBlock_of_adEncode_none {s : State} {c k : Nat} {x : Vector Sample Config.spbA} (hk : s.kind = .adaptive)
    (hx : Mem.getRange s.sram (s.sampleIndex c (Config.spbA * k)) Config.spbA = some x)
    (hfail : Config.adEncode (s.chan c).ast x = none) : encBlock c k s = .err (.at .adaptiveError c k) := by
  rw [encBlock_adaptive hk hx, hfail]

section

variable {s : State} {sel : ChanSel} {cnt : Count} {before after : List Nat} {c j : Nat} {a : AdState} (inv : s.Inv)
  (ready : s.CodecReady sel cnt) (hk : s.kind = .adaptive) (hsel : s.selected sel = before ++ c :: after)
  (hj : j < s.countFor cnt c)
include inv ready hk hsel hj

/-- The channels before `c` and the `j` blocks before leave CHB, and the blocks leave in AST what the decoder answered last. -/
theorem exec_dec_of_adDecode_none {bs : List (Vector Byte 16)} {outs : List Sample} {b : Vector Byte 16}
    (hbefore : ∀ d ∈ before, s.decodesTo d (s.countFor cnt d))
    (hbs : rangesAt (s.chbOf c) 16 (16 * s.cursorOf c) j = some bs)
    (hd : adDecodeBlocks (s.chan c).ast bs = some (outs, a))
    (hb : Mem.getRange (s.chbOf c) (16 * (s.cursorOf c + j)) 16 = some b) (hfail : Config.adDecode a b = none) :
    exec (.dec sel cnt) s = .next (s.errorCompletion (.at .adaptiveError c (s.cursorOf c + j))) := by
  have slots := slots_of_ready inv ready
  obtain ⟨nodup, hnot⟩ := before_of_selected hsel
  obtain ⟨u, hu, hframe, hlen, hother⟩ :=
    forChannels_dec_of_decodesTo nodup (fun d hd => (slots d (by simp [hsel, hd])).1) hbefore
  have huc := hother c hnot
  have hslot : c < u.ch.length := hlen ▸ (slots c (by simp [hsel])).1
  have hkind : u.kind = .adaptive := by rw [hframe]; exact hk
  have hchb : u.chbOf c = s.chbOf c := by rw [hframe]; rfl
  have hv := forBlocks_dec_adaptive j (k := s.cursorOf c) hslot hkind (hchb ▸ hbs) (huc ▸ hd)
  have hast : ((u.setAst c a).chan c).ast = a := State.ast_setAst_same hslot a
  exact codecCommand_stops ready hsel hj hu huc hv
    (decBlock_of_adDecode_none hkind (hchb ▸ hb) ((congrArg (Config.adDecode · b) hast).trans hfail)) rfl

/-- For an ENC they leave SRAM, and in AST what the encoder answered last. -/
theorem exec_enc_of_adEncode_none {xs : List (Vector Sample Config.spbA)} {bytes : List Byte} {x : Vector Sample Config.spbA}
    (hbefore : ∀ d ∈ before, s.encodesTo d (s.countFor cnt d))
    (hxs : rangesAt s.sram Config.spbA (c * s.nsamp + Config.spbA * s.cursorOf c) j = some xs)
    (he : adEncodeBlocks (s.chan c).ast xs = some (bytes, a))
    (hx : Mem.getRange s.sram (c * s.nsamp + Config.spbA * (s.cursorOf c + j)) Config.spbA = some x)
    (hfail : Config.adEncode a x = none) :
    exec (.enc sel cnt) s = .next (s.errorCompletion (.at .adaptiveError c (s.cursorOf c + j))) := by
  have slots := slots_of_ready inv ready
  obtain ⟨nodup, hnot⟩ := before_of_selected hsel
  obtain ⟨u, hu, hframe, hlen, hlenb, hother⟩ :=
    forChannels_enc_of_encodesTo nodup (fun d hd => slots d (by simp [hsel, hd])) hbefore
  have huc := hother c hnot
  obtain ⟨hslot, harray⟩ : c < u.ch.length ∧ c < u.chb.length := by rw [hlen, hlenb]; exact slots c (by simp [hsel])
  have hkind : u.kind = .adaptive := by rw [hframe]; exact hk
  have hinput : rangesAt u.sram Config.spbA (u.sampleIndex c (Config.spbA * s.cursorOf c)) j = some xs := by
    rw [hframe]; exact hxs
  have hv := forBlocks_enc_adaptive j (k := s.cursorOf c) hslot harray hkind hinput (huc ▸ he)
  have hsamples : Mem.getRange u.sram (u.sampleIndex c (Config.spbA * (s.cursorOf c + j))) Config.spbA = some x := by
    rw [hframe]; exact hx
  have hast : ((u.setAst c a).chan c).ast = a := State.ast_setAst_same hslot a
  exact codecCommand_stops ready hsel hj hu huc hv
    (encBlock_of_adEncode_none hkind hsamples ((congrArg (Config.adEncode · x) hast).trans hfail)) rfl

end

/-! ## A command of one block of one channel -/

theorem Work.andThen_ok_right (w : Work) : w.andThen .ok = w := by cases w <;> rfl

/-- Such a command is its one block, and then the cursor's move by 1. -/
theorem codecCommand_oneBlock {f : Nat → Nat → State → Work} {s : State} {cnt : Count} {c : Nat}
    (ready : s.CodecReady (.one c) cnt) (hcount : s.countFor cnt c = 1) :
    codecCommand f (.one c) cnt s =
      ((f c (s.cursorOf c) s).andThen (fun t => .ok (t.setCursor c (s.cursorOf c + 1)))).commit s := by
  have hblock : forBlocks (f c) 1 (s.cursorOf c) s = f c (s.cursorOf c) s := Work.andThen_ok_right _
  simp only [codecCommand, codecPlan_of_ready ready, State.selected, List.map_cons, List.map_nil, hcount, forChannels,
    Work.andThen_ok_right]
  rw [forChannel]
  exact congrArg (fun w => (Work.andThen w _).commit s) hblock

section

variable {s : State} {cnt : Count} {c : Nat} (ready : s.CodecReady (.one c) cnt) (hk : s.kind = .adaptive)
  (hc : c < s.ch.length) (hcount : s.countFor cnt c = 1)
include ready hk hc hcount

theorem exec_dec_oneBlock_adaptive {b : Vector Byte 16}
    (hb : Mem.getRange (s.chbOf c) (16 * s.cursorOf c) 16 = some b) :
    exec (.dec (.one c) cnt) s =
      match Config.adDecode (s.chan c).ast b with
      | none => .next (s.errorCompletion (.at .adaptiveError c (s.cursorOf c)))
      | some (out, a) =>
        .next ((s.setChan c { s.chan c with ast := a, cursor := BitVec.ofNat 32 (s.cursorOf c + 1) }).writeSram
          (s.sampleIndex c (Config.spbA * s.cursorOf c)) out.toList).complete := by
  rw [exec, execDec, codecCommand_oneBlock ready hcount, decBlock_adaptive hk hb]
  rcases Config.adDecode (s.chan c).ast b with _ | ⟨out, a⟩
  · rfl
  · dsimp only
    rw [← State.setCursor_setChan_same hc { s.chan c with ast := a }]
    rfl

theorem exec_enc_oneBlock_adaptive {x : Vector Sample Config.spbA}
    (hx : Mem.getRange s.sram (s.sampleIndex c (Config.spbA * s.cursorOf c)) Config.spbA = some x) :
    exec (.enc (.one c) cnt) s =
      match Config.adEncode (s.chan c).ast x with
      | none => .next (s.errorCompletion (.at .adaptiveError c (s.cursorOf c)))
      | some (b, a) =>
        .next ((s.setChan c { s.chan c with ast := a, cursor := BitVec.ofNat 32 (s.cursorOf c + 1) }).writeChb c
          (16 * s.cursorOf c) b.toList).complete := by
  rw [exec, execEnc, codecCommand_oneBlock ready hcount, encBlock_adaptive hk hx]
  rcases Config.adEncode (s.chan c).ast x with _ | ⟨b, a⟩
  · rfl
  · dsimp only
    rw [← State.setCursor_setChan_same hc { s.chan c with ast := a }]
    rfl

end

/-- Settles O40: the codec is asked about the block in the adaptive state that the blocks before it have left, and its answer is
the command's. -/
theorem adaptiveBlockSucceedsOrReports : Obligations.AdaptiveBlockSucceedsOrReports := by
  intro s sel cnt before after c inv ready hk hsel
  refine ⟨fun j bs outs a b hbefore hj hbs hd hb hfail => ?_, fun j xs bytes a x hbefore hj hxs he hx hfail => ?_,
    fun hone hcount => ?_⟩
  · exact exec_dec_of_adDecode_none inv ready hk hsel hj hbefore hbs hd hb hfail
  · exact exec_enc_of_adEncode_none inv ready hk hsel hj hbefore hxs he hx hfail
  · subst hone
    have hslot : c < s.ch.length := (slots_of_ready inv ready c (by simp [hsel])).1
    exact ⟨fun b hb => exec_dec_oneBlock_adaptive ready hk hslot hcount hb,
      fun x hx => exec_enc_oneBlock_adaptive ready hk hslot hcount hx⟩

end Sys2Proof.Machine

/-! SUPPORT. The core's step while BUSY = 1, and the run from an issued command on (44_commands.md R230; 20_memory.md R70; log 3, log
4, log 16). -/

namespace Sys2Proof.Machine

/-! ## Who moves while BUSY = 1 -/

theorem State.hostEnabled_of_access {s : State} {a : Access} {ops : List HostOp} (hs : s.script = .access a :: ops) :
    s.hostEnabled = true := by rw [State.hostEnabled, hs]

/-- A host without a program, or at a WAIT, cannot move while BUSY = 1 (R122). -/
theorem State.hostEnabled_of_ended_or_wait {s : State} (hb : s.busy = true)
    (hs : s.script = [] ∨ s.script.head? = some .wait) : s.hostEnabled = false := by
  rcases hscript : s.script with _ | ⟨_ | _, ops⟩
  · simp [State.hostEnabled, hscript]
  · simp [hscript] at hs
  · simp [State.hostEnabled, hscript, hb]

section

variable {s : State} (hf : s.fault = none) (hb : s.busy = true)
include hf hb

/-- Where the schedule does not call the host, the core moves, and the choice is used up. -/
theorem step_of_busy_core (hhost : s.hostEnabled = true) (hcore : s.schedule.head? ≠ some .host) :
    step s = coreStep { s with schedule := s.schedule.tail } := by
  have hcontended : s.contended = true := by simp [State.contended, State.coreEnabled, hb, hhost]
  have hafter : s.afterTurn = { s with schedule := s.schedule.tail } := if_pos hcontended
  have hturn : s.turn = some .core := by
    rw [State.turn, if_pos hcontended]
    split
    · next hsched => simp [hsched] at hcore
    · rfl
  simp only [step, hf, hturn, hafter]

/-- Where the schedule calls the host, its access is made, and the choice is used up. -/
theorem step_of_busy_host {a : Access} {ops : List HostOp} (hs : s.script = .access a :: ops)
    (hhost : s.schedule.head? = some .host) :
    step s = hostAccess a { s with schedule := s.schedule.tail, script := ops } := by
  have hcontended : s.contended = true := by
    simp [State.contended, State.coreEnabled, hb, State.hostEnabled_of_access hs]
  have hafter : s.afterTurn = { s with schedule := s.schedule.tail } := if_pos hcontended
  have hturn : s.turn = some .host := by
    obtain ⟨sched, hsched⟩ := List.head?_eq_some_iff.1 hhost
    simp [State.turn, hcontended, hsched]
  simp only [step, hf, hturn, hafter, hostStep, hs]

end

/-- Settles O6: who moves is decided as `step_of_busy`, `step_of_busy_core` and `step_of_busy_host` say, and LATCH decides the core's
step. -/
theorem stepRunsTheLatchedCommand : Obligations.StepRunsTheLatchedCommand := by
  intro s hf hb
  have alone (hs : s.script = [] ∨ s.script.head? = some .wait) : step s = coreStep s :=
    step_of_busy hf hb (State.hostEnabled_of_ended_or_wait hb hs)
  have called (a : Access) (hs : s.script.head? = some (.access a)) (hcore : s.schedule.head? ≠ some .host) :
      step s = coreStep { s with schedule := s.schedule.tail } := by
    obtain ⟨ops, hs⟩ := List.head?_eq_some_iff.1 hs
    exact step_of_busy_core hf hb (State.hostEnabled_of_access hs) hcore
  refine ⟨fun i hi => ⟨fun hs => ?_, fun a hs hcore => ?_⟩, fun hillegal => ⟨fun hs => ?_, fun a hs hcore => ?_⟩,
    fun a ops hs hhost => step_of_busy_host hf hb hs hhost⟩
  · rw [alone hs, coreStep_of_decode hi]
  · rw [called a hs hcore]
    exact coreStep_of_decode (s := { s with schedule := s.schedule.tail }) hi
  · rw [alone hs, coreStep_of_illegal hillegal]
    rfl
  · rw [called a hs hcore]
    exact coreStep_of_illegal (s := { s with schedule := s.schedule.tail }) hillegal

/-- With no choice left to make, the core moves (log 4). -/
theorem step_of_busy_unscheduled {s : State} (hf : s.fault = none) (hb : s.busy = true) (hsched : s.schedule = []) :
    step s = coreStep s := by
  rcases hhost : s.hostEnabled with _ | _
  · exact step_of_busy hf hb hhost
  · have hspent : { s with schedule := s.schedule.tail } = s := by rw [hsched, List.tail_nil, ← hsched]
    rw [step_of_busy_core hf hb hhost (by simp [hsched]), hspent]

/-- A word survives its way through a number (log 16). -/
theorem State.withFetchWord_toNat (s : State) (w : Word) :
    s.withFetchWord 32 w.toNat = { s with latch := w, busy := true, schedule := [], fault := none } := by
  rw [State.withFetchWord, Nat.mod_eq_of_lt w.isLt, BitVec.ofNat_toNat, BitVec.setWidth_eq]

/-- Settles O8: the placed state has BUSY = 1 and no schedule, so that its step is the core's. -/
theorem placedWordRunsNext : Obligations.PlacedWordRunsNext := by
  intro s w i hi
  rw [State.withFetchWord_toNat, step_of_busy_unscheduled rfl rfl rfl]
  exact coreStep_of_decode (s := { s with latch := w, busy := true, schedule := [], fault := none }) hi

/-! ## The run from an issued command on -/

theorem exec_busy {i : Instr} {s t : State} (h : exec i s = .next t) : t.busy = false := by
  obtain ⟨u, rfl, -⟩ | ⟨e, -, rfl⟩ := exec_cases h
  · exact u.complete_busy
  · exact s.errorCompletion_busy e

/-- The core's step ends the command, or it faults (R230). -/
theorem coreStep_completes (s : State) : (∃ t, coreStep s = .next t ∧ t.busy = false) ∨ ∃ f, coreStep s = .fault f := by
  rcases hout : coreStep s with t | f | r
  · refine .inl ⟨t, rfl, ?_⟩
    rcases hdecode : decode s.latch with e | i
    · rw [coreStep_of_illegal ⟨e, hdecode⟩] at hout
      cases hout
      exact s.errorCompletion_busy _
    · rw [coreStep_of_decode hdecode] at hout
      exact exec_busy hout
  · exact .inr ⟨f, rfl⟩
  · exact absurd hout (coreStep_ne_refused s r)

theorem run_fault {n : Nat} {s : State} {f : Fault} (h : step s = .fault f) : Sys2Proof.core.run (n + 1) s = .fault f := by
  have hstep : Sys2Proof.core.step s = .fault f := h
  simp only [Host.Core.run, hstep]

/-- A run from `s` of at most `n` steps brings BUSY to 0, or meets a fault. -/
def CompletesOrFaultsWithin (n : Nat) (s : State) : Prop :=
  ∃ k ≤ n, (∃ t, Sys2Proof.core.run k s = .next t ∧ t.busy = false) ∨ ∃ f, Sys2Proof.core.run k s = .fault f

theorem CompletesOrFaultsWithin.of_fault {s : State} {f : Fault} (n : Nat) (h : step s = .fault f) :
    CompletesOrFaultsWithin (n + 1) s := ⟨1, by omega, .inr ⟨f, run_fault h⟩⟩

theorem CompletesOrFaultsWithin.of_coreStep {s u : State} (n : Nat) (h : step s = coreStep u) :
    CompletesOrFaultsWithin (n + 1) s := by
  rcases coreStep_completes u with ⟨t, ht, hb⟩ | ⟨f, hf⟩
  · exact ⟨1, by omega, .inl ⟨t, run_next (h.trans ht), hb⟩⟩
  · exact .of_fault n (h.trans hf)

theorem CompletesOrFaultsWithin.cons {n : Nat} {s t : State} (h : step s = .next t) (ht : CompletesOrFaultsWithin n t) :
    CompletesOrFaultsWithin (n + 1) s := by
  obtain ⟨k, hk, hrun⟩ := ht
  exact ⟨k + 1, by omega, by rwa [run_next h]⟩

/-- Each choice that calls the host costs one STATUS read, which leaves the core where it is, or one fault. -/
theorem completesOrFaults (sched : List Agent) :
    ∀ s : State, s.schedule = sched → s.fault = none → s.busy = true → CompletesOrFaultsWithin (sched.length + 1) s := by
  induction sched with
  | nil => exact fun s hsched hf hb => .of_coreStep 0 (step_of_busy_unscheduled hf hb hsched)
  | cons g sched ih =>
    intro s hsched hf hb
    by_cases hhost : s.hostEnabled = true
    · cases g with
      | core => exact .of_coreStep _ (step_of_busy_core hf hb hhost (by simp [hsched]))
      | host =>
        rcases hs : s.script with _ | ⟨a | _, ops⟩
        · simp [State.hostEnabled, hs] at hhost
        · have hstep := step_of_busy_host hf hb hs (by simp [hsched])
          by_cases ha : a = { space := .reg, addr := 4, width := 4, dir := .read }
          · rw [ha, hostAccess_statusRead] at hstep
            exact .cons hstep (ih _ (by simp [hsched]) hf hb)
          · exact .of_fault _ (hstep.trans (hostAccess_of_busy hb ha))
        · simp [State.hostEnabled, hs, hb] at hhost
    · exact .of_coreStep _ (step_of_busy hf hb (Bool.eq_false_iff.2 hhost))

/-- Settles O10: the host can delay the core no longer than the schedule calls it. -/
theorem issuedCommandCompletesOrFaults : Obligations.IssuedCommandCompletesOrFaults :=
  fun s hf hb => completesOrFaults s.schedule s rfl hf hb

end Sys2Proof.Machine

/-! SUPPORT. The commands without blocks, NOP and CHRESET, and the checks of DEC and ENC (44_commands.md R231 to R235). -/

namespace Sys2Proof.Machine

/-! ## NOP and CHRESET (R234, R235) -/

/-- After a success STATUS shows CHV alone (R28, R263). -/
theorem State.statusWord_complete (s : State) : s.complete.statusWord = if s.chv then 4#32 else 0#32 := by
  rw [State.statusWord, State.complete_errCode, State.complete_err, State.complete_busy, State.complete_chv]
  cases s.chv <;> rfl

/-- Settles O19: NOP is a success alone, and 0 is its one word. -/
theorem nopClearsTheReport : Obligations.NopClearsTheReport := by
  intro s
  refine ⟨rfl, fun t ht => ?_, decode_eq_ok_iff rfl, fun w => coreStep_of_ne_commandWord (by decide) w⟩
  cases ht
  exact s.statusWord_complete

theorem State.chan_of_replicate {s : State} {n c : Nat} {x : Chan} (h : s.ch = List.replicate n x) (hc : c < n) : s.chan c = x := by
  simp [State.chan, h, hc]

/-- Settles O20: CHRESET replaces the list of slots by fresh ones, and 1 is its one word. -/
theorem chresetMakesEverySlotFresh : Obligations.ChresetMakesEverySlotFresh := by
  intro s
  refine ⟨⟨_, rfl, fun c hc => ?_, rfl, List.length_replicate⟩, decode_eq_ok_iff rfl,
    fun w => coreStep_of_ne_commandWord (by decide) w⟩
  rw [State.chan_of_replicate rfl hc]
  exact ⟨rfl, rfl, rfl, rfl⟩

/-! ## The checks of DEC and ENC (R231) -/

theorem codecPlan_of_unusable {s : State} (h : ¬ s.codecUsable = true) (sel : ChanSel) (cnt : Count) :
    s.codecPlan sel cnt = .error (.plain .configError) := if_neg h

theorem codecPlan_of_badChannel {s : State} (husable : s.codecUsable = true) {c : Nat} (hc : s.nch ≤ c) (cnt : Count) :
    s.codecPlan (.one c) cnt = .error (.at .badChannel c 0) := by
  rw [State.codecPlan, if_pos husable, (selectChannels_eq s (.one c)).2 c rfl hc]

section

variable {s : State} (husable : s.codecUsable = true) {sel : ChanSel} (hsel : ∀ c ∈ s.selected sel, c < s.nch)
include husable hsel

theorem codecPlan_of_notReady (hchv : s.chv = false) (cnt : Count) : s.codecPlan sel cnt = .error (.plain .notReady) := by
  rw [State.codecPlan, if_pos husable, (selectChannels_eq s sel).1 hsel]
  exact if_neg (Bool.eq_false_iff.1 hchv)

/-- The first channel whose count does not fit decides the error (R233). -/
theorem codecPlan_of_overrun (hchv : s.chv = true) {cnt : Count} {before after : List Nat} {c : Nat}
    (hsplit : s.selected sel = before ++ c :: after) (hbefore : ∀ d ∈ before, s.fits cnt d) (hc : ¬ s.fits cnt c) :
    s.codecPlan sel cnt = .error (.at .cursorOverrun c (s.cursorOf c)) := by
  rw [State.codecPlan, if_pos husable, (selectChannels_eq s sel).1 hsel]
  dsimp only
  rw [if_pos hchv, hsplit, resolveCounts_error hbefore hc]

end

/-- A codec command whose checks fail reports their error, and changes nothing else (R231). -/
theorem codecCommand_of_planError {s : State} {sel : ChanSel} {cnt : Count} {e : ErrInfo} (h : s.codecPlan sel cnt = .error e)
    (f : Nat → Nat → State → Work) : codecCommand f sel cnt s = .next (s.errorCompletion e) := by
  rw [codecCommand, h]

/-- DEC and ENC have the same checks. -/
theorem coreStep_of_planError {s : State} {sel : ChanSel} {cnt : Count} {e : ErrInfo}
    (hcmd : decode s.latch = .ok (.dec sel cnt) ∨ decode s.latch = .ok (.enc sel cnt)) (h : s.codecPlan sel cnt = .error e) :
    coreStep s = .next (s.errorCompletion e) := by
  rcases hcmd with hdec | henc
  · rw [coreStep_of_decode hdec]
    exact codecCommand_of_planError h decBlock
  · rw [coreStep_of_decode henc]
    exact codecCommand_of_planError h encBlock

/-- Settles O17: the core's step ends in the error of the plan, and the plan takes the checks in their order. -/
theorem codecChecksRunInOrder : Obligations.CodecChecksRunInOrder := by
  intro s
  refine ⟨coreStep_of_illegal, fun sel cnt hcmd => ⟨fun hbad => ?_, fun hgood => ?_⟩⟩
  · exact coreStep_of_planError hcmd (codecPlan_of_unusable (mt (codecUsable_iff s).1 hbad) sel cnt)
  · have husable := (codecUsable_iff s).2 hgood
    refine ⟨?_, fun hsel => ⟨fun hchv => ?_, fun hchv before c after hsplit hbefore hc => ?_⟩⟩
    · rintro c rfl hc
      exact coreStep_of_planError hcmd (codecPlan_of_badChannel husable hc cnt)
    · exact coreStep_of_planError hcmd (codecPlan_of_notReady husable hsel hchv cnt)
    · exact coreStep_of_planError hcmd (codecPlan_of_overrun husable hsel hchv hsplit hbefore hc)

end Sys2Proof.Machine

/-! SUPPORT. The PREDICTIVE commands: DEC and ENC over their planned blocks, and the first invalid block (44_commands.md R236, R237,
R240; 60_exceptions.md R264). -/

namespace Sys2Proof.Machine

/-! ## The predictive codec over a run of blocks -/

theorem samplesPerBlock_predictive {s : State} (hk : s.kind = .predictive) : s.samplesPerBlock = 30 := if_pos hk

theorem State.decodesChannel_predictive {s : State} {cnt : Count} {c : Nat} {bs : List (Vector Byte 16)} {outs : List Int}
    {last : Int × Int} (hk : s.kind = .predictive) (hc : c < s.ch.length) (hbs : s.blocksToDecode cnt c = some bs)
    (hd : decodeBlocks (s.hist c) bs = some (outs, last)) :
    s.DecodesChannel cnt c { s.chan c with hist0 := toSample last.1, hist1 := toSample last.2 } (outs.map toSample) where
  length := by
    rw [List.length_map, (decodeBlocks_spec (hist_inRange s c) hd).1, rangesAt_length hbs, samplesPerBlock_predictive hk]
  blocks u hu hlen huc := by
    have hchb : u.chbOf c = s.chbOf c := by rw [hu]; rfl
    have hindex : ∀ i, u.sampleIndex c i = s.sampleIndex c i := by rw [hu]; exact fun _ => rfl
    have hhist : u.hist c = s.hist c := by rw [State.hist, huc, State.hist]
    rw [forBlocks_dec_predictive _ (hlen ▸ hc) (by rw [hu]; exact hk) (hchb ▸ hbs) (hhist ▸ hd), hindex,
      State.firstSample, samplesPerBlock_predictive hk, State.setHist, huc]

theorem State.encodesChannel_predictive {s : State} {cnt : Count} {c : Nat} {xs : List (Vector Sample 30)} {run : EncodedRun}
    (hk : s.kind = .predictive) (hc : c < s.ch.length ∧ c < s.chb.length) (hxs : s.samplesToEncode cnt c = some xs)
    (he : encodeBlocks (s.hist c) (xs.map signedSamples) = run) :
    s.EncodesChannel cnt c { s.chan c with hist0 := toSample run.hist.1, hist1 := toSample run.hist.2 } run.bytes where
  length := by rw [← he, (encodeBlocks_spec (hist_inRange s c) _).2, List.length_map, rangesAt_length hxs]
  blocks u hu hlen hlenb huc := by
    have hsram : u.sram = s.sram := by rw [hu]
    have hindex : ∀ i, u.sampleIndex c i = s.sampleIndex c i := by rw [hu]; exact fun _ => rfl
    have hhist : u.hist c = s.hist c := by rw [State.hist, huc, State.hist]
    rw [forBlocks_enc_predictive _ (hlen ▸ hc.1) (hlenb ▸ hc.2) (by rw [hu]; exact hk) (by rw [hsram, hindex]; exact hxs),
      hhist, he, State.setHist, huc]

/-- Settles O33: the samples are those of `exec_dec_of_decodesChannel`, as patterns. -/
theorem decDecodesThePlannedBlocks : Obligations.DecDecodesThePlannedBlocks := by
  intro s sel cnt outs last inv ready hk hcodec
  simp only [← List.getElem?_map]
  rw [← samplesPerBlock_predictive hk]
  refine exec_dec_of_decodesChannel inv ready
    (y := fun c => { s.chan c with hist0 := toSample (last c).1, hist1 := toSample (last c).2 }) fun c hc => ?_
  obtain ⟨bs, hbs, hd⟩ := hcodec c hc
  exact State.decodesChannel_predictive hk (slots_of_ready inv ready c hc).1 hbs hd

/-- Settles O36: the bytes are those of `exec_enc_of_encodesChannel`. -/
theorem encEncodesThePlannedBlocks : Obligations.EncEncodesThePlannedBlocks := by
  intro s sel cnt run inv ready hk hcodec
  refine exec_enc_of_encodesChannel inv ready (bytes := fun c => (run c).bytes)
    (y := fun c => { s.chan c with hist0 := toSample (run c).hist.1, hist1 := toSample (run c).hist.2 }) fun c hc => ?_
  obtain ⟨xs, hxs, he⟩ := hcodec c hc
  exact State.encodesChannel_predictive hk (slots_of_ready inv ready c hc) hxs he

/-! ## The first invalid block (R152, R237, R264) -/

/-- An index past the table makes a block invalid, whatever the history (R152). -/
theorem decBlock_of_badIndex {s : State} {c k : Nat} {b : Vector Byte 16} (hk : s.kind = .predictive)
    (hb : Mem.getRange (s.chbOf c) (16 * k) 16 = some b) (hbad : 4 < coefIndexOf b) :
    decBlock c k s = .err (.at .invalidBlock c k) := by
  have hnone : pDecodeBlock (s.hist c) b = none := by
    rw [pDecodeBlock_eq_map, Option.map_eq_none_iff, coefficients_eq_none_iff]
    exact hbad
  rw [decBlock_predictive hk hb, hnone]

/-- Settles O34: the channels before `c` and the `j` blocks before leave CHB, so the block is as invalid as it was. -/
theorem decStopsAtTheFirstInvalidBlock : Obligations.DecStopsAtTheFirstInvalidBlock := by
  intro s sel cnt before after c j bs b inv ready hk hsel hbefore hj hbs hd hb hbad
  have slots := slots_of_ready inv ready
  obtain ⟨nodup, hnot⟩ := before_of_selected hsel
  have hdecodes : ∀ d ∈ before, s.decodesTo d (s.countFor cnt d) := fun d hd => by
    obtain ⟨ds, r, hds, hr⟩ := hbefore d hd
    exact ⟨ds, hds, by simp [hk, hr]⟩
  obtain ⟨u, hu, hframe, hlen, hother⟩ :=
    forChannels_dec_of_decodesTo nodup (fun d hd => (slots d (by simp [hsel, hd])).1) hdecodes
  have huc := hother c hnot
  obtain ⟨y, a, xs, -, hv⟩ :=
    forBlocks_dec_of_decodesTo (slots c (by simp [hsel])).1 ⟨bs, hbs, by simpa only [hk] using hd⟩ hframe hlen huc
  have hblock : decBlock c (s.cursorOf c + j) ((u.setChan c y).writeSram a xs) =
      .err (.at .invalidBlock c (s.cursorOf c + j)) := by
    rw [hframe]
    exact decBlock_of_badIndex hk hb hbad
  exact codecCommand_stops ready hsel hj hu huc hv hblock rfl

end Sys2Proof.Machine

/-! SUPPORT. Two DEC commands in a row, and DEC after ENC (44_commands.md R236, R238, R241; 42_predictive_encode.md R194). -/

namespace Sys2Proof.Machine

/-! ## What a block of a DEC does not read: the cursor and the status -/

/-- Work that may change its working copy by `g` before or after. -/
def CommutesWith (g : State → State) (f : State → Work) : Prop := ∀ s, f (g s) = (f s).mapOk g

theorem CommutesWith.andThen {g : State → State} {f h : State → Work} (hf : CommutesWith g f) (hh : CommutesWith g h) :
    CommutesWith g (fun s => (f s).andThen h) := by
  intro s
  simp only [hf s]
  exact Work.mapOk_andThen hh (f s)

theorem forBlocks_commutesWith {g : State → State} {f : Nat → State → Work} (hf : ∀ k, CommutesWith g (f k)) :
    ∀ n k, CommutesWith g (forBlocks f n k) := by
  intro n
  induction n with
  | zero => exact fun _ _ => rfl
  | succ n ih => exact fun k => (hf k).andThen (ih (k + 1))

/-- Moving slot `c` on twice is moving it on once by both moves. -/
theorem State.setChan_chan_setChan (s : State) (c : Nat) (F G : Chan → Chan) :
    (s.setChan c (F (s.chan c))).setChan c (G ((s.setChan c (F (s.chan c))).chan c)) = s.setChan c (G (F (s.chan c))) := by
  rw [State.setChan_setChan]
  by_cases hc : c < s.ch.length
  · rw [State.chan_setChan_same _ hc]
  · simp [State.setChan, List.set_eq_of_length_le (not_lt.1 hc)]

/-- Two moves of slot `c` that commute on the slot commute on the state. -/
theorem State.setChan_chan_comm (s : State) (c : Nat) {F G : Chan → Chan} (h : ∀ x, F (G x) = G (F x)) :
    (s.setChan c (F (s.chan c))).setChan c (G ((s.setChan c (F (s.chan c))).chan c)) =
      (s.setChan c (G (s.chan c))).setChan c (F ((s.setChan c (G (s.chan c))).chan c)) := by
  rw [State.setChan_chan_setChan, State.setChan_chan_setChan, h]

/-- The state that a DEC of channel `c` leaves of its working copy: the cursor moved to `k`, and a success (R236, R263). -/
def State.doneTo (s : State) (c k : Nat) : State := (s.setCursor c k).complete

theorem State.doneTo_doneTo (s : State) (c j k : Nat) : (s.doneTo c j).doneTo c k = s.doneTo c k := by
  have hcursor : (s.setCursor c j).setCursor c k = s.setCursor c k := s.setChan_chan_setChan c
    (fun x => { x with cursor := BitVec.ofNat 32 j }) (fun x => { x with cursor := BitVec.ofNat 32 k })
  rw [State.doneTo, State.doneTo, State.doneTo, ← hcursor]
  rfl

theorem State.setHist_doneTo (s : State) (c k : Nat) (h : Int × Int) : (s.doneTo c k).setHist c h = (s.setHist c h).doneTo c k :=
  congrArg State.complete (s.setChan_chan_comm c (F := fun x => { x with cursor := BitVec.ofNat 32 k })
    (G := fun x => { x with hist0 := toSample h.1, hist1 := toSample h.2 }) fun _ => rfl)

theorem State.setAst_doneTo (s : State) (c k : Nat) (a : AdState) : (s.doneTo c k).setAst c a = (s.setAst c a).doneTo c k :=
  congrArg State.complete (s.setChan_chan_comm c (F := fun x => { x with cursor := BitVec.ofNat 32 k })
    (G := fun x => { x with ast := a }) fun _ => rfl)

/-- The cursor is no part of what the codecs read of a slot. -/
theorem State.codecState_doneTo (s : State) (c k : Nat) :
    (s.doneTo c k).hist c = s.hist c ∧ ((s.doneTo c k).chan c).ast = (s.chan c).ast := by
  have hslot : ((s.doneTo c k).chan c).hist0 = (s.chan c).hist0 ∧ ((s.doneTo c k).chan c).hist1 = (s.chan c).hist1 ∧
      ((s.doneTo c k).chan c).ast = (s.chan c).ast :=
    State.chan_setChan_related (s := s) (x := { s.chan c with cursor := BitVec.ofNat 32 k })
      (r := fun x y => y.hist0 = x.hist0 ∧ y.hist1 = x.hist1 ∧ y.ast = x.ast)
      (fun _ => ⟨rfl, rfl, rfl⟩) ⟨rfl, rfl, rfl⟩ c
  obtain ⟨h0, h1, hast⟩ := hslot
  exact ⟨by rw [State.hist, h0, h1, State.hist], hast⟩

/-- A block reads neither the cursor nor the status, and writes neither (R236). -/
theorem decBlock_commutesWith_doneTo (c j k : Nat) : CommutesWith (fun s => s.doneTo c k) (decBlock c j) := by
  intro s
  obtain ⟨hhist, hast⟩ := s.codecState_doneTo c k
  have hchb : (s.doneTo c k).chbOf c = s.chbOf c := rfl
  have hkind : (s.doneTo c k).kind = s.kind := rfl
  unfold decBlock
  rw [hchb, hhist, hast, hkind]
  rcases Mem.getRange (s.chbOf c) (16 * j) 16 with _ | blk
  · rfl
  · by_cases hk : s.kind = .predictive <;> simp only [hk, if_true, if_false]
    · rcases pDecodeBlock (s.hist c) blk with _ | ⟨out, h⟩
      · rfl
      · simp only [s.setHist_doneTo]; rfl
    · rcases Config.adDecode (s.chan c).ast blk with _ | ⟨out, a⟩
      · rfl
      · simp only [s.setAst_doneTo]; rfl

/-! ## A DEC of one channel that succeeds -/

theorem State.plan_one (s : State) (c : Nat) (cnt : Count) : s.plan (.one c) cnt = [(c, s.countFor cnt c)] := rfl

theorem exec_dec_one_of_forBlocks {s v : State} {c n : Nat} (ready : s.CodecReady (.one c) (.blocks n))
    (h : forBlocks (decBlock c) n (s.cursorOf c) s = .ok v) :
    exec (.dec (.one c) (.blocks n)) s = .next (v.doneTo c (s.cursorOf c + n)) := by
  refine codecCommand_of_done ready ?_
  rw [State.plan_one, State.countFor, forChannels, forChannel_of_forBlocks h]
  rfl

/-- It has done its blocks and moved the cursor past them. -/
theorem exec_dec_one_eq_next {s t : State} {c n : Nat} (h : exec (.dec (.one c) (.blocks n)) s = .next t) (herr : t.err = false) :
    s.CodecReady (.one c) (.blocks n) ∧
      ∃ v, forBlocks (decBlock c) n (s.cursorOf c) s = .ok v ∧ t = v.doneTo c (s.cursorOf c + n) := by
  rcases codecCommand_eq_next (f := decBlock) h with ⟨plan, u, hplan, hu, rfl⟩ | ⟨e, rfl, -⟩
  · refine ⟨ready_of_codecPlan hplan, ?_⟩
    rw [codecPlan_eq_ok hplan] at hu
    obtain ⟨w, hw, hend⟩ := Work.andThen_eq_ok hu
    cases hend
    obtain ⟨v, hv, rfl⟩ := forChannel_eq_ok hw
    exact ⟨v, hv, rfl⟩
  · cases herr

theorem Work.mapOk_eq_ok {g : State → State} {w : Work} {t : State} (h : w.mapOk g = .ok t) : ∃ s, w = .ok s ∧ t = g s := by
  cases w with
  | ok s => exact ⟨s, rfl, (Work.ok.inj h).symm⟩
  | err e => cases h
  | fault r => cases h

/-- A block number fits CURSOR, as it fits NBLKR. -/
theorem State.nblk_lt (s : State) : s.nblk < 2 ^ 32 := toNat_readReg_nblk s ▸ (readReg s 0x1C).isLt

theorem State.cursorOf_doneTo {s : State} {c k : Nat} (hc : c < s.ch.length) (hk : k < 2 ^ 32) : (s.doneTo c k).cursorOf c = k := by
  have hslot : (s.doneTo c k).chan c = { s.chan c with cursor := BitVec.ofNat 32 k } := State.chan_setChan_same _ hc
  rw [State.cursorOf, hslot, BitVec.toNat_ofNat, Nat.mod_eq_of_lt hk]

/-- Settles O43: the second DEC does its blocks beside the first one's cursor and status, and then overwrites both. -/
theorem resumedDecodeContinues : Obligations.ResumedDecodeContinues := by
  intro s t u c n m inv hfirst ht hsecond hu
  have htinv := inv.exec hfirst
  have hframe := exec_dec_frame hfirst
  obtain ⟨ready, v, hv, rfl⟩ := exec_dec_one_eq_next hfirst ht
  obtain ⟨ready', w, hw, rfl⟩ := exec_dec_one_eq_next hsecond hu
  have hmem {s : State} : c ∈ s.selected (.one c) := List.mem_singleton.2 rfl
  obtain ⟨hfit, hfit'⟩ := ready.countsFit c hmem
  have hcur : (v.doneTo c (s.cursorOf c + n)).cursorOf c = s.cursorOf c + n := by
    refine State.cursorOf_doneTo ?_ (lt_of_le_of_lt hfit' s.nblk_lt)
    simpa [State.doneTo, State.setCursor] using (slots_of_ready htinv ready' c hmem).1
  have hnblk : (v.doneTo c (s.cursorOf c + n)).nblk = s.nblk := by rw [hframe]; rfl
  rw [hcur] at hw ⊢
  rw [forBlocks_commutesWith (fun j => decBlock_commutesWith_doneTo c j (s.cursorOf c + n))] at hw
  obtain ⟨w', hw', rfl⟩ := Work.mapOk_eq_ok hw
  have both : forBlocks (decBlock c) (n + m) (s.cursorOf c) s = .ok w' := by rw [forBlocks_add, hv, Work.andThen_ok, hw']
  have total : s.fits (.blocks (n + m)) c := by
    have hend := (ready'.countsFit c hmem).2
    rw [hcur, hnblk, Nat.add_assoc] at hend
    exact ⟨hfit, hend⟩
  rw [exec_dec_one_of_forBlocks { ready with countsFit := fun d hd => List.mem_singleton.1 hd ▸ total } both,
    State.doneTo_doneTo, Nat.add_assoc]

/-! ## What the encoder wrote, read by the decoder (R194) -/

/-- The blocks that `encodeBlocks` yields, each by itself. -/
def encodedBlocks (h : Int × Int) : List (List Int) → List (Vector Byte 16)
  | [] => []
  | x :: xs => (pEncodeBlock h x).block :: encodedBlocks (pEncodeBlock h x).hist xs

theorem encodedBlocks_length (h : Int × Int) (xs : List (List Int)) : (encodedBlocks h xs).length = xs.length := by
  induction xs generalizing h with
  | nil => rfl
  | cons x xs ih => simp [encodedBlocks, ih]

theorem encodeBlocks_bytes (h : Int × Int) (xs : List (List Int)) :
    (encodeBlocks h xs).bytes = (encodedBlocks h xs).flatMap Vector.toList := by
  induction xs generalizing h with
  | nil => rfl
  | cons x xs ih => simp [encodeBlocks, encodedBlocks, ih]

/-- Decoding the encoded blocks gives the encoder's outputs and its last committed state. -/
theorem decodeBlocks_encodedBlocks (h : Int × Int) {xs : List (List Int)} (hxs : ∀ x ∈ xs, x.length ≤ 30) :
    decodeBlocks h (encodedBlocks h xs) = some ((encodeBlocks h xs).outs, (encodeBlocks h xs).hist) := by
  induction xs generalizing h with
  | nil => rfl
  | cons x xs ih =>
    obtain ⟨hx, hxs⟩ := List.forall_mem_cons.1 hxs
    simp only [encodedBlocks, decodeBlocks, (encodeThenDecodeIsExact h x hx).1, ih _ hxs, encodeBlocks]

/-- Cells that hold groups one after the other read as these groups. -/
theorem rangesAt_of_get {w size : Nat} {m : Mem w} (vs : List (Vector (BitVec w) size)) {a : Nat}
    (h : ∀ i < size * vs.length, Mem.get m (a + i) = (vs.flatMap Vector.toList)[i]?) :
    rangesAt m size a vs.length = some vs := by
  induction vs generalizing a with
  | nil => rfl
  | cons v vs ih =>
    simp only [List.length_cons, Nat.mul_add_one, List.flatMap_cons] at h
    have hfirst : Mem.getRange m a size = some v := (Mem.getRange_eq_some_iff m a size v).2 fun i hi => by
      rw [h i (by omega), List.getElem?_append_left (by simpa using hi)]
      simp [hi]
    have hrest := ih (a := a + size) fun i hi => by
      rw [Nat.add_assoc, h (size + i) (by omega), List.getElem?_append_right (by simp)]
      simp
    rw [List.length_cons, rangesAt, hfirst, hrest]

/-- What the checks of R231 read: the sizes, CFG, RAWLEN, CHV and the cursors of the selected channels. -/
theorem State.CodecReady.congr {s t : State} {sel : ChanSel} {cnt : Count} (ready : s.CodecReady sel cnt)
    (ht : t = { s with ch := t.ch, chb := t.chb, busy := t.busy, err := t.err, errCode := t.errCode, errCh := t.errCh,
                       errBlk := t.errBlk })
    (hcur : ∀ c ∈ s.selected sel, t.cursorOf c = s.cursorOf c) : t.CodecReady sel cnt := by
  have hselected : t.selected sel = s.selected sel := by rw [ht]; cases sel <;> rfl
  have hnblk : t.nblk = s.nblk := by rw [ht]; rfl
  refine ⟨by rw [ht]; exact ready.configured, by rw [ht]; exact ready.bramHolds, by rw [ht]; exact ready.sramHolds,
    by rw [hselected, ht]; exact ready.channelsExist, by rw [ht]; exact ready.imageValid, fun c hc => ?_⟩
  rw [hselected] at hc
  have hcount : t.countFor cnt c = s.countFor cnt c := by simp only [State.countFor, hnblk, hcur c hc]
  rw [State.fits, hcur c hc, hcount, hnblk]
  exact ready.countsFit c hc

/-- DEC of the blocks that the encoder has made of channel `c`, with the slot as the ENC met it. -/
theorem exec_dec_of_encodedBlocks {s : State} {c n : Nat} {xs : List (List Int)} (inv : s.Inv)
    (ready : s.CodecReady (.one c) (.blocks n)) (hk : s.kind = .predictive) (hxs : ∀ x ∈ xs, x.length ≤ 30) (hn : xs.length = n)
    (hbytes : ∀ i < 16 * n, Mem.get (s.chbOf c) (16 * s.cursorOf c + i) = (encodeBlocks (s.hist c) xs).bytes[i]?) :
    ∃ u, exec (.dec (.one c) (.blocks n)) s = .next u ∧ u.err = false ∧
      u.chan c = { hist0 := toSample (encodeBlocks (s.hist c) xs).hist.1, hist1 := toSample (encodeBlocks (s.hist c) xs).hist.2,
                   cursor := BitVec.ofNat 32 (s.cursorOf c + n), ast := (s.chan c).ast } ∧
      ∀ i < 30 * n, Mem.get u.sram (c * s.nsamp + 30 * s.cursorOf c + i) =
        ((encodeBlocks (s.hist c) xs).outs[i]?).map toSample := by
  have hlen : (encodedBlocks (s.hist c) xs).length = n := (encodedBlocks_length _ _).trans hn
  have hblocks : s.blocksToDecode (.blocks n) c = some (encodedBlocks (s.hist c) xs) := by
    rw [encodeBlocks_bytes] at hbytes
    exact hlen ▸ rangesAt_of_get _ (hlen.symm ▸ hbytes)
  obtain ⟨u, hu, hdone, -, -, hframe⟩ := decDecodesThePlannedBlocks s (.one c) (.blocks n)
    (fun _ => (encodeBlocks (s.hist c) xs).outs) (fun _ => (encodeBlocks (s.hist c) xs).hist) inv ready hk
    (fun d hd => by rw [List.mem_singleton.1 hd]; exact ⟨_, hblocks, decodeBlocks_encodedBlocks _ hxs⟩)
  obtain ⟨hslot, houts⟩ := hdone c (List.mem_singleton.2 rfl)
  exact ⟨u, hu, by rw [hframe], hslot, houts⟩

/-- Settles O44: with its history and cursor put back, slot `c` is as before the ENC, and the DEC reads the ENC's own blocks. -/
theorem encThenDecReproduces : Obligations.EncThenDecReproduces := by
  intro s c n xs inv ready hk hxs
  have hmem : c ∈ s.selected (.one c) := List.mem_singleton.2 rfl
  obtain ⟨t, ht, hdone, -, hframe⟩ := encEncodesThePlannedBlocks s (.one c) (.blocks n)
    (fun _ => encodeBlocks (s.hist c) (xs.map signedSamples)) inv ready hk
    (fun d hd => by rw [List.mem_singleton.1 hd]; exact ⟨xs, hxs, rfl⟩)
  obtain ⟨hslot, hbytes, -⟩ := hdone c hmem
  have hast : (t.chan c).ast = (s.chan c).ast := by rw [hslot]
  have hc : c < t.ch.length := by
    rw [(inv.exec ht).slots, exec_params ht, ← inv.slots]
    exact (slots_of_ready inv ready c hmem).1
  have hput : (t.setChan c (s.chan c)).chan c = s.chan c := State.chan_setChan_same _ hc
  have hcur : (t.setChan c (s.chan c)).cursorOf c = s.cursorOf c := by rw [State.cursorOf, hput, State.cursorOf]
  have hhist : (t.setChan c (s.chan c)).hist c = s.hist c := by rw [State.hist, hput, State.hist]
  have hnsamp : (t.setChan c (s.chan c)).nsamp = s.nsamp := by rw [hframe]; rfl
  have ready' : (t.setChan c (s.chan c)).CodecReady (.one c) (.blocks n) :=
    ready.congr (by rw [hframe]; rfl) fun d hd => by rw [List.mem_singleton.1 hd, hcur]
  have hsamples : ∀ x ∈ xs.map signedSamples, x.length ≤ 30 := by simp [signedSamples]
  obtain ⟨u, hu, herr, huc, houts⟩ := exec_dec_of_encodedBlocks ((inv.exec ht).setChan c _) ready' (by rw [hframe]; exact hk)
    hsamples ((List.length_map _).trans (rangesAt_length hxs)) (by rw [hcur, hhist]; exact hbytes)
  rw [hcur, hhist, hput] at huc
  rw [hcur, hhist, hnsamp] at houts
  exact ⟨t, u, ht, by dsimp only; rw [hast]; exact hu, herr, huc.trans hslot.symm, houts⟩

end Sys2Proof.Machine

/-! SUPPORT. The one exception of the hardware: what a completion writes (60_exceptions.md R260 to R263). -/

namespace Sys2Proof.Machine

/-- R260, R262: an error completion writes BUSY and the report, and nothing else. -/
theorem State.errorCompletion_eq (s : State) (e : ErrInfo) :
    s.errorCompletion e = { s with busy := false, err := true, errCode := e.code, errCh := e.ch, errBlk := e.blk } := rfl

/-- Settles O15: a command ends in `complete`, whose report is clear, or in `errorCompletion` of the state before. -/
theorem completionsArePrecise : Obligations.CompletionsArePrecise := by
  intro i s t h
  obtain ⟨u, rfl, -⟩ | ⟨e, -, rfl⟩ := exec_cases h
  · exact ⟨u.complete_busy, fun herr => absurd herr (by simp), fun _ => ⟨u.complete_errCode, u.complete_errCh, u.complete_errBlk⟩⟩
  · exact ⟨s.errorCompletion_busy e, fun _ => s.errorCompletion_eq e, fun herr => absurd herr (by simp)⟩

end Sys2Proof.Machine

/-! SUPPORT. The state after reset meets the invariant (70_reset_and_hazards.md R290, R291). -/

namespace Sys2Proof.Machine

/-- CFG, CHV and the error report are clear, no cell of a memory is written, and every slot stands; only the sizes must be legal. -/
theorem State.Inv.resetOf {p : Params} (hp : p.legal = true) : (State.resetOf p).Inv where
  sizes := hp
  slots := List.length_replicate
  channels := Nat.zero_le _
  configured := iff_of_true rfl rfl
  bramForm := Mem.wf_nil
  bramSize := rfl
  sramForm := Mem.wf_nil
  sramSize := rfl
  chbForm := fun _ hm => absurd hm List.not_mem_nil
  image := fun hchv => absurd hchv Bool.false_ne_true
  report := iff_of_true rfl rfl
  locus := fun _ => ⟨rfl, rfl⟩

/-- Settles O12: the sizes of `State.reset` are legal, so it is an instance of the fact about every legal choice. -/
theorem resetMeetsTheInvariant : Obligations.ResetMeetsTheInvariant := by
  have hvectors : Params.ofVectors.legal = true := by decide
  exact ⟨rfl, State.Inv.resetOf hvectors, fun _ => State.Inv.resetOf⟩

end Sys2Proof.Machine
